-- ==== Sys2Proof/Word.lean ====
section
/-! DEFINITION. The byte and the 32-bit word (00_scope.md R9, 10_state.md R20). -/

namespace Sys2Proof

/-- A byte: an unsigned integer 0 to 255 (R9). -/
abbrev Byte := BitVec 8

/-- A 32-bit register: `cursor`, `prev_tow` unsigned, the coordinates two's complement (R20). -/
abbrev Word32 := BitVec 32

end Sys2Proof
end

