-- ==== Sys2Proof/Config.lean ====
section
/-! DEFINITION. The fixed constants of the block (00_scope.md R6, R7, R8) and the one open parameter nothing
depends on. `BUF_CAP` is the field `bufCap` of State (log 5). -/

namespace Sys2Proof.Config

/-- `START = A0 A1` (R6, R83). -/
def startMarker : List Byte := [0xA0, 0xA1]

/-- `END = 0D 0A` (R6, R88). -/
def endMarker : List Byte := [0x0D, 0x0A]

/-- `MAX_BODY = 65534` (R7). -/
def maxBody : Nat := 65534

/-- `COUNT_WIDTH`, the bits of the EXTRACT_BYTES count (R8, D11). -/
abbrev countWidth : Nat := 32

/-- `CURSOR_WIDTH`, the bits of the PARSE cursor and of the block length (R8, D11). -/
abbrev cursorWidth : Nat := 32

/-- Size of a FULL or POINT_OF_INTEREST record in bytes (R6, R92). -/
def absoluteSize : Nat := 18

/-- Size of a COMPACT record in bytes (R6, R92). -/
def compactSize : Nat := 8

/-- Size of an EMPTY record in bytes (R6, R92). -/
def emptySize : Nat := 2

/-- A raw log block has at most `2^32 - 1` bytes, so its length is below this bound (R53, D11). -/
def blockBound : Nat := 2 ^ cursorWidth

/-- `POLL_DELAY` (R8, P2): OPEN, timing only. No rule and no definition of the model depends on it (R275, log 11). -/
opaque pollDelay : Nat

/-- `SECTOR_SIZE`, a constant of the environment (R8, R206). -/
def sectorSize : Nat := 4096

/-- `TRAILER_LEN`, a constant of the environment (R8, R206). -/
def trailerLen : Nat := 19

/-! ### The bodies of the version and status responses, environment (R205)

The source gives neither layout (N10, N11), so where a field stands is a free value (log 20). -/

/-- Length of the version response's body (R205). -/
def versionLength : Nat := 13

/-- Where a version string's three bytes begin in the 13 (R205; N11 leaves it open, log 20). -/
opaque kernelAt : Fin 11

/-- As `kernelAt`, for the application's version. -/
opaque applicationAt : Fin 11

/-- As `kernelAt`, for the revision. -/
opaque revisionAt : Fin 11

/-- The fields of the logger status that are numbers (R205). -/
inductive StatusField where
  | writePosition
  | secondsRemaining | secondsTotal
  | maxTime | minTime
  | maxDistance | minDistance
  | maxSpeed | minSpeed
  deriving DecidableEq, Repr

/-- The two flags of the logger status (R205). -/
inductive StatusFlag where
  | logging
  | fifoOverwrite
  deriving DecidableEq, Repr

/-- Where a field of the status body begins and how many bytes it has (N10 leaves both open, log 20). -/
opaque statusPlace : StatusField → Nat × Nat

/-- A flag of a status body: its place and its coding are open (N10, log 20). -/
opaque statusFlag : StatusFlag → List (BitVec 8) → Bool

end Sys2Proof.Config
end

