-- ==== Sys2Proof/Syntax.lean ====
section
/-! DEFINITION. The instruction set: the eight operations with the reserved select codes, the log records with the
reserved kinds, and the wire frame; one constructor per row of spec/opcode_table.json. -/

namespace Sys2Proof

/-- The fields of an 18-byte record, FULL or POINT_OF_INTEREST (R95), the ignored bits included. -/
structure AbsoluteRecord where
  ignored0 : BitVec 3
  velocity : BitVec 10
  tow      : BitVec 20
  ignored2 : BitVec 2
  week     : BitVec 10
  x        : Word32
  y        : Word32
  z        : Word32
  deriving DecidableEq, Repr

/-- The fields of an 8-byte COMPACT record (R100), the ignored bits included; `rdx`, `rdy`, `rdz` are raw. -/
structure CompactRecord where
  ignored0 : BitVec 3
  velocity : BitVec 10
  dt       : BitVec 16
  rdx      : BitVec 10
  rdy      : BitVec 10
  ignored6 : BitVec 2
  rdz      : BitVec 10
  deriving DecidableEq, Repr

/-- The fields of a 2-byte EMPTY record (R104): all of them ignored. -/
structure EmptyRecord where
  ignored0 : BitVec 5
  ignored1 : Byte
  deriving DecidableEq, Repr

/-- What a wire frame carries (R82): identifier, body and the checksum byte as received. -/
structure WireFrame where
  identifier : Byte
  body       : List Byte
  checksum   : Byte
  deriving DecidableEq, Repr

/-- A request at the command port (R81, D23): the select code `op[3:0]` of R80 and the operand lanes. An operation
reads the lanes that R80 gives it and no other (log 17). -/
structure Request where
  op    : BitVec 4
  id    : Byte
  count : BitVec Config.countWidth
  data  : List Byte
  deriving DecidableEq, Repr

/-- One constructor per row of the opcode table. -/
inductive Instr where
  /-- ENCODE, `op` 0 (R121). -/
  | encode (id : Byte) (body : List Byte)
  /-- DECODE, `op` 1 (R124). -/
  | decode (frame : List Byte)
  /-- APPEND, `op` 2 (R141). -/
  | append (chunk : List Byte)
  /-- EXTRACT_FRAME, `op` 3 (R146). -/
  | extractFrame
  /-- EXTRACT_BYTES, `op` 4 (R150). -/
  | extractBytes (count : BitVec Config.countWidth)
  /-- CANCEL, `op` 5 (R154). -/
  | cancel
  /-- CLEAR, `op` 6 (R156). -/
  | clear
  /-- PARSE, `op` 7 (R171). -/
  | parse (block : List Byte)
  /-- RESERVED_OP, `op` 8 to 15 (R80): `low` is `op[2:0]`. -/
  | reservedOp (low : BitVec 3)
  /-- FULL, kind 2 (R174). -/
  | full (r : AbsoluteRecord)
  /-- POINT_OF_INTEREST, kind 3 (R175). -/
  | pointOfInterest (r : AbsoluteRecord)
  /-- COMPACT, kind 4 (R176). -/
  | compact (r : CompactRecord)
  /-- EMPTY, kind 7 (R177). -/
  | empty (r : EmptyRecord)
  /-- RESERVED_KIND_0 (R178): `low` is the header's bits 4:0. -/
  | reservedKind0 (low : BitVec 5)
  /-- RESERVED_KIND_1 (R178). -/
  | reservedKind1 (low : BitVec 5)
  /-- RESERVED_KIND_5 (R178). -/
  | reservedKind5 (low : BitVec 5)
  /-- RESERVED_KIND_6 (R178). -/
  | reservedKind6 (low : BitVec 5)
  /-- FRAME, the wire frame (R82). -/
  | frame (f : WireFrame)
  deriving DecidableEq, Repr

end Sys2Proof
end

