-- ==== Sys2Proof/WellFormed.lean ====
section
/-! DEFINITION. Which instructions have an encoding: the two limits of spec/ that the types do not carry. -/

namespace Sys2Proof

/-- A wire frame's body fits the 16-bit length field (R7, R84). -/
def WireFrame.wellFormed (f : WireFrame) : Bool := decide (f.body.length ≤ Config.maxBody)

/-- A well-formed instruction: a raw log block has at most `2^32 - 1` bytes (R53), a wire frame at most 65534 body
bytes (R7). Every other operand is legal at every value its type holds; an over-long ENCODE body is a legal operand
that ENCODE answers with an error (R122). -/
def Instr.wellFormed : Instr → Bool
  | .encode _ _ => true
  | .decode _ => true
  | .append _ => true
  | .extractFrame => true
  | .extractBytes _ => true
  | .cancel => true
  | .clear => true
  | .parse block => decide (block.length < Config.blockBound)
  | .reservedOp _ => true
  | .full _ => true
  | .pointOfInterest _ => true
  | .compact _ => true
  | .empty _ => true
  | .reservedKind0 _ => true
  | .reservedKind1 _ => true
  | .reservedKind5 _ => true
  | .reservedKind6 _ => true
  | .frame f => f.wellFormed

end Sys2Proof
end

