-- ==== Sys2Proof/Decode.lean ====
section
/-! DEFINITION. The three encodings of 30_encoding.md: the request at the command port, the log record, the wire
frame. First the field assembly, then the decoders (total, rejecting by name), then the encoders, then the table's
words. -/

namespace Sys2Proof

/-! ### Bytes and fields -/

/-- `hi8(v) = v[15:8]` (R9). -/
def hi8 (v : BitVec 16) : Byte := v.extractLsb' 8 8

/-- `lo8(v) = v[7:0]` (R9). -/
def lo8 (v : BitVec 16) : Byte := v.extractLsb' 0 8

/-- The big-endian 16-bit value of two bytes, the high one first: `be16` of R9. -/
def be16 (hi lo : Byte) : BitVec 16 := hi ++ lo

/-- `me32` (R98): the third byte is bits 31:24, the fourth 23:16, the first 15:8, the second 7:0. -/
def me32 (s0 s1 s2 s3 : Byte) : Word32 := s2 ++ s3 ++ s0 ++ s1

/-- `sext_10` (R103, conflict C2): two's-complement sign extension of a raw delta. -/
def sext10 (v : BitVec 10) : Word32 := v.signExtend 32

/-- `velocity = {b[0][1:0], b[1]}` (R96). -/
def velocityField (b0 b1 : Byte) : BitVec 10 := b0.extractLsb' 0 2 ++ b1

/-- `week = {b[2][1:0], b[3]}` (R97). -/
def weekField (b2 b3 : Byte) : BitVec 10 := b2.extractLsb' 0 2 ++ b3

/-- `tow = {b[4], b[5], b[2][7:4]}` (R97). -/
def towField (b2 b4 b5 : Byte) : BitVec 20 := b4 ++ b5 ++ b2.extractLsb' 4 4

/-- `dt = be16(b, 2)` (R101). -/
def dtField (b2 b3 : Byte) : BitVec 16 := be16 b2 b3

/-- `rdx = b[4] * 4 + (b[5] >> 6)` (R102). -/
def rdxField (b4 b5 : Byte) : BitVec 10 := b4 ++ b5.extractLsb' 6 2

/-- `rdy = (b[5] & 0x3F) * 16 + (b[6] >> 4)` (R102). -/
def rdyField (b5 b6 : Byte) : BitVec 10 := b5.extractLsb' 0 6 ++ b6.extractLsb' 4 4

/-- `rdz = (b[6] & 0x03) * 256 + b[7]` (R102). -/
def rdzField (b6 b7 : Byte) : BitVec 10 := b6.extractLsb' 0 2 ++ b7

/-! ### Record kinds -/

/-- The record kinds of R93; the four codes the source does not name are reserved (R94). -/
inductive Kind where
  | full | pointOfInterest | compact | empty
  | reserved0 | reserved1 | reserved5 | reserved6
  deriving DecidableEq, Repr

/-- `kind = h[7:5]` (R91, R93, conflict C1); the last arm is code 7. -/
def kindOf (h : Byte) : Kind :=
  match (h.extractLsb' 5 3).toNat with
  | 0 => .reserved0
  | 1 => .reserved1
  | 2 => .full
  | 3 => .pointOfInterest
  | 4 => .compact
  | 5 => .reserved5
  | 6 => .reserved6
  | _ => .empty

/-- Record length in bytes (R92); none for a reserved kind (R94). -/
def Kind.size : Kind → Option Nat
  | .full => some Config.absoluteSize
  | .pointOfInterest => some Config.absoluteSize
  | .compact => some Config.compactSize
  | .empty => some Config.emptySize
  | .reserved0 | .reserved1 | .reserved5 | .reserved6 => none

/-- One record of a raw log block as the decoder reads it (R91 to R105); of a reserved kind only the header's low five
bits. -/
inductive LogRecord where
  | full (r : AbsoluteRecord)
  | pointOfInterest (r : AbsoluteRecord)
  | compact (r : CompactRecord)
  | empty (r : EmptyRecord)
  | reserved0 (low : BitVec 5)
  | reserved1 (low : BitVec 5)
  | reserved5 (low : BitVec 5)
  | reserved6 (low : BitVec 5)
  deriving DecidableEq, Repr

/-- The row of the opcode table a record belongs to. -/
def LogRecord.toInstr : LogRecord → Instr
  | .full r => .full r
  | .pointOfInterest r => .pointOfInterest r
  | .compact r => .compact r
  | .empty r => .empty r
  | .reserved0 low => .reservedKind0 low
  | .reserved1 low => .reservedKind1 low
  | .reserved5 low => .reservedKind5 low
  | .reserved6 low => .reservedKind6 low

/-! ### Decoding a record -/

/-- Why no record can be read at the cursor. -/
inductive RecordReject where
  /-- There is no header byte. -/
  | noHeader
  /-- The kind's length is more than the bytes left (R173). -/
  | truncated
  deriving DecidableEq, Repr

/-- The fields of an 18-byte record (R95 to R99), and the bytes after it. -/
def decodeAbsolute : List Byte → Option (AbsoluteRecord × List Byte)
  | b0 :: b1 :: b2 :: b3 :: b4 :: b5 :: b6 :: b7 :: b8 :: b9 :: b10 :: b11 :: b12 :: b13 :: b14 :: b15 :: b16 :: b17
      :: rest =>
    some
      ({ ignored0 := b0.extractLsb' 2 3
         velocity := velocityField b0 b1
         tow := towField b2 b4 b5
         ignored2 := b2.extractLsb' 2 2
         week := weekField b2 b3
         x := me32 b6 b7 b8 b9
         y := me32 b10 b11 b12 b13
         z := me32 b14 b15 b16 b17 }, rest)
  | _ => none

/-- The fields of an 8-byte COMPACT record (R100 to R102), and the bytes after it. -/
def decodeCompact : List Byte → Option (CompactRecord × List Byte)
  | b0 :: b1 :: b2 :: b3 :: b4 :: b5 :: b6 :: b7 :: rest =>
    some
      ({ ignored0 := b0.extractLsb' 2 3
         velocity := velocityField b0 b1
         dt := dtField b2 b3
         rdx := rdxField b4 b5
         rdy := rdyField b5 b6
         ignored6 := b6.extractLsb' 2 2
         rdz := rdzField b6 b7 }, rest)
  | _ => none

/-- The bits of a 2-byte EMPTY record (R104), and the bytes after it. -/
def decodeEmpty : List Byte → Option (EmptyRecord × List Byte)
  | b0 :: b1 :: rest => some ({ ignored0 := b0.extractLsb' 0 5, ignored1 := b1 }, rest)
  | _ => none

/-- A record read, or the rejection of one that does not fit. -/
def fits (wrap : α → LogRecord) : Option (α × List Byte) → Except RecordReject (LogRecord × List Byte)
  | some (r, rest) => .ok (wrap r, rest)
  | none => .error .truncated

/-- The record whose header is the first byte, and the bytes after it (R91): the kind first, then the length, then
the fields (R234). A reserved kind is read from its header alone (R178). -/
def decodeRecord : List Byte → Except RecordReject (LogRecord × List Byte)
  | [] => .error .noHeader
  | h :: rest =>
    match kindOf h with
    | .full => fits .full (decodeAbsolute (h :: rest))
    | .pointOfInterest => fits .pointOfInterest (decodeAbsolute (h :: rest))
    | .compact => fits .compact (decodeCompact (h :: rest))
    | .empty => fits .empty (decodeEmpty (h :: rest))
    | .reserved0 => .ok (.reserved0 (h.extractLsb' 0 5), rest)
    | .reserved1 => .ok (.reserved1 (h.extractLsb' 0 5), rest)
    | .reserved5 => .ok (.reserved5 (h.extractLsb' 0 5), rest)
    | .reserved6 => .ok (.reserved6 (h.extractLsb' 0 5), rest)

/-! ### Decoding a wire frame -/

/-- The five checks of DECODE (R124), in the order they are made. -/
inductive FrameCheck where
  | tooShort | startMarker | zeroLength | lengthMismatch | endMarker
  deriving DecidableEq, Repr

/-- The number `MalformedFrame` carries (R124, R220). -/
def FrameCheck.number : FrameCheck → Nat
  | .tooShort => 1
  | .startMarker => 2
  | .zeroLength => 3
  | .lengthMismatch => 4
  | .endMarker => 5

/-- The byte of a byte space at an offset (R9). Every use stands behind a bounds check; the value outside the space is
never read. -/
def byteAt (space : List Byte) (offset : Nat) : Byte := space.getD offset 0

/-- `MemRead(S, a, n) = S[a .. a+n-1]` (R9). -/
def memRead (space : List Byte) (offset n : Nat) : List Byte := (space.drop offset).take n

/-- The reading half of DECODE (R124): the checks in order, then identifier, body and checksum byte. -/
def decodeFrame (F : List Byte) : Except FrameCheck WireFrame :=
  let m := F.length
  let L := (be16 (byteAt F 2) (byteAt F 3)).toNat
  if m < 8 then .error .tooShort
  else if byteAt F 0 ≠ 0xA0 ∨ byteAt F 1 ≠ 0xA1 then .error .startMarker
  else if L = 0 then .error .zeroLength
  else if m ≠ L + 7 then .error .lengthMismatch
  else if byteAt F (m - 2) ≠ 0x0D ∨ byteAt F (m - 1) ≠ 0x0A then .error .endMarker
  else .ok { identifier := byteAt F 4, body := memRead F 5 (L - 1), checksum := byteAt F (4 + L) }

/-! ### Decoding a request -/

/-- Why a request is not taken. -/
inductive RequestReject where
  /-- PARSE of a block longer than `2^32 - 1` bytes: "refused by type" (R53, D11). -/
  | blockTooLong
  deriving DecidableEq, Repr

/-- The operation a request asks for (R80): codes 0 to 7, and 8 to 15 reserved. -/
def decodeRequest (q : Request) : Except RequestReject Instr :=
  match q.op.toNat with
  | 0 => .ok (.encode q.id q.data)
  | 1 => .ok (.decode q.data)
  | 2 => .ok (.append q.data)
  | 3 => .ok .extractFrame
  | 4 => .ok (.extractBytes q.count)
  | 5 => .ok .cancel
  | 6 => .ok .clear
  | 7 => if q.data.length < Config.blockBound then .ok (.parse q.data) else .error .blockTooLong
  | _ => .ok (.reservedOp (q.op.extractLsb' 0 3))

/-! ### The three code spaces together -/

/-- An instruction's encoding, in the code space its table row belongs to (30_encoding.md, opening). -/
inductive Encoded where
  /-- Formats OP: a request at the command port. -/
  | port (q : Request)
  /-- Formats REC18, REC8, REC2, REC?: a record of a raw log block. -/
  | record (bytes : List Byte)
  /-- Format FRAME: the bytes of a wire frame. -/
  | wire (bytes : List Byte)
  deriving DecidableEq, Repr

/-- Why an encoding is rejected. -/
inductive Reject where
  | request (r : RequestReject)
  | record (r : RecordReject)
  /-- Bytes are left after the one record. -/
  | trailing
  | wire (r : FrameCheck)
  deriving DecidableEq, Repr

/-- The instruction an encoding stands for: total, rejecting by name. -/
def decode : Encoded → Except Reject Instr
  | .port q =>
    match decodeRequest q with
    | .ok i => .ok i
    | .error r => .error (.request r)
  | .record bytes =>
    match decodeRecord bytes with
    | .ok (r, []) => .ok r.toInstr
    | .ok (_, _ :: _) => .error .trailing
    | .error r => .error (.record r)
  | .wire bytes =>
    match decodeFrame bytes with
    | .ok f => .ok (.frame f)
    | .error r => .error (.wire r)

/-! ### Encoding -/

/-- A request with the operand lanes it does not use at 0. -/
def request (op : BitVec 4) (id : Byte := 0) (count : BitVec 32 := 0) (data : List Byte := []) : Request :=
  { op := op, id := id, count := count, data := data }

/-- The four bytes of a coordinate in block order (R98). -/
def encodeMe32 (v : Word32) : List Byte :=
  [v.extractLsb' 8 8, v.extractLsb' 0 8, v.extractLsb' 24 8, v.extractLsb' 16 8]

/-- The 18 bytes of a FULL or POINT_OF_INTEREST record (R95). -/
def encodeAbsolute (kind : BitVec 3) (r : AbsoluteRecord) : List Byte :=
  [ kind ++ r.ignored0 ++ r.velocity.extractLsb' 8 2,
    r.velocity.extractLsb' 0 8,
    r.tow.extractLsb' 0 4 ++ r.ignored2 ++ r.week.extractLsb' 8 2,
    r.week.extractLsb' 0 8,
    r.tow.extractLsb' 12 8,
    r.tow.extractLsb' 4 8 ] ++ encodeMe32 r.x ++ encodeMe32 r.y ++ encodeMe32 r.z

/-- The 8 bytes of a COMPACT record (R100). -/
def encodeCompact (r : CompactRecord) : List Byte :=
  [ 4#3 ++ r.ignored0 ++ r.velocity.extractLsb' 8 2,
    r.velocity.extractLsb' 0 8,
    hi8 r.dt,
    lo8 r.dt,
    r.rdx.extractLsb' 2 8,
    r.rdx.extractLsb' 0 2 ++ r.rdy.extractLsb' 4 6,
    r.rdy.extractLsb' 0 4 ++ r.ignored6 ++ r.rdz.extractLsb' 8 2,
    r.rdz.extractLsb' 0 8 ]

/-- The 2 bytes of an EMPTY record (R104). -/
def encodeEmpty (r : EmptyRecord) : List Byte := [7#3 ++ r.ignored0, r.ignored1]

/-- The bytes of a log record; of a reserved kind the header alone. -/
def encodeRecord : LogRecord → List Byte
  | .full r => encodeAbsolute 2#3 r
  | .pointOfInterest r => encodeAbsolute 3#3 r
  | .compact r => encodeCompact r
  | .empty r => encodeEmpty r
  | .reserved0 low => [0#3 ++ low]
  | .reserved1 low => [1#3 ++ low]
  | .reserved5 low => [5#3 ++ low]
  | .reserved6 low => [6#3 ++ low]

/-- The bytes of a wire frame (R82, R56), `n + 8` of them; the length field is `1 + n`, big-endian (R84). -/
def encodeFrame (f : WireFrame) : List Byte :=
  let L := BitVec.ofNat 16 (1 + f.body.length)
  Config.startMarker ++ [hi8 L, lo8 L] ++ [f.identifier] ++ f.body ++ [f.checksum] ++ Config.endMarker

/-- The encoding of an instruction, for well-formed ones. -/
def encode : Instr → Encoded
  | .encode id body => .port (request 0 (id := id) (data := body))
  | .decode frame => .port (request 1 (data := frame))
  | .append chunk => .port (request 2 (data := chunk))
  | .extractFrame => .port (request 3)
  | .extractBytes count => .port (request 4 (count := count))
  | .cancel => .port (request 5)
  | .clear => .port (request 6)
  | .parse block => .port (request 7 (data := block))
  | .reservedOp low => .port (request (1#1 ++ low))
  | .full r => .record (encodeRecord (.full r))
  | .pointOfInterest r => .record (encodeRecord (.pointOfInterest r))
  | .compact r => .record (encodeRecord (.compact r))
  | .empty r => .record (encodeRecord (.empty r))
  | .reservedKind0 low => .record (encodeRecord (.reserved0 low))
  | .reservedKind1 low => .record (encodeRecord (.reserved1 low))
  | .reservedKind5 low => .record (encodeRecord (.reserved5 low))
  | .reservedKind6 low => .record (encodeRecord (.reserved6 low))
  | .frame f => .wire (encodeFrame f)

/-! ### The words of spec/opcode_table.json -/

/-- The `n` lowest bytes of a number, the least significant first. -/
def lowBytes : Nat → Nat → List Byte
  | 0, _ => []
  | n + 1, w => BitVec.ofNat 8 w :: lowBytes n (w / 256)

/-- The encoding a table word stands for (log 8). The table numbers the select code from bit 0 of its own byte and a
record's kind at bits 7:5 of its first byte, so a word of one byte is read as a select code when its bits 7:4 are 0 and
as a record's first byte otherwise; the FRAME row gives its two marker bytes as the big-endian number `0xA0A1`, and the
fixed length and end marker of the shortest frame are completed, its operands 0. Operand bytes beyond the word are 0. -/
def tableEncoded (nbits w : Nat) : Encoded :=
  if nbits ≤ 8 ∧ w < 16 then .port (request (BitVec.ofNat 4 w))
  else if 16 ≤ nbits ∧ w = 0xA0A1 then .wire [0xA0, 0xA1, 0x00, 0x01, 0x00, 0x00, 0x0D, 0x0A]
  else .record (lowBytes ((kindOf (BitVec.ofNat 8 w)).size.getD 1) w)

/-- The instruction the decoder reads from a word of the opcode table. -/
def decodeTableWord (nbits w : Nat) : Option Instr :=
  match decode (tableEncoded nbits w) with
  | .ok i => some i
  | .error _ => none

end Sys2Proof
end

