-- ==== Sys2Proof/Machine/State.lean ====
section
/-! DEFINITION. The state of the block (10_state.md), its errors (60_exceptions.md R220), its responses (30_encoding.md
R81), the schedule of the agents' steps (20_memory.md R60), and reset (10_state.md R33, 70_reset_and_hazards.md R260). -/

namespace Sys2Proof.Machine

/-- A Position Fix Record, one element of OUT (R31). -/
structure Fix where
  isPointOfInterest : Bool
  velocity          : BitVec 10
  gpsWeek           : BitVec 10
  gpsTimeOfWeek     : Word32
  x                 : Word32
  y                 : Word32
  z                 : Word32
  deriving DecidableEq, Repr

/-- `pend`: the consumer operation suspended on the buffer (R27). -/
inductive Pend where
  | idle
  | waitFrame
  | waitBytes (count : BitVec Config.countWidth)
  deriving DecidableEq, Repr

/-- The error kinds with the information each carries (R220). The last two are the Session's: no operation of the
block raises them (R208, R222). -/
inductive Err where
  | lengthOverflow (bodyLength : Nat)
  | malformedFrame (check : FrameCheck)
  | decodeTruncated (cursor : Word32)
  | decodeNoPredecessor (cursor : Word32)
  | decodeReservedHeader (cursor : Word32)
  | bufferOverflow
  | closed
  | busy
  | illegalOperation (op : BitVec 4)
  | protocolViolation
  | transportFailure
  deriving DecidableEq, Repr

/-- A response (R81): an operation's result (R80) or one error. -/
inductive Response where
  /-- ENCODE: the frame bytes. -/
  | encoded (frame : List Byte)
  /-- DECODE: the Decoded Message. -/
  | decoded (identifier : Byte) (body : List Byte) (checksumValid : Bool)
  /-- EXTRACT_FRAME: the frame bytes. -/
  | frame (bytes : List Byte)
  /-- EXTRACT_BYTES: the byte run. -/
  | bytes (bytes : List Byte)
  /-- PARSE: the record sequence. -/
  | records (fixes : List Fix)
  /-- The error the operation ended with (R232). -/
  | error (e : Err)
  deriving DecidableEq, Repr

/-- The agents (R21). A label only: the block cannot tell them apart (R245, log 12). -/
inductive Agent where
  | producer | consumer | closer
  deriving DecidableEq, Repr

/-- One turn of the schedule (R60, log 2). -/
inductive Turn where
  /-- An agent puts a request on the command port (R81). -/
  | request (agent : Agent) (q : Request)
  /-- The consumer takes the completion step of the pending extraction, if it is enabled (R143). -/
  | complete
  /-- The block is reset (R260, log 9). -/
  | reset
  deriving DecidableEq, Repr

/-- The state of the block: every piece 10_state.md names, the command port and the schedule. -/
structure State where
  /-- BUF, head first (R26). -/
  buf       : List Byte
  /-- The suspended extraction (R27). -/
  pend      : Pend
  /-- CANCEL has happened (R27). -/
  closed    : Bool
  /-- An APPEND was refused (R28). -/
  overflow  : Bool
  /-- BUF_CAP, `none` for INF (R8): fixed when the block is built, no step changes it (log 5). -/
  bufCap    : Option Nat
  /-- The checksum accumulator (R20, R120). -/
  chk       : Byte
  /-- Offset of the record header in BLK (R24). -/
  cursor    : BitVec Config.cursorWidth
  /-- A record has been emitted in this pass (R22). -/
  prevValid : Bool
  /-- The predecessor's GPS week (R22). -/
  prevWeek  : BitVec 10
  /-- The predecessor's time of week (R22). -/
  prevTow   : Word32
  /-- The predecessor's x (R22). -/
  prevX     : Word32
  /-- The predecessor's y (R22). -/
  prevY     : Word32
  /-- The predecessor's z (R22). -/
  prevZ     : Word32
  /-- FRM_IN, the bytes given to DECODE (R30). -/
  frmIn     : List Byte
  /-- FRM_OUT, the bytes ENCODE produced (R30). -/
  frmOut    : List Byte
  /-- BLK, the raw log block given to PARSE (R30). -/
  blk       : List Byte
  /-- OUT, the record sequence of this pass (R30). -/
  out       : List Fix
  /-- The response port: what the last operation answered, if it answered (R81, log 7). -/
  resp      : Option Response
  /-- The agents' steps still to come (R60, log 2). -/
  turns     : List Turn
  deriving DecidableEq, Repr

/-- The block after reset (R33, R260). `chk` and the five `prev_*` data registers are unspecified there: DESIGN CHOICE 0
(log 4). The operand and result spaces, the port and the schedule are not in the table: DESIGN CHOICE empty (logs 2, 6,
7). `bufCap` is the spec's default INF (log 5). -/
def State.reset : State :=
  { buf := [], pend := .idle, closed := false, overflow := false, bufCap := none
    chk := 0, cursor := 0, prevValid := false
    prevWeek := 0, prevTow := 0, prevX := 0, prevY := 0, prevZ := 0
    frmIn := [], frmOut := [], blk := [], out := [], resp := none, turns := [] }

/-- Why the machine stops. The block itself never stops: its errors are responses (R232). Both reasons are operands
the spec says do not exist. -/
inductive Fault where
  /-- Raised by `execParse` on a block with bytes outside BLK's address space, `2^32 - 1` bytes (R30, R53). Safe. -/
  | outsideBlk
  /-- Raised by `execFrame` on a frame whose body the 16-bit length field cannot count (R7, R84): no wire frame carries
  it. Safe. -/
  | noSuchFrame
  deriving DecidableEq, Repr

/-- Why the machine does not take what it is given. -/
inductive Refusal where
  /-- Raised by `exec` for an instruction without a meaning, by its mnemonic. Safe. -/
  | notModelled (mnemonic : String)
  /-- Raised by `step` on a request the decoder rejects (D11). Safe. -/
  | badRequest (r : RequestReject)
  deriving DecidableEq, Repr

end Sys2Proof.Machine
end

