-- ==== Sys2Proof/Machine/Flags.lean ====
section
/-! DEFINITION. The computed bits: the XOR checksum and `checksumValid` (40_frame_codec.md R120, R124), the STATUS view
(10_state.md R29), and the numbers of the error table (60_exceptions.md R220). -/

namespace Sys2Proof.Machine

/-- `xorfold(s)`, 0 for the empty string (R9). -/
def xorfold : List Byte → Byte
  | [] => 0
  | b :: s => b ^^^ xorfold s

/-- The loop of `CHK` (R120): fold every byte into the accumulator, first byte first. -/
def chkLoop : Byte → List Byte → Byte
  | chk, [] => chk
  | chk, b :: s => chkLoop (chk ^^^ b) s

/-- `CHK(id, body)` (R120): the accumulator starts at the identifier. -/
def chkOf (id : Byte) (body : List Byte) : Byte := chkLoop id body

/-- `checksumValid`: the received checksum byte against the computed one (R124, R125). -/
def checksumValid (f : WireFrame) : Bool := f.checksum == chkOf f.identifier f.body

/-- The PEND field of STATUS (R29). -/
def Pend.code : Pend → BitVec 2
  | .idle => 0
  | .waitFrame => 1
  | .waitBytes _ => 2

/-- The STATUS view (R29): bits 7:5 read 0, then NONEMPTY, OVERFLOW, CLOSED, PEND. Reading it changes nothing. -/
def State.status (s : State) : Byte :=
  0#3 ++ BitVec.ofBool (!s.buf.isEmpty) ++ BitVec.ofBool s.overflow ++ BitVec.ofBool s.closed ++ s.pend.code

/-- The error codes of R220; code 0 is success. -/
def Err.code : Err → Nat
  | .lengthOverflow _ => 1
  | .malformedFrame _ => 2
  | .decodeTruncated _ => 3
  | .decodeNoPredecessor _ => 4
  | .decodeReservedHeader _ => 5
  | .bufferOverflow => 6
  | .closed => 7
  | .busy => 8
  | .illegalOperation _ => 9
  | .protocolViolation => 10
  | .transportFailure => 11

/-- The information an error carries (R220). -/
def Err.info : Err → Option Nat
  | .lengthOverflow n => some n
  | .malformedFrame check => some check.number
  | .decodeTruncated cursor => some cursor.toNat
  | .decodeNoPredecessor cursor => some cursor.toNat
  | .decodeReservedHeader cursor => some cursor.toNat
  | .bufferOverflow => none
  | .closed => none
  | .busy => none
  | .illegalOperation op => some op.toNat
  | .protocolViolation => none
  | .transportFailure => none

end Sys2Proof.Machine
end

