-- ==== Sys2Proof/Machine/Operands.lean ====
section
/-! DEFINITION. How the buffer's bytes are cut into operands (41_reassembly_buffer.md R144, R145), and the address
spaces read byte by byte (10_state.md R30). -/

namespace Sys2Proof.Machine

/-- `FIND_END(s)`: the least index of `0D 0A`, or none (R144). -/
def findEnd : List Byte → Option Nat
  | a :: b :: s => if a = 0x0D ∧ b = 0x0A then some 0 else (findEnd (b :: s)).map (· + 1)
  | _ => none

/-- The candidate begins with the start marker at offset 0 (R145). -/
def startsFrame (cand : List Byte) : Bool := cand.take 2 == Config.startMarker

/-- The loop of SCAN (R145) with a bound on its turns. -/
def scanLoop : Nat → List Byte → Option (List Byte) × List Byte
  | 0, s => (none, s)
  | n + 1, s =>
    match findEnd s with
    | none => (none, s)
    | some k => if startsFrame (s.take (k + 2)) then (some (s.take (k + 2)), s.drop (k + 2)) else scanLoop n (s.drop (k + 2))

/-- `SCAN(s)`: the frame, or none, and the remaining bytes (R145). A turn removes at least two bytes, so `len(s)` turns
are enough. -/
def scan (s : List Byte) : Option (List Byte) × List Byte := scanLoop s.length s

/-- The four byte spaces (R30). -/
inductive Space where
  | buf | frmIn | frmOut | blk
  deriving DecidableEq, Repr

/-- The contents of a byte space, offset 0 first. -/
def State.bytesOf (s : State) : Space → List Byte
  | .buf => s.buf
  | .frmIn => s.frmIn
  | .frmOut => s.frmOut
  | .blk => s.blk

/-- One byte of a space; none at an offset the space does not have. -/
def State.readByte (s : State) (space : Space) (offset : Nat) : Option Byte := (s.bytesOf space)[offset]?

/-- A byte space as (address, byte) pairs, addresses rising from 0 (log 1). -/
def cellsFrom : Nat → List Byte → List Host.Cell
  | _, [] => []
  | a, b :: s => (a, b) :: cellsFrom (a + 1) s

/-- The cells of a byte space of the state. -/
def State.cells (s : State) (space : Space) : List Host.Cell := cellsFrom 0 (s.bytesOf space)

/-- The size limits of the spaces (R30, R53): BUF within BUF_CAP, BLK below `2^32`, FRM_OUT not written yet or a whole
frame of 8 to 65542 bytes. A byte string has one spelling, so this is all that a canonical memory asks (log 1). -/
def Memory.wf (s : State) : Bool :=
  (match s.bufCap with | none => true | some cap => decide (s.buf.length ≤ cap)) &&
  decide (s.blk.length < Config.blockBound) &&
  (s.frmOut.isEmpty || (decide (8 ≤ s.frmOut.length) && decide (s.frmOut.length ≤ 65542)))

end Sys2Proof.Machine
end

