-- ==== Sys2Proof/Machine/Ops.lean ====
section
/-! DEFINITION. The named operations every meaning is built from: answering, raising an error, the buffer's tail and
head, and the record decoder's registers. -/

namespace Sys2Proof.Machine

/-! ### Answering -/

/-- The response port takes an operation's answer; `none` for an operation without a response or still waiting (R81). -/
def State.answer (r : Option Response) (s : State) : State := { s with resp := r }

/-- TAKING AN ERROR (R232): the operation ends, its response is the error and nothing else, and control goes nowhere;
the block takes the next operation as after a success (R233). What state the error leaves is the state it is raised in. -/
def State.raise (e : Err) (s : State) : State := s.answer (some (.error e))

/-! ### The buffer -/

/-- Whether a chunk fits under BUF_CAP (R141); everything fits under INF. -/
def State.hasRoom (s : State) (chunk : List Byte) : Bool :=
  match s.bufCap with
  | none => true
  | some cap => decide (s.buf.length + chunk.length ≤ cap)

/-- `BufAppend(s)`: BUF <- BUF ++ s (R9). -/
def State.bufAppend (chunk : List Byte) (s : State) : State := { s with buf := s.buf ++ chunk }

/-- `BufTake(n)`, the removal: BUF <- BUF[n ..] (R9). The bytes taken are `s.buf.take n`. -/
def State.bufDrop (n : Nat) (s : State) : State := { s with buf := s.buf.drop n }

/-- BUF holds what a scan left (R146). -/
def State.setBuf (rest : List Byte) (s : State) : State := { s with buf := rest }

/-- `pend <- p` (R27). -/
def State.setPend (p : Pend) (s : State) : State := { s with pend := p }

/-- The end of a pass of an extraction that has no data (R146, R150): BufferOverflow, then Closed, else it waits. -/
def State.waitOrFail (p : Pend) (s : State) : State :=
  if s.overflow then (s.setPend .idle).raise .bufferOverflow
  else if s.closed then (s.setPend .idle).raise .closed
  else (s.setPend p).answer none

/-- One pass of EXTRACT_FRAME's loop, from SCAN to the wait, one atomic step (R146, D20). -/
def State.framePass (s : State) : State :=
  match scan s.buf with
  | (some f, rest) => ((s.setBuf rest).setPend .idle).answer (some (.frame f))
  | (none, rest) => (s.setBuf rest).waitOrFail .waitFrame

/-- One pass of EXTRACT_BYTES' loop (R150): nothing is removed while it waits. -/
def State.bytesPass (count : BitVec Config.countWidth) (s : State) : State :=
  if count.toNat ≤ s.buf.length then
    ((s.bufDrop count.toNat).setPend .idle).answer (some (.bytes (s.buf.take count.toNat)))
  else s.waitOrFail (.waitBytes count)

/-- Whether the completion step of the pending extraction is enabled: the `wait until` conditions (R143, R146, R150). -/
def State.canComplete (s : State) : Bool :=
  match s.pend with
  | .idle => false
  | .waitFrame => (findEnd s.buf).isSome || s.overflow || s.closed
  | .waitBytes count => decide (count.toNat ≤ s.buf.length) || s.overflow || s.closed

/-- The completion step (R143): one more pass of the pending operation's loop where it is enabled; where it is not, the
operation is held and nothing happens (R149, row WAIT). -/
def State.complete (s : State) : State :=
  if s.canComplete then
    match s.pend with
    | .idle => s
    | .waitFrame => s.framePass
    | .waitBytes count => s.bytesPass count
  else s

/-! ### The record decoder -/

/-- The start of a pass: cursor <- 0; prev_valid <- 0; OUT <- [] (R171, R261). -/
def State.startPass (s : State) : State := { s with cursor := 0, prevValid := false, out := [] }

/-- Emitting a record (R174 to R176): it joins OUT and becomes the predecessor (R22). -/
def State.emit (f : Fix) (s : State) : State :=
  { s with
    out := s.out ++ [f]
    prevWeek := f.gpsWeek, prevTow := f.gpsTimeOfWeek
    prevX := f.x, prevY := f.y, prevZ := f.z
    prevValid := true }

/-- `cursor <- cursor + size` (R171). -/
def State.advance (size : Nat) (s : State) : State := { s with cursor := s.cursor + BitVec.ofNat _ size }

/-- The fix an absolute record gives (R174, R175): `tow` zero-extended to 32 bits. -/
def absoluteFix (poi : Bool) (r : AbsoluteRecord) : Fix :=
  { isPointOfInterest := poi, velocity := r.velocity, gpsWeek := r.week
    gpsTimeOfWeek := r.tow.setWidth 32, x := r.x, y := r.y, z := r.z }

/-- The fix a COMPACT record gives against the predecessor (R176): 32-bit wrap, no carry into the week (R180). -/
def compactFix (r : CompactRecord) (s : State) : Fix :=
  { isPointOfInterest := false, velocity := r.velocity, gpsWeek := s.prevWeek
    gpsTimeOfWeek := s.prevTow + r.dt.setWidth 32
    x := s.prevX + sext10 r.rdx, y := s.prevY + sext10 r.rdy, z := s.prevZ + sext10 r.rdz }

/-- The bounds check of a whole record before any of its fields is used (R54, R173): `cursor + size > N`. -/
def State.pastEnd (s : State) (N size : Nat) : Bool := decide (N < s.cursor.toNat + size)

/-- One absolute record of a block of `N` bytes: fit, emit, advance (R171, R174, R175). -/
def absoluteStep (N : Nat) (poi : Bool) (r : AbsoluteRecord) (s : State) : Except Err State :=
  if s.pastEnd N Config.absoluteSize then .error (.decodeTruncated s.cursor)
  else .ok ((s.emit (absoluteFix poi r)).advance Config.absoluteSize)

/-- One COMPACT record: fit, predecessor, emit, advance (R171, R176, R179). The emission writes `prev_week` and
`prev_valid` with the values they have. -/
def compactStep (N : Nat) (r : CompactRecord) (s : State) : Except Err State :=
  if s.pastEnd N Config.compactSize then .error (.decodeTruncated s.cursor)
  else if s.prevValid then .ok ((s.emit (compactFix r s)).advance Config.compactSize)
  else .error (.decodeNoPredecessor s.cursor)

/-- One EMPTY record: fit, advance, nothing else (R177). -/
def emptyStep (N : Nat) (s : State) : Except Err State :=
  if s.pastEnd N Config.emptySize then .error (.decodeTruncated s.cursor)
  else .ok (s.advance Config.emptySize)

/-- A record of a reserved kind (R178). -/
def reservedStep (s : State) : Except Err State := .error (.decodeReservedHeader s.cursor)

/-- A record step as an instruction of its own: a pass that meets an error ends there with the error (R172, R232). -/
def recordOutcome (s : State) : Except Err State → Host.Outcome State Fault Refusal
  | .ok t => .next t
  | .error e => .next (s.raise e)

end Sys2Proof.Machine
end

