-- ==== Sys2Proof/Machine/Buffer.lean ====
section
/-! DEFINITION. The reassembly buffer (41_reassembly_buffer.md): APPEND, EXTRACT_FRAME, EXTRACT_BYTES, CANCEL, CLEAR, and
the reserved select codes of the command port. -/

namespace Sys2Proof.Machine

/-- APPEND (R141, R142): the chunk joins the tail, or is dropped whole and `overflow` is set. No response, never waits. -/
def execAppend (chunk : List Byte) (s : State) : Host.Outcome State Fault Refusal :=
  if s.hasRoom chunk then .next ((s.bufAppend chunk).answer none)
  else .next ({ s with overflow := true }.answer none)

/-- EXTRACT_FRAME (R146): Busy while an extraction is pending (R152), else one pass of its loop. -/
def execExtractFrame (s : State) : Host.Outcome State Fault Refusal :=
  if s.pend ≠ .idle then .next (s.raise .busy) else .next s.framePass

/-- EXTRACT_BYTES (R150): Busy while an extraction is pending (R152), else one pass of its loop. -/
def execExtractBytes (count : BitVec Config.countWidth) (s : State) : Host.Outcome State Fault Refusal :=
  if s.pend ≠ .idle then .next (s.raise .busy) else .next (s.bytesPass count)

/-- CANCEL (R154): `closed` is set, whatever is pending; BUF is not touched. No response. -/
def execCancel (s : State) : Host.Outcome State Fault Refusal :=
  .next ({ s with closed := true }.answer none)

/-- CLEAR (R156): Busy while an extraction is pending, else BUF is emptied and both flags are cleared. -/
def execClear (s : State) : Host.Outcome State Fault Refusal :=
  if s.pend ≠ .idle then .next (s.raise .busy)
  else .next ({ s with buf := [], closed := false, overflow := false }.answer none)

/-- Select codes 8 to 15 (R80): IllegalOperation with the code, nothing changed (R232). -/
def execReservedOp (low : BitVec 3) (s : State) : Host.Outcome State Fault Refusal :=
  .next (s.raise (.illegalOperation (1#1 ++ low)))

end Sys2Proof.Machine
end

