-- ==== Sys2Proof/Machine/Codec.lean ====
section
/-! DEFINITION. The frame codec (40_frame_codec.md): ENCODE, DECODE and the wire frame. -/

namespace Sys2Proof.Machine

/-- ENCODE (R121, R122): LengthOverflow before any byte is produced, else the frame, on FRM_OUT and as the response.
The accumulator is left at the checksum, where it is dead (log 10). -/
def execEncode (id : Byte) (body : List Byte) (s : State) : Host.Outcome State Fault Refusal :=
  if body.length > Config.maxBody then .next (s.raise (.lengthOverflow body.length))
  else
    let chk := chkOf id body
    let frame := encodeFrame { identifier := id, body := body, checksum := chk }
    .next ({ s with chk := chk, frmOut := frame }.answer (some (.encoded frame)))

/-- Delivering a frame whose bytes passed the checks (R124, R125): identifier and body in full, `checksumValid` as data. -/
def State.deliverMessage (f : WireFrame) (s : State) : State :=
  { s with chk := chkOf f.identifier f.body }.answer (some (.decoded f.identifier f.body (checksumValid f)))

/-- DECODE (R124): the first check that fails is reported, with nothing changed (R232); else the message. -/
def execDecode (frame : List Byte) (s : State) : Host.Outcome State Fault Refusal :=
  match decodeFrame frame with
  | .error check => .next (s.raise (.malformedFrame check))
  | .ok f => .next (s.deliverMessage f)

/-- FRAME (R82, log 15): what DECODE gives on the frame's bytes. A body the length field cannot count is no frame. -/
def execFrame (f : WireFrame) (s : State) : Host.Outcome State Fault Refusal :=
  if f.wellFormed then .next (s.deliverMessage f) else .fault .noSuchFrame

end Sys2Proof.Machine
end

