-- ==== Sys2Proof/Machine/Parse.lean ====
section
/-! DEFINITION. PARSE (42_record_decoder.md R170 to R173): the pass over a raw log block, one atomic step. -/

namespace Sys2Proof.Machine

/-- The step of a record's kind in a block of `N` bytes (R171). -/
def recordStep (N : Nat) (r : LogRecord) (s : State) : Except Err State :=
  match r with
  | .full r => absoluteStep N false r s
  | .pointOfInterest r => absoluteStep N true r s
  | .compact r => compactStep N r s
  | .empty _ => emptyStep N s
  | .reserved0 _ => reservedStep s
  | .reserved1 _ => reservedStep s
  | .reserved5 _ => reservedStep s
  | .reserved6 _ => reservedStep s

/-- The end of a pass: OUT is the response (R171). -/
def State.finishPass (s : State) : State := s.answer (some (.records s.out))

/-- The loop of PARSE (R171) over the bytes from the cursor on, with a bound on its turns. A record whose bytes are not
all there is DecodeTruncated (R173); an error ends the pass and delivers no records (R172). -/
def parseLoop (N : Nat) : Nat → List Byte → State → State
  | 0, _, s => s.finishPass
  | _ + 1, [], s => s.finishPass
  | turns + 1, b :: rest, s =>
    match decodeRecord (b :: rest) with
    | .error _ => s.raise (.decodeTruncated s.cursor)
    | .ok (r, after) =>
      match recordStep N r s with
      | .error e => s.raise e
      | .ok t => parseLoop N turns after t

/-- PARSE (R171). A turn consumes at least two bytes, so `N` turns are enough. A block longer than `2^32 - 1` bytes is
outside BLK (R53). -/
def execParse (block : List Byte) (s : State) : Host.Outcome State Fault Refusal :=
  if block.length < Config.blockBound then .next (parseLoop block.length block.length block s.startPass)
  else .fault .outsideBlk

end Sys2Proof.Machine
end

