-- ==== Sys2Proof/Machine/Records.lean ====
section
/-! DEFINITION. The log records as instructions (42_record_decoder.md R174 to R179): each is one turn of PARSE's loop at
the state's cursor over the state's block, with the tests R171 makes at that record (log 15). -/

namespace Sys2Proof.Machine

/-- FULL (R174). -/
def execFull (r : AbsoluteRecord) (s : State) : Host.Outcome State Fault Refusal :=
  recordOutcome s (absoluteStep s.blk.length false r s)

/-- POINT_OF_INTEREST (R175). -/
def execPointOfInterest (r : AbsoluteRecord) (s : State) : Host.Outcome State Fault Refusal :=
  recordOutcome s (absoluteStep s.blk.length true r s)

/-- COMPACT (R176, R179). -/
def execCompact (r : CompactRecord) (s : State) : Host.Outcome State Fault Refusal :=
  recordOutcome s (compactStep s.blk.length r s)

/-- EMPTY (R177): no bit of the record has an effect (R105). -/
def execEmpty (_r : EmptyRecord) (s : State) : Host.Outcome State Fault Refusal :=
  recordOutcome s (emptyStep s.blk.length s)

/-- RESERVED_KIND_0 (R178). -/
def execReservedKind0 (_low : BitVec 5) (s : State) : Host.Outcome State Fault Refusal :=
  recordOutcome s (reservedStep s)

/-- RESERVED_KIND_1 (R178). -/
def execReservedKind1 (_low : BitVec 5) (s : State) : Host.Outcome State Fault Refusal :=
  recordOutcome s (reservedStep s)

/-- RESERVED_KIND_5 (R178). -/
def execReservedKind5 (_low : BitVec 5) (s : State) : Host.Outcome State Fault Refusal :=
  recordOutcome s (reservedStep s)

/-- RESERVED_KIND_6 (R178). -/
def execReservedKind6 (_low : BitVec 5) (s : State) : Host.Outcome State Fault Refusal :=
  recordOutcome s (reservedStep s)

end Sys2Proof.Machine
end

