-- ==== Sys2Proof/Machine/Dispatch.lean ====
section
/-! DEFINITION. The dispatch: one arm per constructor of Instr. -/

namespace Sys2Proof.Machine

def exec (i : Instr) (s : State) : Host.Outcome State Fault Refusal :=
  match i with
  | .encode id body => Sys2Proof.Machine.execEncode id body s
  | .decode frame => Sys2Proof.Machine.execDecode frame s
  | .append chunk => Sys2Proof.Machine.execAppend chunk s
  | .extractFrame => Sys2Proof.Machine.execExtractFrame s
  | .extractBytes count => Sys2Proof.Machine.execExtractBytes count s
  | .cancel => Sys2Proof.Machine.execCancel s
  | .clear => Sys2Proof.Machine.execClear s
  | .parse block => Sys2Proof.Machine.execParse block s
  | .reservedOp low => Sys2Proof.Machine.execReservedOp low s
  | .full r => Sys2Proof.Machine.execFull r s
  | .pointOfInterest r => Sys2Proof.Machine.execPointOfInterest r s
  | .compact r => Sys2Proof.Machine.execCompact r s
  | .empty r => Sys2Proof.Machine.execEmpty r s
  | .reservedKind0 low => Sys2Proof.Machine.execReservedKind0 low s
  | .reservedKind1 low => Sys2Proof.Machine.execReservedKind1 low s
  | .reservedKind5 low => Sys2Proof.Machine.execReservedKind5 low s
  | .reservedKind6 low => Sys2Proof.Machine.execReservedKind6 low s
  | .frame f => Sys2Proof.Machine.execFrame f s

end Sys2Proof.Machine
end

