-- ==== Sys2Proof/Machine/Port.lean ====
section
/-! DEFINITION. The command port (30_encoding.md R81): how a request's byte string reaches its operand space, what reset
does to the block, and how the host places a table word where the next step takes its request. -/

namespace Sys2Proof.Machine

/-- The request's byte string crosses the interface into the space the operation reads: FRM_IN for DECODE, BLK for PARSE
(R30, R81, log 6). No operation writes either. -/
def State.deliver (i : Instr) (s : State) : State :=
  match i with
  | .decode frame => { s with frmIn := frame }
  | .parse block => { s with blk := block }
  | .encode _ _ | .append _ | .extractFrame | .extractBytes _ | .cancel | .clear | .reservedOp _ => s
  | .full _ | .pointOfInterest _ | .compact _ | .empty _ => s
  | .reservedKind0 _ | .reservedKind1 _ | .reservedKind5 _ | .reservedKind6 _ | .frame _ => s

/-- The schedule after this turn. -/
def State.setTurns (rest : List Turn) (s : State) : State := { s with turns := rest }

/-- What happens when the schedule is empty: the only step there can be is the completion step, taken if it is enabled
(R275); else the block waits for an operation (R260, log 2). -/
def State.idleStep (s : State) : State := s.complete

/-- Reset of the block in mid-run (R260): everything but what is fixed when it is built and the schedule, which is the
outside world's (log 9). -/
def State.resetBlock (s : State) : State := { State.reset with bufCap := s.bufCap, turns := s.turns }

/-- The request that makes the next step run an encoding as its first instruction: the request itself, PARSE of a block
that begins with the record, DECODE of the frame (log 3). -/
def requestFor : Encoded → Request
  | .port q => q
  | .record bytes => request 7 (data := bytes)
  | .wire bytes => request 1 (data := bytes)

/-- The request is the first of the schedule. -/
def State.placeRequest (q : Request) (s : State) : State := { s with turns := .request .consumer q :: s.turns }

end Sys2Proof.Machine
end

