-- ==== Sys2Proof/Machine/Step.lean ====
section
/-! DEFINITION. One step of the block (20_memory.md R60): the next turn of the schedule, atomically. -/

namespace Sys2Proof.Machine

/-- The next turn. A request is decoded, its operand delivered, and executed; a completion turn is the consumer's; reset
re-creates the block. -/
def step (s : State) : Host.Outcome State Fault Refusal :=
  match s.turns with
  | [] => .next s.idleStep
  | .request _ q :: rest =>
    match decodeRequest q with
    | .ok i => exec i ((s.setTurns rest).deliver i)
    | .error r => .refused (.badRequest r)
  | .complete :: rest => .next (s.setTurns rest).complete
  | .reset :: rest => .next (s.setTurns rest).resetBlock

/-- The table's word placed as the next request (log 3). -/
def State.withFetchWord (s : State) (nbits w : Nat) : State :=
  s.placeRequest (requestFor (tableEncoded nbits w))

end Sys2Proof.Machine
end

