-- ==== Sys2Proof/Machine/FrameFsm.lean ====
section
/-! DEFINITION. The frame-extraction finite-state machine (41_reassembly_buffer.md R149), for an implementer who builds
EXTRACT_FRAME candidate by candidate. The machine's own EXTRACT_FRAME is one atomic step (R60, D20); this is its
refinement, and no step uses it. -/

namespace Sys2Proof.Machine

/-- The control states of R149; CHECK holds the candidate cut from the buffer. -/
inductive FsmControl where
  | idle
  | scan
  | check (cand : List Byte)
  | wait
  deriving DecidableEq, Repr

/-- The rows of R149 in state IDLE: EXTRACT_FRAME is requested. -/
def fsmRequest (s : State) : FsmControl × State :=
  if s.pend = .idle then (.scan, s) else (.idle, s.raise .busy)

/-- The other rows of R149, one transition each. IDLE has no transition of its own. -/
def fsmStep : FsmControl × State → FsmControl × State
  | (.idle, s) => (.idle, s)
  | (.scan, s) =>
    match findEnd s.buf with
    | some k => (.check (s.buf.take (k + 2)), s.bufDrop (k + 2))
    | none =>
      if s.overflow then (.idle, (s.setPend .idle).raise .bufferOverflow)
      else if s.closed then (.idle, (s.setPend .idle).raise .closed)
      else (.wait, (s.setPend .waitFrame).answer none)
  | (.check cand, s) =>
    if startsFrame cand then (.idle, (s.setPend .idle).answer (some (.frame cand))) else (.scan, s)
  | (.wait, s) =>
    if (findEnd s.buf).isSome || s.overflow || s.closed then (.scan, s) else (.wait, s)

/-- So many transitions. -/
def fsmRun : Nat → FsmControl × State → FsmControl × State
  | 0, c => c
  | n + 1, c => fsmRun n (fsmStep c)

end Sys2Proof.Machine
end

