-- ==== Sys2Proof/Machine/Session.lean ====
section
/-! DEFINITION. The Session (43_session_environment.md), the host that drives the block: environment, not part of it
(00_scope.md R4). It is modelled as a driver: what it asks of the block and of the transport next, and what each event
does to it. No step of the block uses it (log 14). -/

namespace Sys2Proof.Machine.Session

/-! ### Message identifiers (R200) -/

def idGetVersion : Byte := 0x02
def idVersionResponse : Byte := 0x80
def idGetStatus : Byte := 0x17
def idStatusResponse : Byte := 0x94
def idGetData : Byte := 0x1D
def idAck : Byte := 0x83
def idNack : Byte := 0x84

/-- The host procedures: the bare QUERY and the typed ones built on it (R203, R205, R206). -/
inductive Procedure where
  | query (id : Byte) (body : List Byte)
  | getVersion
  | getStatus
  | getData (startSector sectorCount : BitVec 16)
  deriving DecidableEq, Repr

/-- The identifier a procedure's request carries (R200). -/
def Procedure.id : Procedure → Byte
  | .query id _ => id
  | .getVersion => idGetVersion
  | .getStatus => idGetStatus
  | .getData _ _ => idGetData

/-- The body a procedure's request carries (R203, R205, R206): for GET_DATA two big-endian halfwords. -/
def Procedure.body : Procedure → List Byte
  | .query _ body => body
  | .getVersion => []
  | .getStatus => []
  | .getData startSector sectorCount => [hi8 startSector, lo8 startSector, hi8 sectorCount, lo8 sectorCount]

/-- The bytes GET_DATA keeps (R206). -/
def dataLength (sectorCount : BitVec 16) : Nat := sectorCount.toNat * Config.sectorSize

/-- The count GET_DATA asks EXTRACT_BYTES for: sectors and trailer (R206). -/
def dataCount (sectorCount : BitVec 16) : BitVec 32 := BitVec.ofNat 32 (dataLength sectorCount + Config.trailerLen)

/-! ### The bodies of the version and status responses (R205) -/

/-- The three bytes of a version string (R205). -/
structure Dotted where
  first  : Byte
  second : Byte
  third  : Byte
  deriving DecidableEq, Repr

/-- "three consecutive byte values joined by `.`" (R205), in decimal (DEDUCED, log 20). -/
def Dotted.text (d : Dotted) : String :=
  toString d.first.toNat ++ "." ++ toString d.second.toNat ++ "." ++ toString d.third.toNat

/-- The version string that begins at an offset of a body. -/
def dottedAt (body : List Byte) (k : Nat) : Dotted :=
  { first := body.getD k 0, second := body.getD (k + 1) 0, third := body.getD (k + 2) 0 }

/-- The software version (R205). -/
structure Version where
  kernel      : Dotted
  application : Dotted
  revision    : Dotted
  deriving DecidableEq, Repr

/-- The version a body of exactly 13 bytes holds (R205); where the strings stand is open (N11, log 20). -/
def versionOf (body : List Byte) : Option Version :=
  if body.length = Config.versionLength then
    some
      { kernel := dottedAt body Config.kernelAt
        application := dottedAt body Config.applicationAt
        revision := dottedAt body Config.revisionAt }
  else none

/-- A little-endian number (R205). DESIGN CHOICE (log 20): it is unsigned; the source says nothing of a sign (N10). -/
def leNat : List Byte → Nat
  | [] => 0
  | b :: bs => b.toNat + 256 * leNat bs

/-- A numeric field of a status body; none where the body ends before the field does. -/
def statusNumber (body : List Byte) (f : Config.StatusField) : Option Nat :=
  let (start, width) := Config.statusPlace f
  if start + width ≤ body.length then some (leNat ((body.drop start).take width)) else none

/-- The logger status (R205). Its numbers are unsigned (DESIGN CHOICE, log 20). "max/min recording time and distance/speed thresholds" is read as a maximum and a minimum
of each of the three (DEDUCED, log 20). -/
structure LoggerStatus where
  writePosition    : Nat
  secondsRemaining : Nat
  secondsTotal     : Nat
  maxTime          : Nat
  minTime          : Nat
  maxDistance      : Nat
  minDistance      : Nat
  maxSpeed         : Nat
  minSpeed         : Nat
  logging          : Bool
  fifoOverwrite    : Bool
  deriving DecidableEq, Repr

/-- The status a body holds (R205); the layout is open (N10, log 20). -/
def statusOf (body : List Byte) : Option LoggerStatus := do
  let writePosition ← statusNumber body .writePosition
  let secondsRemaining ← statusNumber body .secondsRemaining
  let secondsTotal ← statusNumber body .secondsTotal
  let maxTime ← statusNumber body .maxTime
  let minTime ← statusNumber body .minTime
  let maxDistance ← statusNumber body .maxDistance
  let minDistance ← statusNumber body .minDistance
  let maxSpeed ← statusNumber body .maxSpeed
  let minSpeed ← statusNumber body .minSpeed
  return {
    writePosition, secondsRemaining, secondsTotal, maxTime, minTime, maxDistance, minDistance, maxSpeed, minSpeed
    logging := Config.statusFlag .logging body, fifoOverwrite := Config.statusFlag .fifoOverwrite body }

/-! ### A procedure under way -/

/-- Where a procedure stands. `awaitingFirst` and `awaitingSecond` are the states of R204; a decoding phase holds the
frame it gives to DECODE. -/
inductive Phase where
  /-- ENCODE is asked for. -/
  | sending
  /-- The transport writes the frame's bytes; complete when they are flushed (R201). -/
  | writing (frame : List Byte)
  | awaitingFirst
  | decodingFirst (frame : List Byte)
  | awaitingSecond
  | decodingSecond (frame : List Byte)
  | awaitingReply
  | decodingReply (frame : List Byte)
  /-- The bulk payload of so many sectors is awaited (R206). -/
  | awaitingBulk (sectorCount : BitVec 16)
  /-- GET_DATA has returned the raw log block (R206), and PARSE of it is asked for (R202). -/
  | block (bytes : List Byte)
  /-- The end of the bulk data's flow: the final output sequence (R202). -/
  | records (fixes : List Fix)
  /-- QUERY succeeded. -/
  | done
  /-- GET_VERSION's result (R205). -/
  | version (v : Version)
  /-- GET_STATUS' result (R205). -/
  | status (st : LoggerStatus)
  | failed (e : Err)
  /-- A QUERY with identifier `0x00`, which R204 says the source does not treat and V10 refuses (log 18). -/
  | refused
  deriving DecidableEq, Repr

/-- The ends of a procedure: nothing is asked for and no event matters. -/
def Phase.over : Phase → Bool
  | .records _ | .done | .version _ | .status _ | .failed _ | .refused => true
  | .sending | .writing _ | .awaitingFirst | .decodingFirst _ | .awaitingSecond | .decodingSecond _ => false
  | .awaitingReply | .decodingReply _ | .awaitingBulk _ | .block _ => false

/-- A procedure under way. -/
structure Call where
  procedure : Procedure
  phase     : Phase
  deriving DecidableEq, Repr

/-- A procedure as it starts. DESIGN CHOICE (log 18): a QUERY whose identifier is `0x00`, for which the preliminary and
the matching test coincide (R204, V10), is refused before anything is sent. -/
def Call.start (p : Procedure) : Call :=
  { procedure := p, phase := if p.id = 0x00 then .refused else .sending }

/-- The request the consumer puts on the command port next (R202, R203, R206), if the block is what it waits for. -/
def Call.request (c : Call) : Option Request :=
  match c.phase with
  | .sending => some (Sys2Proof.request 0 (id := c.procedure.id) (data := c.procedure.body))
  | .awaitingFirst | .awaitingSecond | .awaitingReply => some (Sys2Proof.request 3)
  | .decodingFirst f | .decodingSecond f | .decodingReply f => some (Sys2Proof.request 1 (data := f))
  | .awaitingBulk sectorCount => some (Sys2Proof.request 4 (count := dataCount sectorCount))
  | .block d => some (Sys2Proof.request 7 (data := d))
  | .writing _ | .records _ | .done | .version _ | .status _ | .failed _ | .refused => none

/-- The bytes the transport is asked to write, `write(bytes) -> completion` (R201). -/
def Call.write (c : Call) : Option (List Byte) :=
  match c.phase with
  | .writing f => some f
  | .sending | .awaitingFirst | .decodingFirst _ | .awaitingSecond | .decodingSecond _ | .awaitingReply => none
  | .decodingReply _ | .awaitingBulk _ | .block _ | .records _ | .done | .version _ | .status _ => none
  | .failed _ | .refused => none

/-- A preliminary acknowledgement: ACK or NACK class with a zero first byte (R203, conflict C7). -/
def preliminary (id : Byte) (body : List Byte) : Bool :=
  (id == idAck || id == idNack) && body.head? == some 0x00

/-- The matching acknowledgement: an ACK whose first byte is the request's identifier (R203). -/
def matchingAck (requestId id : Byte) (body : List Byte) : Bool :=
  id == idAck && body.head? == some requestId

/-- After the matching acknowledgement (R205, R206): QUERY is done, the others take one thing more. -/
def Procedure.afterAck : Procedure → Phase
  | .query _ _ => .done
  | .getVersion => .awaitingReply
  | .getStatus => .awaitingReply
  | .getData _ sectorCount => .awaitingBulk sectorCount

/-- The second test of QUERY: the matching ACK, or ProtocolViolation (R203, R204). -/
def Procedure.judge (p : Procedure) (id : Byte) (body : List Byte) : Phase :=
  if matchingAck p.id id body then p.afterAck else .failed .protocolViolation

/-- The result of a reading, or ProtocolViolation where there is none: an unexpected body (R208). -/
def Phase.ofResult {α : Type} (result : α → Phase) : Option α → Phase
  | some a => result a
  | none => .failed .protocolViolation

/-- What the "one more frame" of GET_VERSION and GET_STATUS ends in (R205): the result if it has the identifier and the
body they expect, else ProtocolViolation (R208). The other procedures take no such frame. -/
def Procedure.replied (p : Procedure) (id : Byte) (body : List Byte) : Phase :=
  match p with
  | .getVersion => if id = idVersionResponse then .ofResult .version (versionOf body) else .failed .protocolViolation
  | .getStatus => if id = idStatusResponse then .ofResult .status (statusOf body) else .failed .protocolViolation
  | .query _ _ => .failed .protocolViolation
  | .getData _ _ => .failed .protocolViolation

/-- What an error does to a procedure. DESIGN CHOICE (log 14): MalformedFrame is one of the failure paths the source
leaves unsaid (N12), and ends in ProtocolViolation, the one outcome R204 leaves; every other error propagates (R208). -/
def errorPhase : Err → Phase
  | .malformedFrame _ => .failed .protocolViolation
  | e => .failed e

/-- Where a response of the block takes a procedure (R202 to R206). `checksumValid` does not block it (R125). An end stays
as it is. DESIGN CHOICE (log 19): a response that is no error and does not belong to the phase ends the procedure in
ProtocolViolation, "an explicit failure state rather than silently unresolved" (R204). -/
def Phase.onResponse (p : Procedure) : Phase → Response → Phase
  | .records fixes, _ => .records fixes
  | .done, _ => .done
  | .version v, _ => .version v
  | .status st, _ => .status st
  | .failed e, _ => .failed e
  | .refused, _ => .refused
  | _, .error e => errorPhase e
  | .sending, .encoded f => .writing f
  | .awaitingFirst, .frame f => .decodingFirst f
  | .decodingFirst _, .decoded id body _ => if preliminary id body then .awaitingSecond else p.judge id body
  | .awaitingSecond, .frame f => .decodingSecond f
  | .decodingSecond _, .decoded id body _ => p.judge id body
  | .awaitingReply, .frame f => .decodingReply f
  | .decodingReply _, .decoded id body _ => p.replied id body
  | .awaitingBulk sectorCount, .bytes d => .block (d.take (dataLength sectorCount))
  | .block _, .records fixes => .records fixes
  | _, _ => .failed .protocolViolation

/-- Where the transport's report that a write is complete, all bytes flushed, takes a procedure (R201): from the write to
its first frame. A report that no write asked for is an unexpected event like any other (log 19). -/
def Phase.onFlushed (phase : Phase) : Phase :=
  match phase with
  | .writing _ => .awaitingFirst
  | .records _ | .done | .version _ | .status _ | .failed _ | .refused => phase
  | .sending | .awaitingFirst | .decodingFirst _ | .awaitingSecond | .decodingSecond _ => .failed .protocolViolation
  | .awaitingReply | .decodingReply _ | .awaitingBulk _ | .block _ => .failed .protocolViolation

/-- A response of the block reaches the procedure. -/
def Call.receive (c : Call) (r : Response) : Call := { c with phase := c.phase.onResponse c.procedure r }

/-- The transport has written and flushed all bytes (R201). -/
def Call.flushed (c : Call) : Call := { c with phase := c.phase.onFlushed }

/-- The transport reports a write or connection error: it is propagated at once (R208), in every phase but an end. -/
def Call.transportFailed (c : Call) : Call :=
  { c with phase := if c.phase.over then c.phase else .failed .transportFailure }

end Sys2Proof.Machine.Session
end

