-- ==== Sys2Proof/Safety.lean ====
section
/-! DEFINITION. What holds in every reachable state, who may ask for what, and which errors belong to the block. -/

namespace Sys2Proof.Machine

/-- The predecessor registers agree with OUT (R22): `prev_valid` says whether this pass has emitted a record, and then
the `prev_*` registers hold the absolute week, time and coordinates of the record emitted last. -/
def State.predecessorHeld (s : State) : Bool :=
  match s.out.getLast? with
  | none => !s.prevValid
  | some f =>
    s.prevValid && s.prevWeek == f.gpsWeek && s.prevTow == f.gpsTimeOfWeek && s.prevX == f.x && s.prevY == f.y &&
      s.prevZ == f.z

/-- The block's invariant: the spaces keep their sizes (R53), the cursor stays inside the block (R24), no record took
less than 8 bytes of it (R182), the predecessor registers agree with OUT (R22), and `overflow` needs a finite BUF_CAP
(R28). -/
abbrev State.Inv (s : State) : Prop :=
  Memory.wf s = true ∧ s.cursor.toNat ≤ s.blk.length ∧ 8 * s.out.length ≤ s.cursor.toNat ∧
    s.predecessorHeld = true ∧ (s.overflow = true → s.bufCap ≠ none)

/-- Which agent may ask for an operation (R140); the records, the frame and the reserved codes are nobody's. -/
def allowed : Agent → Instr → Bool
  | .producer, .append _ => true
  | .closer, .cancel => true
  | .consumer, .encode _ _ => true
  | .consumer, .decode _ => true
  | .consumer, .extractFrame => true
  | .consumer, .extractBytes _ => true
  | .consumer, .clear => true
  | .consumer, .parse _ => true
  | _, _ => false

/-- A turn the host's conventions allow (R140, R207): the block does not check it (R245). -/
def Turn.lawful : Turn → Bool
  | .request agent q =>
    match decodeRequest q with
    | .ok i => allowed agent i
    | .error _ => false
  | .complete => true
  | .reset => true

/-- An error only the Session has (R208, R220): codes 10 and 11. -/
def Err.ofSession (e : Err) : Bool := decide (10 ≤ e.code)

/-- The response port shows no error that only the Session has. -/
def State.noSessionError (s : State) : Bool :=
  match s.resp with
  | some (.error e) => !e.ofSession
  | _ => true

/-- The bytes a request adds to the stream (R61): an APPEND's chunk if it is accepted. -/
def State.accepted (i : Instr) (s : State) : List Byte :=
  match i with
  | .append chunk => if s.hasRoom chunk then chunk else []
  | _ => []

/-- The pass of PARSE as a run of record instructions: fetch the record at the cursor, execute it, and go on while the
cursor moves (R24, R171). The bound is on the number of records. -/
def passRun : Nat → State → State
  | 0, s => s.finishPass
  | n + 1, s =>
    if s.cursor.toNat = s.blk.length then s.finishPass
    else
      match decodeRecord (s.blk.drop s.cursor.toNat) with
      | .error _ => s.raise (.decodeTruncated s.cursor)
      | .ok (r, _) =>
        match exec r.toInstr s with
        | .next t => if t.cursor = s.cursor then t else passRun n t
        | .fault _ => s
        | .refused _ => s

end Sys2Proof.Machine
end

