-- ==== Sys2Proof/Certificates/Slice0/Obligations.lean ====
section
/-! DEFINITION. The statements for the provers, each from the rules it names. First the words they are written in:
spec-level readings of bytes, candidates and record sequences that use no definition of the machine's meanings. -/

namespace Sys2Proof.Claims

open Sys2Proof.Machine

/-- The source's loop "`chk = identifier; for each body byte b: chk ^= b`" (R120). -/
def fold (id : Byte) (body : List Byte) : Byte := body.foldl (fun chk b => chk ^^^ b) id

/-- The bytes of a frame by the map of R56, its length field in Nat arithmetic. -/
def wire (id : Byte) (body : List Byte) (rx : Byte) : List Byte :=
  [0xA0, 0xA1, BitVec.ofNat 8 ((1 + body.length) / 256), BitVec.ofNat 8 ((1 + body.length) % 256), id] ++ body ++
    [rx, 0x0D, 0x0A]

/-- An end marker stands at offset `k`. -/
abbrev EndAt (s : List Byte) (k : Nat) : Prop := s[k]? = some 0x0D ∧ s[k + 1]? = some 0x0A

/-- No end marker stands anywhere. -/
abbrev NoEnd (s : List Byte) : Prop := ∀ k, k < s.length → ¬ EndAt s k

/-- Bytes that end with their only end marker: what one cut of SCAN takes (R144, R145). -/
abbrev Candidate (c : List Byte) : Prop :=
  2 ≤ c.length ∧ EndAt c (c.length - 2) ∧ ∀ k, k < c.length - 2 → ¬ EndAt c k

/-- The start marker stands at offset 0. -/
abbrev Starts (s : List Byte) : Prop := s[0]? = some 0xA0 ∧ s[1]? = some 0xA1

/-- Candidates that SCAN discards. -/
abbrev Garbage (gs : List (List Byte)) : Prop := ∀ g ∈ gs, Candidate g ∧ ¬ Starts g

/-- A chunk fits under BUF_CAP (R141). -/
abbrev Fits (s : State) (chunk : List Byte) : Prop := ∀ cap ∈ s.bufCap, s.buf.length + chunk.length ≤ cap

/-- Byte `k` of a record as a number. -/
def nb (b : List Byte) (k : Nat) : Nat := (b.getD k 0).toNat

/-- `s32(v)`: `v mod 2^32` read as signed (R9). -/
def s32 (v : Int) : Int := v.bmod (2 ^ 32)

/-- `me32(b, i)` in arithmetic (R98). -/
def me32At (b : List Byte) (i : Nat) : Int :=
  s32 (nb b (i + 2) * 2 ^ 24 + nb b (i + 3) * 2 ^ 16 + nb b i * 2 ^ 8 + nb b (i + 1))

/-- `sext_10(v)` in arithmetic (R103, conflict C2). -/
def sext (v : Nat) : Int := if 512 ≤ v then (v : Int) - 1024 else v

/-- The fix an absolute record stands for. -/
def absolute (poi : Bool) (r : AbsoluteRecord) : Fix :=
  { isPointOfInterest := poi, velocity := r.velocity, gpsWeek := r.week
    gpsTimeOfWeek := BitVec.ofNat 32 r.tow.toNat, x := r.x, y := r.y, z := r.z }

/-- The fix a COMPACT record stands for after the fix `p` (R176), in integer arithmetic modulo `2^32`. -/
def delta (p : Fix) (r : CompactRecord) : Fix :=
  { isPointOfInterest := false, velocity := r.velocity, gpsWeek := p.gpsWeek
    gpsTimeOfWeek := BitVec.ofNat 32 (p.gpsTimeOfWeek.toNat + r.dt.toNat)
    x := BitVec.ofInt 32 (p.x.toInt + sext r.rdx.toNat)
    y := BitVec.ofInt 32 (p.y.toInt + sext r.rdy.toNat)
    z := BitVec.ofInt 32 (p.z.toInt + sext r.rdz.toNat) }

/-- The fixes a record sequence stands for after an optional predecessor; none where the sequence has a reserved kind
or a COMPACT record without a predecessor. -/
def fixes : Option Fix → List LogRecord → Option (List Fix)
  | _, [] => some []
  | _, .full r :: rs => (fixes (some (absolute false r)) rs).map (absolute false r :: ·)
  | _, .pointOfInterest r :: rs => (fixes (some (absolute true r)) rs).map (absolute true r :: ·)
  | some p, .compact r :: rs => (fixes (some (delta p r)) rs).map (delta p r :: ·)
  | none, .compact _ :: _ => none
  | p, .empty _ :: rs => fixes p rs
  | _, .reserved0 _ :: _ => none
  | _, .reserved1 _ :: _ => none
  | _, .reserved5 _ :: _ => none
  | _, .reserved6 _ :: _ => none

/-- The bytes of a record sequence with nothing between (R91). -/
def blockOf (rs : List LogRecord) : List Byte := rs.flatMap encodeRecord

/-- Length of the kind a header byte names by its top three bits, none for a reserved kind (R92, R93), in arithmetic. -/
def sizeOfHeader (h : Byte) : Option Nat :=
  if h.toNat / 32 = 2 ∨ h.toNat / 32 = 3 then some 18
  else if h.toNat / 32 = 4 then some 8
  else if h.toNat / 32 = 7 then some 2
  else none

/-- What the next step adds to the accepted stream (R61). -/
def acceptedNow (s : State) : List Byte :=
  match s.turns with
  | .request _ q :: _ =>
    match decodeRequest q with
    | .ok i => s.accepted i
    | .error _ => []
  | _ => []

/-- What the next `n` steps add to the accepted stream. -/
def acceptedIn : Nat → State → List Byte
  | 0, _ => []
  | n + 1, s =>
    match step s with
    | .next t => acceptedNow s ++ acceptedIn n t
    | .fault _ => acceptedNow s
    | .refused _ => acceptedNow s

/-- An extraction is pending and chunks arrive one by one, the completion step tried after each: the answer it ends with,
if it ends, and the state at the end. -/
def feed : List (List Byte) → State → Option Response × State
  | [], s => (none, s)
  | c :: cs, s =>
    match exec (.append c) s with
    | .next t =>
      if t.pend = .idle then feed cs t
      else if t.complete.pend = .idle then (t.complete.resp, (feed cs t.complete).2)
      else feed cs t.complete
    | .fault _ => (none, s)
    | .refused _ => (none, s)

/-- An EXTRACT_FRAME returns `f`: at once, or by the completion turn of the pending one (R146). -/
abbrev Returns (s t : State) (f : List Byte) : Prop :=
  t.resp = some (.frame f) ∧
    (exec .extractFrame s = .next t ∨ s.pend = .waitFrame ∧ s.canComplete = true ∧ t = s.complete)

/-- An EXTRACT_BYTES returns `d`: at once, or by the completion turn of the pending one (R150). -/
abbrev ReturnsBytes (count : BitVec 32) (s t : State) (d : List Byte) : Prop :=
  t.resp = some (.bytes d) ∧
    (exec (.extractBytes count) s = .next t ∨ s.pend = .waitBytes count ∧ s.canComplete = true ∧ t = s.complete)

/-- The decoder's registers and spaces, which no codec or buffer operation writes. -/
abbrev SameDecoder (s t : State) : Prop :=
  t.cursor = s.cursor ∧ t.prevValid = s.prevValid ∧ t.prevWeek = s.prevWeek ∧ t.prevTow = s.prevTow ∧
    t.prevX = s.prevX ∧ t.prevY = s.prevY ∧ t.prevZ = s.prevZ ∧ t.blk = s.blk ∧ t.out = s.out

/-- The buffer's registers (R26 to R28). -/
abbrev SameBuffer (s t : State) : Prop :=
  t.buf = s.buf ∧ t.pend = s.pend ∧ t.closed = s.closed ∧ t.overflow = s.overflow ∧ t.bufCap = s.bufCap

/-- What an EXTRACT_FRAME that ends in an error leaves (R232): BUF without the candidates discarded and without an end
marker, pend IDLE, all else as it was. -/
abbrev LeavesFrames (s t : State) (e : Err) : Prop :=
  ∃ gs tail, Garbage gs ∧ NoEnd tail ∧ s.buf = gs.flatten ++ tail ∧
    t = { s with buf := tail, pend := .idle, resp := some (.error e) }

/-- What an EXTRACT_BYTES that ends in an error leaves (R232): BUF, which has fewer than `count` bytes, pend IDLE, all else
as it was. -/
abbrev LeavesBytes (count : BitVec 32) (s t : State) (e : Err) : Prop :=
  s.buf.length < count.toNat ∧ t = { s with pend := .idle, resp := some (.error e) }

end Sys2Proof.Claims

open Sys2Proof Sys2Proof.Machine Sys2Proof.Claims

/-! ### The frame codec -/

/-- R121, R122. The accumulator `chk` is dead after the operation, so its value is left open here. -/
def Obligations.EncodeGivesTheFrameOrLengthOverflow : Prop :=
  ∀ (id : Byte) (body : List Byte) (count : BitVec 32) (s : State),
    decodeRequest { op := 0, id := id, count := count, data := body } = .ok (.encode id body) ∧
    (body.length ≤ 65534 → ∃ chk,
      exec (.encode id body) s = .next
        { s with chk := chk, frmOut := wire id body (fold id body), resp := some (.encoded (wire id body (fold id body))) }) ∧
    (65534 < body.length →
      exec (.encode id body) s = .next { s with resp := some (.error (.lengthOverflow body.length)) })

/-- R123, with the range of R122. -/
def Obligations.EveryEncodedFrameHasTheFixedShape : Prop :=
  ∀ (id : Byte) (body : List Byte) (s : State), body.length ≤ 65534 →
    ∃ t f, exec (.encode id body) s = .next t ∧ t.resp = some (.encoded f) ∧
      f[0]? = some 0xA0 ∧ f[1]? = some 0xA1 ∧
      nb f 2 * 256 + nb f 3 = 1 + body.length ∧ 1 + body.length = f.length - 7 ∧
      f[4]? = some id ∧ (f.drop 5).take body.length = body ∧
      f[5 + body.length]? = some (id ^^^ xorfold body) ∧
      f[f.length - 2]? = some 0x0D ∧ f[f.length - 1]? = some 0x0A

/-- R120. -/
def Obligations.ChecksumFoldsEveryByteOnceInAnyOrder : Prop :=
  (∀ id : Byte, chkOf id [] = id) ∧
  (∀ (id : Byte) (body : List Byte), chkOf id body = id ^^^ xorfold body) ∧
  (∀ (id : Byte) (body body' : List Byte), body.Perm body' → chkOf id body = chkOf id body') ∧
  (∀ (id : Byte) (body : List Byte) (k : Nat),
    (chkOf id body).getLsbD k = decide ((id :: body).countP (·.getLsbD k) % 2 = 1))

/-- R124, with the numbers of its five checks. `chk` is left open, as the rule keeps no value of it. -/
def Obligations.DecodeMakesFiveChecksInOrder : Prop :=
  ∀ (F : List Byte) (s : State) (id : Byte) (count : BitVec 32),
    decodeRequest { op := 1, id := id, count := count, data := F } = .ok (.decode F) ∧
    (let L := nb F 2 * 256 + nb F 3
     if F.length < 8 then exec (.decode F) s = .next { s with resp := some (.error (.malformedFrame .tooShort)) }
     else if ¬ Starts F then exec (.decode F) s = .next { s with resp := some (.error (.malformedFrame .startMarker)) }
     else if L = 0 then exec (.decode F) s = .next { s with resp := some (.error (.malformedFrame .zeroLength)) }
     else if F.length ≠ L + 7 then
       exec (.decode F) s = .next { s with resp := some (.error (.malformedFrame .lengthMismatch)) }
     else if ¬ EndAt F (F.length - 2) then
       exec (.decode F) s = .next { s with resp := some (.error (.malformedFrame .endMarker)) }
     else ∃ chk, exec (.decode F) s = .next
       { s with
         chk := chk
         resp := some (.decoded (F.getD 4 0) ((F.drop 5).take (L - 1))
           (F.getD (4 + L) 0 == fold (F.getD 4 0) ((F.drop 5).take (L - 1)))) }) ∧
    FrameCheck.tooShort.number = 1 ∧ FrameCheck.startMarker.number = 2 ∧ FrameCheck.zeroLength.number = 3 ∧
    FrameCheck.lengthMismatch.number = 4 ∧ FrameCheck.endMarker.number = 5

/-- R125, R221. -/
def Obligations.ChecksumMismatchIsData : Prop :=
  ∀ (id rx : Byte) (body : List Byte) (s : State), body.length ≤ 65534 →
    ∃ t, exec (.decode (wire id body rx)) s = .next t ∧ t.resp = some (.decoded id body (rx == fold id body))

/-- R126. -/
def Obligations.DecodeInvertsEncode : Prop :=
  ∀ (id : Byte) (body : List Byte) (s s' : State), body.length ≤ 65534 →
    ∃ t f u, exec (.encode id body) s = .next t ∧ t.resp = some (.encoded f) ∧
      exec (.decode f) s' = .next u ∧ u.resp = some (.decoded id body true)

/-- R127: one changed byte among identifier and body, two whose differences cancel, the checksum byte, and a marker or
length byte. -/
def Obligations.OneChangedByteIsDetected : Prop :=
  ∀ (id : Byte) (body : List Byte) (s : State) (k : Nat) (d : Byte), body.length ≤ 65534 → d ≠ 0 →
    k < body.length + 8 →
    ∃ t, exec (.decode ((wire id body (fold id body)).modify k (· ^^^ d))) s = .next t ∧
      (4 ≤ k ∧ k ≤ 4 + body.length → ∃ id' body', t.resp = some (.decoded id' body' false)) ∧
      (k = 5 + body.length → t.resp = some (.decoded id body false)) ∧
      (k < 4 ∨ 5 + body.length < k → ∃ c, t.resp = some (.error (.malformedFrame c))) ∧
      (∀ j, 4 ≤ k ∧ k ≤ 4 + body.length → 4 ≤ j ∧ j ≤ 4 + body.length → j ≠ k →
        ∃ u id' body',
          exec (.decode (((wire id body (fold id body)).modify k (· ^^^ d)).modify j (· ^^^ d))) s = .next u ∧
          u.resp = some (.decoded id' body' true))

/-- The row FRAME as an instruction: that it gives what DECODE gives on its bytes is the model's reading (log 15), and so is
the accumulator's last value (log 10). -/
def Obligations.FrameRowGivesWhatDecodeGives : Prop :=
  ∀ (f : WireFrame) (s : State), f.body.length ≤ 65534 →
    exec (.frame f) s = .next
      { s with
        chk := fold f.identifier f.body
        resp := some (.decoded f.identifier f.body (f.checksum == fold f.identifier f.body)) } ∧
    exec (.decode (wire f.identifier f.body f.checksum)) s = exec (.frame f) s

/-- R128. -/
def Obligations.DecodeAfterExtractFailsOnlyOneThreeFour : Prop :=
  (∀ (s s' t u : State) (f : List Byte), Returns s t f → exec (.decode f) s' = .next u →
      u.resp ≠ some (.error (.malformedFrame .startMarker)) ∧ u.resp ≠ some (.error (.malformedFrame .endMarker))) ∧
  (∀ c ∈ [FrameCheck.tooShort, FrameCheck.zeroLength, FrameCheck.lengthMismatch],
    ∃ s t f u, Returns s t f ∧ exec (.decode f) t = .next u ∧ u.resp = some (.error (.malformedFrame c)))

/-- ENCODE, DECODE and FRAME touch neither the buffer nor the decoder (R121, R124, R129). -/
def Obligations.CodecOperationsLeaveBufferAndDecoderAlone : Prop :=
  ∀ (i : Instr) (s t : State), (∃ id body, i = .encode id body) ∨ (∃ F, i = .decode F) ∨ (∃ f, i = .frame f) →
    exec i s = .next t →
      SameBuffer s t ∧ SameDecoder s t ∧ t.frmIn = s.frmIn ∧ t.turns = s.turns ∧
      ((∀ id body, i ≠ .encode id body) → t.frmOut = s.frmOut)

/-! ### The reassembly buffer -/

/-- R144. -/
def Obligations.FindEndIsTheLeastEndMarker : Prop :=
  ∀ s : List Byte,
    (∀ k, findEnd s = some k ↔ EndAt s k ∧ ∀ j, j < k → ¬ EndAt s j) ∧
    (findEnd s = none ↔ ∀ k, ¬ EndAt s k)

/-- R145: what SCAN returns on either shape of input, and that every input has one of the two shapes. -/
def Obligations.ScanCutsTestsAndDiscards : Prop :=
  (∀ (gs : List (List Byte)) (f rest : List Byte), Garbage gs → Candidate f → Starts f →
    scan (gs.flatten ++ f ++ rest) = (some f, rest)) ∧
  (∀ (gs : List (List Byte)) (tail : List Byte), Garbage gs → NoEnd tail →
    scan (gs.flatten ++ tail) = (none, tail)) ∧
  (∀ s : List Byte,
    (∃ gs f rest, Garbage gs ∧ Candidate f ∧ Starts f ∧ s = gs.flatten ++ f ++ rest) ∨
    (∃ gs tail, Garbage gs ∧ NoEnd tail ∧ s = gs.flatten ++ tail))

/-- R141. -/
def Obligations.AppendJoinsTheTailOrSetsOverflow : Prop :=
  ∀ (chunk : List Byte) (s : State) (id : Byte) (count : BitVec 32),
    decodeRequest { op := 2, id := id, count := count, data := chunk } = .ok (.append chunk) ∧
    (Fits s chunk → exec (.append chunk) s = .next { s with buf := s.buf ++ chunk, resp := none }) ∧
    (¬ Fits s chunk → exec (.append chunk) s = .next { s with overflow := true, resp := none })

/-- R142: the refused chunk is dropped whole, `overflow` stays until CLEAR or reset, and while it is set no extraction
waits. -/
def Obligations.OverflowStaysAndNoExtractionWaits : Prop :=
  (∀ (s : State) (chunk : List Byte), s.bufCap = none →
    exec (.append chunk) s = .next { s with buf := s.buf ++ chunk, resp := none }) ∧
  (∀ (s : State) (chunk : List Byte) (cap : Nat), s.bufCap = some cap → cap < s.buf.length + chunk.length →
    exec (.append chunk) s = .next { s with overflow := true, resp := none }) ∧
  (∀ s t : State, s.overflow = true → step s = .next t →
    (∀ rest, s.turns ≠ .reset :: rest) → (∀ a q rest, s.turns = .request a q :: rest → q.op ≠ 6) →
    t.overflow = true) ∧
  (∀ s : State, s.overflow = true → s.pend = .idle →
    (∃ t, exec .extractFrame s = .next t ∧ t.pend = .idle ∧
      ((∃ f, t.resp = some (.frame f)) ∨ t.resp = some (.error .bufferOverflow))) ∧
    (∀ count, ∃ t, exec (.extractBytes count) s = .next t ∧ t.pend = .idle ∧
      ((∃ d, t.resp = some (.bytes d)) ∨ t.resp = some (.error .bufferOverflow)))) ∧
  (∀ s : State, s.overflow = true → s.pend ≠ .idle →
    s.complete.pend = .idle ∧
      ((∃ f, s.complete.resp = some (.frame f)) ∨ (∃ d, s.complete.resp = some (.bytes d)) ∨
        s.complete.resp = some (.error .bufferOverflow)))

/-- R146: the frame at hand is returned, whatever the flags are, and every discarded candidate is gone. -/
def Obligations.ExtractFrameReturnsTheFirstFrame : Prop :=
  ∀ (s : State) (gs : List (List Byte)) (f rest : List Byte), s.pend = .idle → Garbage gs → Candidate f → Starts f →
    s.buf = gs.flatten ++ f ++ rest →
    exec .extractFrame s = .next { s with buf := rest, pend := .idle, resp := some (.frame f) }

/-- R146: with no frame at hand, BufferOverflow before Closed, else it waits; the discarded candidates stay discarded. -/
def Obligations.ExtractFrameWithoutAFrameFailsOrWaits : Prop :=
  ∀ (s : State) (gs : List (List Byte)) (tail : List Byte) (id : Byte) (count : BitVec 32) (data : List Byte),
    s.pend = .idle → Garbage gs → NoEnd tail → s.buf = gs.flatten ++ tail →
    decodeRequest { op := 3, id := id, count := count, data := data } = .ok .extractFrame ∧
    exec .extractFrame s = .next
      (if s.overflow then { s with buf := tail, pend := .idle, resp := some (.error .bufferOverflow) }
       else if s.closed then { s with buf := tail, pend := .idle, resp := some (.error .closed) }
       else { s with buf := tail, pend := .waitFrame, resp := none })

/-- R147. -/
def Obligations.AReturnedFrameIsMarkedAtBothEnds : Prop :=
  (∀ (s t : State) (f : List Byte), Returns s t f →
    4 ≤ f.length ∧ Starts f ∧ EndAt f (f.length - 2) ∧ ∀ k, k < f.length - 2 → ¬ EndAt f k) ∧
  (∀ (s : State) (rest : List Byte), s.pend = .idle → s.buf = [0xA0, 0xA1, 0x0D, 0x0A] ++ rest →
    ∃ t, Returns s t [0xA0, 0xA1, 0x0D, 0x0A])

/-- R148, its three cases. -/
def Obligations.ResynchronisationThrowsAwayWholeCandidates : Prop :=
  (∀ (s : State) (g f rest : List Byte), s.pend = .idle → Candidate g → ¬ Starts g → Candidate f → Starts f →
    s.buf = g ++ f ++ rest →
    exec .extractFrame s = .next { s with buf := rest, pend := .idle, resp := some (.frame f) }) ∧
  (∀ (s : State) (g lost f rest : List Byte), s.pend = .idle → g ≠ [] → NoEnd g → Candidate lost → Starts lost →
    ¬ Starts (g ++ lost) → Candidate f → Starts f → s.buf = g ++ lost ++ f ++ rest →
    exec .extractFrame s = .next { s with buf := rest, pend := .idle, resp := some (.frame f) }) ∧
  (∀ (s : State) (g rest : List Byte), s.pend = .idle → Candidate g → Starts g → s.buf = g ++ rest →
    exec .extractFrame s = .next { s with buf := rest, pend := .idle, resp := some (.frame g) })

/-- R266: a frame of ENCODE's shape with an earlier `0D 0A` is cut there, and DECODE refuses the head. -/
def Obligations.AnInnerEndMarkerCutsTheFrame : Prop :=
  ∀ (s s' : State) (id rx : Byte) (body rest : List Byte) (k : Nat), s.pend = .idle → body.length ≤ 65534 →
    k < body.length + 6 → EndAt (wire id body rx) k → (∀ j, j < k → ¬ EndAt (wire id body rx) j) →
    s.buf = wire id body rx ++ rest →
    exec .extractFrame s = .next
      { s with
        buf := (wire id body rx).drop (k + 2) ++ rest
        pend := .idle
        resp := some (.frame ((wire id body rx).take (k + 2))) } ∧
    ∃ c u, exec (.decode ((wire id body rx).take (k + 2))) s' = .next u ∧ u.resp = some (.error (.malformedFrame c))

/-- R150. -/
def Obligations.ExtractBytesTakesExactlyCount : Prop :=
  ∀ (s : State) (count : BitVec 32) (id : Byte) (data : List Byte), s.pend = .idle →
    decodeRequest { op := 4, id := id, count := count, data := data } = .ok (.extractBytes count) ∧
    exec (.extractBytes count) s = .next
      (if count.toNat ≤ s.buf.length then
         { s with
           buf := s.buf.drop count.toNat
           pend := .idle
           resp := some (.bytes (s.buf.take count.toNat)) }
       else if s.overflow then { s with pend := .idle, resp := some (.error .bufferOverflow) }
       else if s.closed then { s with pend := .idle, resp := some (.error .closed) }
       else { s with pend := .waitBytes count, resp := none })

/-- R152, R228. -/
def Obligations.BusyWhileAnExtractionIsPending : Prop :=
  (∀ (s : State) (count : BitVec 32), s.pend ≠ .idle →
    exec .extractFrame s = .next { s with resp := some (.error .busy) } ∧
    exec (.extractBytes count) s = .next { s with resp := some (.error .busy) } ∧
    exec .clear s = .next { s with resp := some (.error .busy) }) ∧
  (∀ (s t : State) (i : Instr), (∃ id body, i = .encode id body) ∨ (∃ F, i = .decode F) ∨ (∃ B, i = .parse B) →
    exec i s = .next t → t.resp ≠ some (.error .busy) ∧ SameBuffer s t)

/-- R143: while its condition fails the pending operation is held; where it holds, the completion step does what the
operation would do if it were asked now. -/
def Obligations.CompletionIsEnabledByDataOrFlags : Prop :=
  ∀ (s : State) (rest : List Turn), s.turns = .complete :: rest →
    (s.pend = .waitFrame → (∀ k, ¬ EndAt s.buf k) → s.overflow = false → s.closed = false →
      step s = .next { s with turns := rest }) ∧
    (s.pend = .waitFrame → (∃ k, EndAt s.buf k) ∨ s.overflow = true ∨ s.closed = true →
      step s = exec .extractFrame { s with turns := rest, pend := .idle }) ∧
    (∀ count, s.pend = .waitBytes count → s.buf.length < count.toNat → s.overflow = false → s.closed = false →
      step s = .next { s with turns := rest }) ∧
    (∀ count, s.pend = .waitBytes count → count.toNat ≤ s.buf.length ∨ s.overflow = true ∨ s.closed = true →
      step s = exec (.extractBytes count) { s with turns := rest, pend := .idle })

/-- R154. -/
def Obligations.CancelSetsClosedAndNothingElse : Prop :=
  ∀ (s : State) (id : Byte) (count : BitVec 32) (data : List Byte),
    decodeRequest { op := 5, id := id, count := count, data := data } = .ok .cancel ∧
    exec .cancel s = .next { s with closed := true, resp := none } ∧
    exec .cancel { s with closed := true, resp := none } = exec .cancel s ∧
    ({ s with closed := true } : State).canComplete = decide (s.pend ≠ .idle)

/-- R156. -/
def Obligations.ClearEmptiesTheBufferUnlessPending : Prop :=
  ∀ (s : State) (id : Byte) (count : BitVec 32) (data : List Byte),
    decodeRequest { op := 6, id := id, count := count, data := data } = .ok .clear ∧
    (s.pend = .idle →
      exec .clear s = .next { s with buf := [], closed := false, overflow := false, resp := none }) ∧
    (s.pend ≠ .idle → exec .clear s = .next { s with resp := some (.error .busy) })

/-- R55: what an extraction delivers it takes from the head, in order. -/
def Obligations.DeliveredBytesLeaveTheHead : Prop :=
  (∀ (s t : State) (f : List Byte), Returns s t f →
    ∃ gs, Garbage gs ∧ s.buf = gs.flatten ++ f ++ t.buf) ∧
  (∀ (s t : State) (count : BitVec 32) (d : List Byte), ReturnsBytes count s t d → d.length = count.toNat ∧ s.buf = d ++ t.buf)

/-- R61 over every run of the machine from every state. -/
def Obligations.BytesRemovedAreAPrefixOfTheStream : Prop :=
  ∀ (n : Nat) (s t : State), Host.Core.run Sys2Proof.core n s = .next t →
    ∃ removed, s.buf ++ acceptedIn n s = removed ++ t.buf

/-- R62 for one pending extraction: the chunks' cuts change neither its answer nor what is left. -/
def Obligations.ChunkingDoesNotChangeTheResult : Prop :=
  ∀ (cs : List (List Byte)) (s : State), s.bufCap = none → s.overflow = false → s.closed = false →
    (s.pend = .waitFrame ∧ NoEnd s.buf) ∨ (∃ count, s.pend = .waitBytes count ∧ s.buf.length < count.toNat) →
    (feed cs s).1 = (feed [cs.flatten] s).1 ∧ (feed cs s).2.buf = (feed [cs.flatten] s).2.buf ∧
      (feed cs s).2.pend = (feed [cs.flatten] s).2.pend

/-- R149: the finite-state machine, started on a request, reaches the atomic operation's state, in IDLE or in WAIT; from
WAIT it is held as long as the completion step is not enabled, and reaches that step's state once it is. -/
def Obligations.TheFsmRefinesExtractFrame : Prop :=
  (∀ s : State, ∃ n t, exec .extractFrame s = .next t ∧
    fsmRun n (fsmRequest s) = (if s.pend = .idle ∧ t.pend = .waitFrame then .wait else .idle, t)) ∧
  (∀ s : State, s.pend = .waitFrame →
    ((∀ k, ¬ EndAt s.buf k) → s.overflow = false → s.closed = false → ∀ n, fsmRun n (.wait, s) = (.wait, s)) ∧
    ((∃ k, EndAt s.buf k) ∨ s.overflow = true ∨ s.closed = true →
      ∃ n, fsmRun n (.wait, s) = (if s.complete.pend = .waitFrame then .wait else .idle, s.complete)))

/-- The buffer operations touch neither codec nor decoder (R20, R156). -/
def Obligations.BufferOperationsLeaveCodecAndDecoderAlone : Prop :=
  ∀ (i : Instr) (s t : State),
    (∃ chunk, i = .append chunk) ∨ i = .extractFrame ∨ (∃ count, i = .extractBytes count) ∨ i = .cancel ∨ i = .clear ∨
      (∃ low, i = .reservedOp low) →
    exec i s = .next t →
      SameDecoder s t ∧ t.chk = s.chk ∧ t.frmIn = s.frmIn ∧ t.frmOut = s.frmOut ∧ t.turns = s.turns ∧
      t.bufCap = s.bufCap

/-! ### The log record decoder -/

/-- R91, R92, R93: the header's top three bits choose the kind and the length; R173: a record that does not fit. -/
def Obligations.HeaderFixesKindAndLength : Prop :=
  ∀ (h : Byte) (rest : List Byte),
    (∀ n, sizeOfHeader h = some n →
      (rest.length + 1 < n → decodeRecord (h :: rest) = .error .truncated) ∧
      (n ≤ rest.length + 1 → ∃ r, decodeRecord (h :: rest) = .ok (r, (h :: rest).drop n) ∧
        ((∃ a, r = .full a) ↔ h.toNat / 32 = 2) ∧ ((∃ a, r = .pointOfInterest a) ↔ h.toNat / 32 = 3) ∧
        ((∃ c, r = .compact c) ↔ h.toNat / 32 = 4) ∧ ((∃ e, r = .empty e) ↔ h.toNat / 32 = 7))) ∧
    (sizeOfHeader h = none → ∃ r, decodeRecord (h :: rest) = .ok (r, rest) ∧
      ((∃ low, r = .reserved0 low) ↔ h.toNat / 32 = 0) ∧ ((∃ low, r = .reserved1 low) ↔ h.toNat / 32 = 1) ∧
      ((∃ low, r = .reserved5 low) ↔ h.toNat / 32 = 5) ∧ ((∃ low, r = .reserved6 low) ↔ h.toNat / 32 = 6))

/-- R174 with its field arithmetic (R96 to R99) and the cursor's advance (R171), over the record's bytes. Where the fields
stand and the coordinates' byte order are the spec's decisions D2 to D4 and the model's choice to follow them (log 13). -/
def Obligations.FullRecordGivesItsFieldsAsAFix : Prop :=
  ∀ (b : List Byte) (s : State), b.length = 18 → nb b 0 / 32 = 2 → s.cursor.toNat + 18 ≤ s.blk.length →
    ∃ r f, decodeRecord b = .ok (.full r, []) ∧
      exec (.full r) s = .next
        { s with
          out := s.out ++ [f], prevWeek := f.gpsWeek, prevTow := f.gpsTimeOfWeek
          prevX := f.x, prevY := f.y, prevZ := f.z, prevValid := true, cursor := s.cursor + 18 } ∧
      f.isPointOfInterest = false ∧
      f.velocity.toNat = nb b 0 % 4 * 256 + nb b 1 ∧
      f.gpsWeek.toNat = nb b 2 % 4 * 256 + nb b 3 ∧
      f.gpsTimeOfWeek.toNat = nb b 4 * 4096 + nb b 5 * 16 + nb b 2 / 16 ∧
      f.x.toInt = me32At b 6 ∧ f.y.toInt = me32At b 10 ∧ f.z.toInt = me32At b 14

/-- R175 with its field arithmetic (R96 to R99) and the cursor's advance (R171), over the record's bytes. Where the fields
stand and the coordinates' byte order are the spec's decisions D2 to D4 and the model's choice to follow them (log 13). -/
def Obligations.PointOfInterestIsAFullRecordWithTheFlag : Prop :=
  ∀ (b : List Byte) (s : State), b.length = 18 → nb b 0 / 32 = 3 → s.cursor.toNat + 18 ≤ s.blk.length →
    ∃ r f, decodeRecord b = .ok (.pointOfInterest r, []) ∧
      exec (.pointOfInterest r) s = .next
        { s with
          out := s.out ++ [f], prevWeek := f.gpsWeek, prevTow := f.gpsTimeOfWeek
          prevX := f.x, prevY := f.y, prevZ := f.z, prevValid := true, cursor := s.cursor + 18 } ∧
      f.isPointOfInterest = true ∧
      f.velocity.toNat = nb b 0 % 4 * 256 + nb b 1 ∧
      f.gpsWeek.toNat = nb b 2 % 4 * 256 + nb b 3 ∧
      f.gpsTimeOfWeek.toNat = nb b 4 * 4096 + nb b 5 * 16 + nb b 2 / 16 ∧
      f.x.toInt = me32At b 6 ∧ f.y.toInt = me32At b 10 ∧ f.z.toInt = me32At b 14

/-- R176, R180 with the field arithmetic of R101 to R103 and the cursor's advance (R171), over the record's bytes. The bit
ranges (decision D5), the sign extension by 1024 (conflict C2), the wrap (D6) and the flag 0 (D7) are the spec's decisions
and the model's choice to follow them (log 13). Without a predecessor: `RecordTestsComeBeforeTheRecordStep`. -/
def Obligations.CompactRecordAddsItsDeltas : Prop :=
  ∀ (b : List Byte) (s : State), b.length = 8 → nb b 0 / 32 = 4 → s.cursor.toNat + 8 ≤ s.blk.length →
    s.prevValid = true →
    ∃ r f, decodeRecord b = .ok (.compact r, []) ∧
      exec (.compact r) s = .next
        { s with
          out := s.out ++ [f], prevTow := f.gpsTimeOfWeek
          prevX := f.x, prevY := f.y, prevZ := f.z, cursor := s.cursor + 8 } ∧
      f.isPointOfInterest = false ∧
      f.velocity.toNat = nb b 0 % 4 * 256 + nb b 1 ∧
      f.gpsWeek = s.prevWeek ∧
      f.gpsTimeOfWeek.toNat = (s.prevTow.toNat + (nb b 2 * 256 + nb b 3)) % 2 ^ 32 ∧
      f.x.toInt = s32 (s.prevX.toInt + sext (nb b 4 * 4 + nb b 5 / 64)) ∧
      f.y.toInt = s32 (s.prevY.toInt + sext (nb b 5 % 64 * 16 + nb b 6 / 16)) ∧
      f.z.toInt = s32 (s.prevZ.toInt + sext (nb b 6 % 4 * 256 + nb b 7))

/-- R177, R104: EMPTY moves the cursor and nothing else, whatever its bits. -/
def Obligations.EmptyRecordOnlyMovesTheCursor : Prop :=
  ∀ (h b1 : Byte) (s : State), h.toNat / 32 = 7 → s.cursor.toNat + 2 ≤ s.blk.length →
    ∃ r, decodeRecord [h, b1] = .ok (.empty r, []) ∧ exec (.empty r) s = .next { s with cursor := s.cursor + 2 }

/-- R178, R94: the four reserved kinds as instructions of their own. -/
def Obligations.ReservedKindsRaiseDecodeReservedHeader : Prop :=
  ∀ (low : BitVec 5) (s : State),
    exec (.reservedKind0 low) s = .next { s with resp := some (.error (.decodeReservedHeader s.cursor)) } ∧
    exec (.reservedKind1 low) s = .next { s with resp := some (.error (.decodeReservedHeader s.cursor)) } ∧
    exec (.reservedKind5 low) s = .next { s with resp := some (.error (.decodeReservedHeader s.cursor)) } ∧
    exec (.reservedKind6 low) s = .next { s with resp := some (.error (.decodeReservedHeader s.cursor)) }

/-- The tests R171 makes before a record's step, at an instruction of its own (R173, R179): truncated before no
predecessor, and nothing but the response changes. -/
def Obligations.RecordTestsComeBeforeTheRecordStep : Prop :=
  (∀ (r : AbsoluteRecord) (s : State), s.blk.length < s.cursor.toNat + 18 →
    exec (.full r) s = .next { s with resp := some (.error (.decodeTruncated s.cursor)) } ∧
    exec (.pointOfInterest r) s = .next { s with resp := some (.error (.decodeTruncated s.cursor)) }) ∧
  (∀ (r : CompactRecord) (s : State), s.blk.length < s.cursor.toNat + 8 →
    exec (.compact r) s = .next { s with resp := some (.error (.decodeTruncated s.cursor)) }) ∧
  (∀ (r : EmptyRecord) (s : State), s.blk.length < s.cursor.toNat + 2 →
    exec (.empty r) s = .next { s with resp := some (.error (.decodeTruncated s.cursor)) }) ∧
  (∀ (r : CompactRecord) (s : State), s.cursor.toNat + 8 ≤ s.blk.length → s.prevValid = false →
    exec (.compact r) s = .next { s with resp := some (.error (.decodeNoPredecessor s.cursor)) })

/-- R105: no ignored bit has an effect. -/
def Obligations.IgnoredBitsHaveNoEffect : Prop :=
  ∀ (s : State) (a : AbsoluteRecord) (c : CompactRecord) (e e' : EmptyRecord) (i0 : BitVec 3) (i2 : BitVec 2),
    exec (.full { a with ignored0 := i0, ignored2 := i2 }) s = exec (.full a) s ∧
    exec (.pointOfInterest { a with ignored0 := i0, ignored2 := i2 }) s = exec (.pointOfInterest a) s ∧
    exec (.compact { c with ignored0 := i0, ignored6 := i2 }) s = exec (.compact c) s ∧
    exec (.empty e) s = exec (.empty e') s

/-- PARSE and the record instructions have no access to the buffer, the codec, the operand spaces or the schedule (R170). -/
def Obligations.TheDecoderLeavesBufferAndCodecAlone : Prop :=
  ∀ (i : Instr) (s t : State), (∃ B, i = .parse B) ∨ (∃ r : LogRecord, i = r.toInstr) → exec i s = .next t →
    SameBuffer s t ∧ t.chk = s.chk ∧ t.frmIn = s.frmIn ∧ t.frmOut = s.frmOut ∧ t.blk = s.blk ∧ t.turns = s.turns

/-- R171, R182, R184 for every sequence of records that has a meaning: the fixes in order, the cursor at the end. -/
def Obligations.ParseGivesTheFixesOfTheRecords : Prop :=
  ∀ (rs : List LogRecord) (fs : List Fix) (s : State), fixes none rs = some fs → (blockOf rs).length < 2 ^ 32 →
    ∃ t, exec (.parse (blockOf rs)) s = .next t ∧ t.resp = some (.records fs) ∧ t.out = fs ∧
      t.cursor.toNat = (blockOf rs).length

/-- R172, R173, R178, R179, and the order of tests of R234: after records that have a meaning, the first offending one is
reported with the offset of its header and no records. -/
def Obligations.ParseReportsTheFirstOffendingRecord : Prop :=
  ∀ (rs : List LogRecord) (fs : List Fix) (h : Byte) (rest : List Byte) (s : State),
    fixes none rs = some fs → (blockOf rs ++ h :: rest).length < 2 ^ 32 →
    (sizeOfHeader h = none → ∃ t, exec (.parse (blockOf rs ++ h :: rest)) s = .next t ∧
      t.resp = some (.error (.decodeReservedHeader (BitVec.ofNat 32 (blockOf rs).length)))) ∧
    (∀ n, sizeOfHeader h = some n → rest.length + 1 < n → ∃ t, exec (.parse (blockOf rs ++ h :: rest)) s = .next t ∧
      t.resp = some (.error (.decodeTruncated (BitVec.ofNat 32 (blockOf rs).length)))) ∧
    (sizeOfHeader h = some 8 → 8 ≤ rest.length + 1 → fs = [] → ∃ t, exec (.parse (blockOf rs ++ h :: rest)) s = .next t ∧
      t.resp = some (.error (.decodeNoPredecessor (BitVec.ofNat 32 (blockOf rs).length))))

/-- PARSE of every block answers, with all its records or with one of the three errors at the cursor (R171, R172). -/
def Obligations.ParseAlwaysAnswers : Prop :=
  ∀ (B : List Byte) (s : State), B.length < 2 ^ 32 →
    ∃ t, exec (.parse B) s = .next t ∧ 8 * t.out.length ≤ B.length ∧
      ((t.resp = some (.records t.out) ∧ t.cursor.toNat = B.length) ∨
       (t.cursor.toNat < B.length ∧
         (t.resp = some (.error (.decodeReservedHeader t.cursor)) ∨ t.resp = some (.error (.decodeTruncated t.cursor)) ∨
          t.resp = some (.error (.decodeNoPredecessor t.cursor)))))

/-- R181. -/
def Obligations.ParseDependsOnTheBlockAlone : Prop :=
  ∀ (B : List Byte) (s s' : State), B.length < 2 ^ 32 →
    ∃ t t', exec (.parse B) s = .next t ∧ exec (.parse B) s' = .next t' ∧ t.resp = t'.resp ∧ t.out = t'.out ∧
      t.cursor = t'.cursor ∧ t.prevValid = t'.prevValid

/-- R184: the k-th COMPACT record after a FULL one holds its coordinates plus the sum of the deltas, modulo `2^32`. That
the time of week wraps is decision D6 (R180); that a delta is extended by 1024 is conflict C2 (log 13). -/
def Obligations.ChainsOfCompactRecordsAddUp : Prop :=
  ∀ (a : AbsoluteRecord) (cs : List CompactRecord) (s : State), 18 + 8 * cs.length < 2 ^ 32 →
    ∃ t fs, exec (.parse (blockOf (.full a :: cs.map .compact))) s = .next t ∧ t.resp = some (.records fs) ∧
      fs.length = 1 + cs.length ∧
      ∀ k f, fs[k]? = some f →
        f.gpsWeek = a.week ∧
        f.gpsTimeOfWeek.toNat = (a.tow.toNat + ((cs.take k).map (·.dt.toNat)).sum) % 2 ^ 32 ∧
        f.x.toInt = s32 (a.x.toInt + ((cs.take k).map (sext ·.rdx.toNat)).sum) ∧
        f.y.toInt = s32 (a.y.toInt + ((cs.take k).map (sext ·.rdy.toNat)).sum) ∧
        f.z.toInt = s32 (a.z.toInt + ((cs.take k).map (sext ·.rdz.toNat)).sum)

/-- PARSE is the run of the record instructions fetched at the cursor (R24, R171): the record meanings and the pass are
one machine. That a record is an instruction of its own is the model's reading (log 15). -/
def Obligations.ParseIsTheRunOfItsRecordInstructions : Prop :=
  ∀ (B : List Byte) (s : State), B.length < 2 ^ 32 → s.blk = B →
    exec (.parse B) s = .next (passRun B.length s.startPass)

/-! ### Encodings -/

/-- R80: the select codes. -/
def Obligations.ReservedSelectCodesAreIllegalOperations : Prop :=
  ∀ (q : Request) (s : State), 8 ≤ q.op.toNat →
    ∃ low, decodeRequest q = .ok (.reservedOp low) ∧
      exec (.reservedOp low) s = .next { s with resp := some (.error (.illegalOperation q.op)) }

/-- Decoding an encoded well-formed instruction gives it back, for every row of the table. -/
def Obligations.DecodeInvertsEncodeForEveryInstruction : Prop :=
  ∀ i : Instr, i.wellFormed = true → decode (encode i) = .ok i

/-- What the encoders write the decoders read back, a record whatever follows it, and what the decoders read is what the
encoders write (R82 to R88, R95 to R104). -/
def Obligations.RecordsAndFramesHaveOneSpelling : Prop :=
  (∀ (r : LogRecord) (rest : List Byte), decodeRecord (encodeRecord r ++ rest) = .ok (r, rest)) ∧
  (∀ (bs rest : List Byte) (r : LogRecord), decodeRecord bs = .ok (r, rest) → encodeRecord r ++ rest = bs) ∧
  (∀ f : WireFrame, f.body.length ≤ 65534 → decodeFrame (encodeFrame f) = .ok f) ∧
  (∀ (F : List Byte) (f : WireFrame), decodeFrame F = .ok f → encodeFrame f = F ∧ f.body.length ≤ 65534)

/-- A word of each family, written out from 30_encoding.md and 95_test_vectors.md (T1, T4, M9, K1, E1). -/
def Obligations.SomeWordsDecodeRight : Prop :=
  decodeRecord [0x80, 0x39, 0x00, 0x05, 0xFF, 0x5F, 0xF2, 0x00] =
    .ok (.compact
      { ignored0 := 0, velocity := 57, dt := 5, rdx := 1021, rdy := 511, ignored6 := 0, rdz := 512 }, []) ∧
  decodeRecord [0x40, 0x7B, 0xE3, 0x85, 0x54, 0x64, 0x7D, 0xC7, 0xF0, 0x43, 0xD4, 0x6D, 0x19, 0xC2, 0xFF, 0xFF, 0xFF,
      0xFF] =
    .ok (.full
      { ignored0 := 0, velocity := 123, tow := 345678, ignored2 := 0, week := 901
        x := BitVec.ofInt 32 (-264012345), y := 432198765, z := BitVec.ofInt 32 (-1) }, []) ∧
  decodeFrame [0xA0, 0xA1, 0x00, 0x01, 0x02, 0x02, 0x0D, 0x0A] =
    .ok { identifier := 0x02, body := [], checksum := 0x02 }

/-! ### The whole machine -/

/-- A step runs the decoded request: the turn is taken off the schedule, the operand delivered to FRM_IN or BLK, and the
instruction executed, whoever asked (R60, R81, R245). -/
def Obligations.AStepRunsTheDecodedRequest : Prop :=
  ∀ (s : State) (agent : Agent) (q : Request) (rest : List Turn), s.turns = .request agent q :: rest →
    (∀ i, decodeRequest q = .ok i → (∀ F, i ≠ .decode F) → (∀ B, i ≠ .parse B) →
      step s = exec i { s with turns := rest }) ∧
    (∀ F, decodeRequest q = .ok (.decode F) → step s = exec (.decode F) { s with turns := rest, frmIn := F }) ∧
    (∀ B, decodeRequest q = .ok (.parse B) → step s = exec (.parse B) { s with turns := rest, blk := B })

/-- The turns that are no request. What an empty schedule does is the model's choice (log 2): nothing, or the completion
step of the pending extraction if it is enabled (R143). So is what reset keeps (log 9). The registers R33 leaves
unspecified after reset (log 4) and the spaces it does not name (log 6) are left open. -/
def Obligations.IdleAndResetTurns : Prop :=
  (∀ s : State, s.turns = [] →
    (s.pend = .idle → step s = .next s) ∧
    (s.pend = .waitFrame → (∀ k, ¬ EndAt s.buf k) → s.overflow = false → s.closed = false → step s = .next s) ∧
    (s.pend = .waitFrame → (∃ k, EndAt s.buf k) ∨ s.overflow = true ∨ s.closed = true →
      step s = exec .extractFrame { s with pend := .idle }) ∧
    (∀ count, s.pend = .waitBytes count → s.buf.length < count.toNat → s.overflow = false → s.closed = false →
      step s = .next s) ∧
    (∀ count, s.pend = .waitBytes count → count.toNat ≤ s.buf.length ∨ s.overflow = true ∨ s.closed = true →
      step s = exec (.extractBytes count) { s with pend := .idle })) ∧
  (∀ (s : State) (rest : List Turn), s.turns = .complete :: rest → s.pend = .idle →
    step s = .next { s with turns := rest }) ∧
  (∀ (s : State) (rest : List Turn), s.turns = .reset :: rest →
    ∃ chk week tow x y z frmIn frmOut blk, step s = .next
      { buf := [], pend := .idle, closed := false, overflow := false, bufCap := s.bufCap
        chk := chk, cursor := 0, prevValid := false
        prevWeek := week, prevTow := tow, prevX := x, prevY := y, prevZ := z
        frmIn := frmIn, frmOut := frmOut, blk := blk, out := [], resp := none, turns := rest })

/-- R260, the values R33 gives: of the state after reset, and after a reset in mid-run, where a pending operation is lost
without a response. -/
def Obligations.ResetLeavesTheValuesOfTheTable : Prop :=
  ∀ t : State, (t = State.reset ∨ ∃ (s : State) (rest : List Turn), s.turns = .reset :: rest ∧ step s = .next t) →
    t.buf = [] ∧ t.pend = .idle ∧ t.closed = false ∧ t.overflow = false ∧ t.cursor = 0 ∧ t.prevValid = false ∧
      t.out = [] ∧ t.status = 0 ∧ t.resp = none ∧
      ∀ q : Request, q.op.toNat < 8 → q.data.length < 2 ^ 32 →
        ∃ i u, decodeRequest q = .ok i ∧ exec i t = .next u

/-- R29. -/
def Obligations.StatusShowsPendAndTheFlags : Prop :=
  ∀ s : State,
    (s.status.toNat % 4 = match s.pend with | .idle => 0 | .waitFrame => 1 | .waitBytes _ => 2) ∧
    s.status.getLsbD 2 = s.closed ∧ s.status.getLsbD 3 = s.overflow ∧
    (s.status.getLsbD 4 = true ↔ 0 < s.buf.length) ∧ s.status.toNat < 32

/-- The invariant holds after reset (R22, R24, R28, R53, R182). -/
def Obligations.ResetSatisfiesTheInvariantOfTheBlock : Prop := State.reset.Inv

/-- Every step keeps it, from every state (R22, R24, R28, R53, R182). -/
def Obligations.EveryStepKeepsTheInvariantOfTheBlock : Prop :=
  ∀ s t : State, s.Inv → step s = .next t → t.Inv

/-- R233: the flags go only with CLEAR or reset; R20: they come only with CANCEL and APPEND; BUF_CAP is fixed (R8). -/
def Obligations.FlagsAreStickyAndHaveOneWriter : Prop :=
  ∀ s t : State, step s = .next t →
    t.bufCap = s.bufCap ∧
    ((∀ rest, s.turns ≠ .reset :: rest) → (∀ a q rest, s.turns = .request a q :: rest → q.op ≠ 6) →
      (s.closed = true → t.closed = true) ∧ (s.overflow = true → t.overflow = true)) ∧
    (s.closed = false → t.closed = true → ∃ a q rest, s.turns = .request a q :: rest ∧ q.op = 5) ∧
    (s.overflow = false → t.overflow = true → ∃ a q rest, s.turns = .request a q :: rest ∧ q.op = 2)

/-- R208, R222: no step raises an error that is the Session's. -/
def Obligations.NoStepRaisesASessionError : Prop :=
  ∀ s t : State, s.noSessionError = true → step s = .next t → t.noSessionError = true

/-- R232: the state each error leaves, and with it which operation raises it (R220). A record that succeeds leaves the port
as it is (log 7), so for the four rows that emit or skip a record the port must not show an earlier error; for every other
instruction there is no premise. The last clause is for an extraction that ends by its completion step. -/
def Obligations.AnErrorLeavesExactlyTheStateOfItsRow : Prop :=
  (∀ (i : Instr) (s t : State) (e : Err),
    ((∃ r, i = .full r) ∨ (∃ r, i = .pointOfInterest r) ∨ (∃ r, i = .compact r) ∨ (∃ r, i = .empty r) →
      ∀ e', s.resp ≠ some (.error e')) →
    exec i s = .next t → t.resp = some (.error e) →
    match e with
    | .lengthOverflow _ | .malformedFrame _ | .busy | .illegalOperation _ => t = { s with resp := some (.error e) }
    | .decodeTruncated _ | .decodeNoPredecessor _ | .decodeReservedHeader _ => SameBuffer s t
    | .bufferOverflow =>
      s.overflow = true ∧ s.pend = .idle ∧
        ((i = .extractFrame ∧ LeavesFrames s t e) ∨ ∃ count, i = .extractBytes count ∧ LeavesBytes count s t e)
    | .closed =>
      s.overflow = false ∧ s.closed = true ∧ s.pend = .idle ∧
        ((i = .extractFrame ∧ LeavesFrames s t e) ∨ ∃ count, i = .extractBytes count ∧ LeavesBytes count s t e)
    | .protocolViolation | .transportFailure => False) ∧
  (∀ (s : State) (e : Err), s.canComplete = true → s.complete.resp = some (.error e) →
    ((e = .bufferOverflow ∧ s.overflow = true) ∨ (e = .closed ∧ s.overflow = false ∧ s.closed = true)) ∧
    ((s.pend = .waitFrame ∧ LeavesFrames s s.complete e) ∨
      ∃ count, s.pend = .waitBytes count ∧ LeavesBytes count s s.complete e))

/-- The two operands the spec says do not exist (R53, R7): where the model stops, by name (log 16). -/
def Obligations.OperandsThatDoNotExistStopByName : Prop :=
  (∀ (B : List Byte) (s : State), 2 ^ 32 ≤ B.length → exec (.parse B) s = .fault .outsideBlk) ∧
  (∀ (f : WireFrame) (s : State), 65534 < f.body.length → exec (.frame f) s = .fault .noSuchFrame) ∧
  (∀ (s : State) (a : Agent) (q : Request) (rest : List Turn), s.turns = .request a q :: rest → q.op = 7 →
    2 ^ 32 ≤ q.data.length → step s = .refused (.badRequest .blockTooLong))

/-! ### The Session, environment -/

/-- R203, R204, R201: what QUERY asks for and how its one or two frames end it; and no event leaves it where it is. That a
request with identifier `0x00` is refused (V10) is the model's choice (log 18), and so is which failure an event outside
its phase ends in (logs 14 and 19). -/
def Obligations.QueryEndsWithTheMatchingAcknowledgement : Prop :=
  (∀ (id i1 i2 : Byte) (body f0 f1 f2 b1 b2 : List Byte) (v1 v2 : Bool), id ≠ 0x00 →
    let start := Session.Call.start (.query id body)
    let written := start.receive (.encoded f0)
    let sent := written.flushed
    let first := (sent.receive (.frame f1)).receive (.decoded i1 b1 v1)
    let second := (first.receive (.frame f2)).receive (.decoded i2 b2 v2)
    start.request = some { op := 0, id := id, count := 0, data := body } ∧
    written.write = some f0 ∧ written.request = none ∧
    sent.request = some { op := 3, id := 0, count := 0, data := [] } ∧
    (sent.receive (.frame f1)).request = some { op := 1, id := 0, count := 0, data := f1 } ∧
    (if (i1 = 0x83 ∨ i1 = 0x84) ∧ b1[0]? = some 0x00 then
       first.request = some { op := 3, id := 0, count := 0, data := [] } ∧
       second.phase = if i2 = 0x83 ∧ b2[0]? = some id then .done else .failed .protocolViolation
     else first.phase = if i1 = 0x83 ∧ b1[0]? = some id then .done else .failed .protocolViolation)) ∧
  (∀ body : List Byte, (Session.Call.start (.query 0x00 body)).request = none ∧
    (Session.Call.start (.query 0x00 body)).write = none) ∧
  (∀ c : Session.Call, c.request = none → c.write = none → ∀ r, c.receive r = c) ∧
  (∀ c : Session.Call, c.request.isSome = true ∨ c.write.isSome = true →
    c.flushed.phase ≠ c.phase ∧ c.transportFailed.phase = .failed .transportFailure ∧
    ∀ r, (c.receive r).phase ≠ c.phase)

/-- R206, R202: the request body, the count, which 32 bits hold, the bytes kept, and PARSE of them, whose answer is the
final output. -/
def Obligations.GetDataAsksForSectorsAndDropsTheTrailer : Prop :=
  ∀ (start count : BitVec 16) (f0 f1 d : List Byte) (b : List Byte) (v : Bool) (fs : List Fix), b[0]? = some 0x1D →
    let call := Session.Call.start (.getData start count)
    let bulk := ((call.receive (.encoded f0)).flushed.receive (.frame f1)).receive (.decoded 0x83 b v)
    let returned := bulk.receive (.bytes d)
    call.request = some
      { op := 0, id := 0x1D, count := 0
        data := [BitVec.ofNat 8 (start.toNat / 256), BitVec.ofNat 8 (start.toNat % 256),
          BitVec.ofNat 8 (count.toNat / 256), BitVec.ofNat 8 (count.toNat % 256)] } ∧
    (∃ n : BitVec 32, bulk.request = some { op := 4, id := 0, count := n, data := [] } ∧
      n.toNat = count.toNat * 4096 + 19) ∧
    returned.phase = .block (d.take (count.toNat * 4096)) ∧
    returned.request = some { op := 7, id := 0, count := 0, data := d.take (count.toNat * 4096) } ∧
    (returned.receive (.records fs)).phase = .records fs
end

