-- ==== Sys2Proof/Laws/Fields.lean ====
section
/-! SUPPORT. The fields of a record as numbers (R96 to R103): one lemma per field function, and what joining two bit
vectors does to the number. -/

namespace Sys2Proof

/-- Joining as arithmetic: the high part times two to the width of the low part, plus the low part. -/
theorem toNat_join {m n : Nat} (a : BitVec m) (b : BitVec n) : (a ++ b).toNat = a.toNat * 2 ^ n + b.toNat := by
  rw [BitVec.toNat_append, Nat.shiftLeft_eq, Nat.mul_comm, ← Nat.two_pow_add_eq_or_of_lt b.isLt]

/-- A header's kind is its top three bits (R91). -/
theorem kind_toNat (h : Byte) : (h.extractLsb' 5 3).toNat = h.toNat / 32 := by
  have := h.isLt
  simp only [BitVec.extractLsb'_toNat, Nat.shiftRight_eq_div_pow]
  omega

theorem be16_toNat (hi lo : Byte) : (be16 hi lo).toNat = hi.toNat * 256 + lo.toNat := toNat_join hi lo

theorem velocityField_toNat (b0 b1 : Byte) : (velocityField b0 b1).toNat = b0.toNat % 4 * 256 + b1.toNat := by
  simp only [velocityField, toNat_join, BitVec.extractLsb'_toNat, Nat.shiftRight_eq_div_pow]
  omega

theorem weekField_toNat (b2 b3 : Byte) : (weekField b2 b3).toNat = b2.toNat % 4 * 256 + b3.toNat :=
  velocityField_toNat b2 b3

theorem towField_toNat (b2 b4 b5 : Byte) :
    (towField b2 b4 b5).toNat = b4.toNat * 4096 + b5.toNat * 16 + b2.toNat / 16 := by
  have := b2.isLt
  simp only [towField, toNat_join, BitVec.extractLsb'_toNat, Nat.shiftRight_eq_div_pow]
  omega

theorem dtField_toNat (b2 b3 : Byte) : (dtField b2 b3).toNat = b2.toNat * 256 + b3.toNat := be16_toNat b2 b3

theorem rdxField_toNat (b4 b5 : Byte) : (rdxField b4 b5).toNat = b4.toNat * 4 + b5.toNat / 64 := by
  have := b5.isLt
  simp only [rdxField, toNat_join, BitVec.extractLsb'_toNat, Nat.shiftRight_eq_div_pow]
  omega

theorem rdyField_toNat (b5 b6 : Byte) : (rdyField b5 b6).toNat = b5.toNat % 64 * 16 + b6.toNat / 16 := by
  have := b6.isLt
  simp only [rdyField, toNat_join, BitVec.extractLsb'_toNat, Nat.shiftRight_eq_div_pow]
  omega

theorem rdzField_toNat (b6 b7 : Byte) : (rdzField b6 b7).toNat = b6.toNat % 4 * 256 + b7.toNat :=
  velocityField_toNat b6 b7

theorem me32_toNat (s0 s1 s2 s3 : Byte) :
    (me32 s0 s1 s2 s3).toNat = s2.toNat * 2 ^ 24 + s3.toNat * 2 ^ 16 + s0.toNat * 2 ^ 8 + s1.toNat := by
  simp only [me32, toNat_join]
  omega

/-- Values from 512 on are negative: 1024 is taken off (R103, conflict C2). -/
theorem sext10_toInt (v : BitVec 10) :
    (sext10 v).toInt = if 512 ≤ v.toNat then (v.toNat : Int) - 1024 else v.toNat := by
  have := v.isLt
  rw [sext10, BitVec.toInt_signExtend_of_le (by omega), BitVec.toInt_eq_toNat_cond]
  split_ifs <;> omega

end Sys2Proof
end

