-- ==== Sys2Proof/Laws/State.lean ====
section
/-! SUPPORT. What each named update of the state does to each field. -/

namespace Sys2Proof.Machine

section
variable (r : Option Response) (s : State)
@[simp] theorem State.answer_buf : (s.answer r).buf = s.buf := rfl
@[simp] theorem State.answer_pend : (s.answer r).pend = s.pend := rfl
@[simp] theorem State.answer_closed : (s.answer r).closed = s.closed := rfl
@[simp] theorem State.answer_overflow : (s.answer r).overflow = s.overflow := rfl
@[simp] theorem State.answer_bufCap : (s.answer r).bufCap = s.bufCap := rfl
@[simp] theorem State.answer_chk : (s.answer r).chk = s.chk := rfl
@[simp] theorem State.answer_cursor : (s.answer r).cursor = s.cursor := rfl
@[simp] theorem State.answer_prevValid : (s.answer r).prevValid = s.prevValid := rfl
@[simp] theorem State.answer_prevWeek : (s.answer r).prevWeek = s.prevWeek := rfl
@[simp] theorem State.answer_prevTow : (s.answer r).prevTow = s.prevTow := rfl
@[simp] theorem State.answer_prevX : (s.answer r).prevX = s.prevX := rfl
@[simp] theorem State.answer_prevY : (s.answer r).prevY = s.prevY := rfl
@[simp] theorem State.answer_prevZ : (s.answer r).prevZ = s.prevZ := rfl
@[simp] theorem State.answer_frmIn : (s.answer r).frmIn = s.frmIn := rfl
@[simp] theorem State.answer_frmOut : (s.answer r).frmOut = s.frmOut := rfl
@[simp] theorem State.answer_blk : (s.answer r).blk = s.blk := rfl
@[simp] theorem State.answer_out : (s.answer r).out = s.out := rfl
@[simp] theorem State.answer_resp : (s.answer r).resp = r := rfl
@[simp] theorem State.answer_turns : (s.answer r).turns = s.turns := rfl
end

section
variable (e : Err) (s : State)
@[simp] theorem State.raise_buf : (s.raise e).buf = s.buf := rfl
@[simp] theorem State.raise_pend : (s.raise e).pend = s.pend := rfl
@[simp] theorem State.raise_closed : (s.raise e).closed = s.closed := rfl
@[simp] theorem State.raise_overflow : (s.raise e).overflow = s.overflow := rfl
@[simp] theorem State.raise_bufCap : (s.raise e).bufCap = s.bufCap := rfl
@[simp] theorem State.raise_chk : (s.raise e).chk = s.chk := rfl
@[simp] theorem State.raise_cursor : (s.raise e).cursor = s.cursor := rfl
@[simp] theorem State.raise_prevValid : (s.raise e).prevValid = s.prevValid := rfl
@[simp] theorem State.raise_prevWeek : (s.raise e).prevWeek = s.prevWeek := rfl
@[simp] theorem State.raise_prevTow : (s.raise e).prevTow = s.prevTow := rfl
@[simp] theorem State.raise_prevX : (s.raise e).prevX = s.prevX := rfl
@[simp] theorem State.raise_prevY : (s.raise e).prevY = s.prevY := rfl
@[simp] theorem State.raise_prevZ : (s.raise e).prevZ = s.prevZ := rfl
@[simp] theorem State.raise_frmIn : (s.raise e).frmIn = s.frmIn := rfl
@[simp] theorem State.raise_frmOut : (s.raise e).frmOut = s.frmOut := rfl
@[simp] theorem State.raise_blk : (s.raise e).blk = s.blk := rfl
@[simp] theorem State.raise_out : (s.raise e).out = s.out := rfl
@[simp] theorem State.raise_resp : (s.raise e).resp = some (.error e) := rfl
@[simp] theorem State.raise_turns : (s.raise e).turns = s.turns := rfl
end

section
variable (c : List Byte) (s : State)
@[simp] theorem State.bufAppend_buf : (s.bufAppend c).buf = s.buf ++ c := rfl
@[simp] theorem State.bufAppend_pend : (s.bufAppend c).pend = s.pend := rfl
@[simp] theorem State.bufAppend_closed : (s.bufAppend c).closed = s.closed := rfl
@[simp] theorem State.bufAppend_overflow : (s.bufAppend c).overflow = s.overflow := rfl
@[simp] theorem State.bufAppend_bufCap : (s.bufAppend c).bufCap = s.bufCap := rfl
@[simp] theorem State.bufAppend_chk : (s.bufAppend c).chk = s.chk := rfl
@[simp] theorem State.bufAppend_cursor : (s.bufAppend c).cursor = s.cursor := rfl
@[simp] theorem State.bufAppend_prevValid : (s.bufAppend c).prevValid = s.prevValid := rfl
@[simp] theorem State.bufAppend_prevWeek : (s.bufAppend c).prevWeek = s.prevWeek := rfl
@[simp] theorem State.bufAppend_prevTow : (s.bufAppend c).prevTow = s.prevTow := rfl
@[simp] theorem State.bufAppend_prevX : (s.bufAppend c).prevX = s.prevX := rfl
@[simp] theorem State.bufAppend_prevY : (s.bufAppend c).prevY = s.prevY := rfl
@[simp] theorem State.bufAppend_prevZ : (s.bufAppend c).prevZ = s.prevZ := rfl
@[simp] theorem State.bufAppend_frmIn : (s.bufAppend c).frmIn = s.frmIn := rfl
@[simp] theorem State.bufAppend_frmOut : (s.bufAppend c).frmOut = s.frmOut := rfl
@[simp] theorem State.bufAppend_blk : (s.bufAppend c).blk = s.blk := rfl
@[simp] theorem State.bufAppend_out : (s.bufAppend c).out = s.out := rfl
@[simp] theorem State.bufAppend_resp : (s.bufAppend c).resp = s.resp := rfl
@[simp] theorem State.bufAppend_turns : (s.bufAppend c).turns = s.turns := rfl
end

section
variable (n : Nat) (s : State)
@[simp] theorem State.bufDrop_buf : (s.bufDrop n).buf = s.buf.drop n := rfl
@[simp] theorem State.bufDrop_pend : (s.bufDrop n).pend = s.pend := rfl
@[simp] theorem State.bufDrop_closed : (s.bufDrop n).closed = s.closed := rfl
@[simp] theorem State.bufDrop_overflow : (s.bufDrop n).overflow = s.overflow := rfl
@[simp] theorem State.bufDrop_bufCap : (s.bufDrop n).bufCap = s.bufCap := rfl
@[simp] theorem State.bufDrop_chk : (s.bufDrop n).chk = s.chk := rfl
@[simp] theorem State.bufDrop_cursor : (s.bufDrop n).cursor = s.cursor := rfl
@[simp] theorem State.bufDrop_prevValid : (s.bufDrop n).prevValid = s.prevValid := rfl
@[simp] theorem State.bufDrop_prevWeek : (s.bufDrop n).prevWeek = s.prevWeek := rfl
@[simp] theorem State.bufDrop_prevTow : (s.bufDrop n).prevTow = s.prevTow := rfl
@[simp] theorem State.bufDrop_prevX : (s.bufDrop n).prevX = s.prevX := rfl
@[simp] theorem State.bufDrop_prevY : (s.bufDrop n).prevY = s.prevY := rfl
@[simp] theorem State.bufDrop_prevZ : (s.bufDrop n).prevZ = s.prevZ := rfl
@[simp] theorem State.bufDrop_frmIn : (s.bufDrop n).frmIn = s.frmIn := rfl
@[simp] theorem State.bufDrop_frmOut : (s.bufDrop n).frmOut = s.frmOut := rfl
@[simp] theorem State.bufDrop_blk : (s.bufDrop n).blk = s.blk := rfl
@[simp] theorem State.bufDrop_out : (s.bufDrop n).out = s.out := rfl
@[simp] theorem State.bufDrop_resp : (s.bufDrop n).resp = s.resp := rfl
@[simp] theorem State.bufDrop_turns : (s.bufDrop n).turns = s.turns := rfl
end

section
variable (rest : List Byte) (s : State)
@[simp] theorem State.setBuf_buf : (s.setBuf rest).buf = rest := rfl
@[simp] theorem State.setBuf_pend : (s.setBuf rest).pend = s.pend := rfl
@[simp] theorem State.setBuf_closed : (s.setBuf rest).closed = s.closed := rfl
@[simp] theorem State.setBuf_overflow : (s.setBuf rest).overflow = s.overflow := rfl
@[simp] theorem State.setBuf_bufCap : (s.setBuf rest).bufCap = s.bufCap := rfl
@[simp] theorem State.setBuf_chk : (s.setBuf rest).chk = s.chk := rfl
@[simp] theorem State.setBuf_cursor : (s.setBuf rest).cursor = s.cursor := rfl
@[simp] theorem State.setBuf_prevValid : (s.setBuf rest).prevValid = s.prevValid := rfl
@[simp] theorem State.setBuf_prevWeek : (s.setBuf rest).prevWeek = s.prevWeek := rfl
@[simp] theorem State.setBuf_prevTow : (s.setBuf rest).prevTow = s.prevTow := rfl
@[simp] theorem State.setBuf_prevX : (s.setBuf rest).prevX = s.prevX := rfl
@[simp] theorem State.setBuf_prevY : (s.setBuf rest).prevY = s.prevY := rfl
@[simp] theorem State.setBuf_prevZ : (s.setBuf rest).prevZ = s.prevZ := rfl
@[simp] theorem State.setBuf_frmIn : (s.setBuf rest).frmIn = s.frmIn := rfl
@[simp] theorem State.setBuf_frmOut : (s.setBuf rest).frmOut = s.frmOut := rfl
@[simp] theorem State.setBuf_blk : (s.setBuf rest).blk = s.blk := rfl
@[simp] theorem State.setBuf_out : (s.setBuf rest).out = s.out := rfl
@[simp] theorem State.setBuf_resp : (s.setBuf rest).resp = s.resp := rfl
@[simp] theorem State.setBuf_turns : (s.setBuf rest).turns = s.turns := rfl
end

section
variable (p : Pend) (s : State)
@[simp] theorem State.setPend_buf : (s.setPend p).buf = s.buf := rfl
@[simp] theorem State.setPend_pend : (s.setPend p).pend = p := rfl
@[simp] theorem State.setPend_closed : (s.setPend p).closed = s.closed := rfl
@[simp] theorem State.setPend_overflow : (s.setPend p).overflow = s.overflow := rfl
@[simp] theorem State.setPend_bufCap : (s.setPend p).bufCap = s.bufCap := rfl
@[simp] theorem State.setPend_chk : (s.setPend p).chk = s.chk := rfl
@[simp] theorem State.setPend_cursor : (s.setPend p).cursor = s.cursor := rfl
@[simp] theorem State.setPend_prevValid : (s.setPend p).prevValid = s.prevValid := rfl
@[simp] theorem State.setPend_prevWeek : (s.setPend p).prevWeek = s.prevWeek := rfl
@[simp] theorem State.setPend_prevTow : (s.setPend p).prevTow = s.prevTow := rfl
@[simp] theorem State.setPend_prevX : (s.setPend p).prevX = s.prevX := rfl
@[simp] theorem State.setPend_prevY : (s.setPend p).prevY = s.prevY := rfl
@[simp] theorem State.setPend_prevZ : (s.setPend p).prevZ = s.prevZ := rfl
@[simp] theorem State.setPend_frmIn : (s.setPend p).frmIn = s.frmIn := rfl
@[simp] theorem State.setPend_frmOut : (s.setPend p).frmOut = s.frmOut := rfl
@[simp] theorem State.setPend_blk : (s.setPend p).blk = s.blk := rfl
@[simp] theorem State.setPend_out : (s.setPend p).out = s.out := rfl
@[simp] theorem State.setPend_resp : (s.setPend p).resp = s.resp := rfl
@[simp] theorem State.setPend_turns : (s.setPend p).turns = s.turns := rfl
end

section
variable (s : State)
@[simp] theorem State.startPass_buf : (s.startPass).buf = s.buf := rfl
@[simp] theorem State.startPass_pend : (s.startPass).pend = s.pend := rfl
@[simp] theorem State.startPass_closed : (s.startPass).closed = s.closed := rfl
@[simp] theorem State.startPass_overflow : (s.startPass).overflow = s.overflow := rfl
@[simp] theorem State.startPass_bufCap : (s.startPass).bufCap = s.bufCap := rfl
@[simp] theorem State.startPass_chk : (s.startPass).chk = s.chk := rfl
@[simp] theorem State.startPass_cursor : (s.startPass).cursor = 0 := rfl
@[simp] theorem State.startPass_prevValid : (s.startPass).prevValid = false := rfl
@[simp] theorem State.startPass_prevWeek : (s.startPass).prevWeek = s.prevWeek := rfl
@[simp] theorem State.startPass_prevTow : (s.startPass).prevTow = s.prevTow := rfl
@[simp] theorem State.startPass_prevX : (s.startPass).prevX = s.prevX := rfl
@[simp] theorem State.startPass_prevY : (s.startPass).prevY = s.prevY := rfl
@[simp] theorem State.startPass_prevZ : (s.startPass).prevZ = s.prevZ := rfl
@[simp] theorem State.startPass_frmIn : (s.startPass).frmIn = s.frmIn := rfl
@[simp] theorem State.startPass_frmOut : (s.startPass).frmOut = s.frmOut := rfl
@[simp] theorem State.startPass_blk : (s.startPass).blk = s.blk := rfl
@[simp] theorem State.startPass_out : (s.startPass).out = [] := rfl
@[simp] theorem State.startPass_resp : (s.startPass).resp = s.resp := rfl
@[simp] theorem State.startPass_turns : (s.startPass).turns = s.turns := rfl
end

section
variable (s : State)
@[simp] theorem State.finishPass_buf : (s.finishPass).buf = s.buf := rfl
@[simp] theorem State.finishPass_pend : (s.finishPass).pend = s.pend := rfl
@[simp] theorem State.finishPass_closed : (s.finishPass).closed = s.closed := rfl
@[simp] theorem State.finishPass_overflow : (s.finishPass).overflow = s.overflow := rfl
@[simp] theorem State.finishPass_bufCap : (s.finishPass).bufCap = s.bufCap := rfl
@[simp] theorem State.finishPass_chk : (s.finishPass).chk = s.chk := rfl
@[simp] theorem State.finishPass_cursor : (s.finishPass).cursor = s.cursor := rfl
@[simp] theorem State.finishPass_prevValid : (s.finishPass).prevValid = s.prevValid := rfl
@[simp] theorem State.finishPass_prevWeek : (s.finishPass).prevWeek = s.prevWeek := rfl
@[simp] theorem State.finishPass_prevTow : (s.finishPass).prevTow = s.prevTow := rfl
@[simp] theorem State.finishPass_prevX : (s.finishPass).prevX = s.prevX := rfl
@[simp] theorem State.finishPass_prevY : (s.finishPass).prevY = s.prevY := rfl
@[simp] theorem State.finishPass_prevZ : (s.finishPass).prevZ = s.prevZ := rfl
@[simp] theorem State.finishPass_frmIn : (s.finishPass).frmIn = s.frmIn := rfl
@[simp] theorem State.finishPass_frmOut : (s.finishPass).frmOut = s.frmOut := rfl
@[simp] theorem State.finishPass_blk : (s.finishPass).blk = s.blk := rfl
@[simp] theorem State.finishPass_out : (s.finishPass).out = s.out := rfl
@[simp] theorem State.finishPass_resp : (s.finishPass).resp = some (.records s.out) := rfl
@[simp] theorem State.finishPass_turns : (s.finishPass).turns = s.turns := rfl
end

section
variable (f : Fix) (s : State)
@[simp] theorem State.emit_buf : (s.emit f).buf = s.buf := rfl
@[simp] theorem State.emit_pend : (s.emit f).pend = s.pend := rfl
@[simp] theorem State.emit_closed : (s.emit f).closed = s.closed := rfl
@[simp] theorem State.emit_overflow : (s.emit f).overflow = s.overflow := rfl
@[simp] theorem State.emit_bufCap : (s.emit f).bufCap = s.bufCap := rfl
@[simp] theorem State.emit_chk : (s.emit f).chk = s.chk := rfl
@[simp] theorem State.emit_cursor : (s.emit f).cursor = s.cursor := rfl
@[simp] theorem State.emit_prevValid : (s.emit f).prevValid = true := rfl
@[simp] theorem State.emit_prevWeek : (s.emit f).prevWeek = f.gpsWeek := rfl
@[simp] theorem State.emit_prevTow : (s.emit f).prevTow = f.gpsTimeOfWeek := rfl
@[simp] theorem State.emit_prevX : (s.emit f).prevX = f.x := rfl
@[simp] theorem State.emit_prevY : (s.emit f).prevY = f.y := rfl
@[simp] theorem State.emit_prevZ : (s.emit f).prevZ = f.z := rfl
@[simp] theorem State.emit_frmIn : (s.emit f).frmIn = s.frmIn := rfl
@[simp] theorem State.emit_frmOut : (s.emit f).frmOut = s.frmOut := rfl
@[simp] theorem State.emit_blk : (s.emit f).blk = s.blk := rfl
@[simp] theorem State.emit_out : (s.emit f).out = s.out ++ [f] := rfl
@[simp] theorem State.emit_resp : (s.emit f).resp = s.resp := rfl
@[simp] theorem State.emit_turns : (s.emit f).turns = s.turns := rfl
end

section
variable (n : Nat) (s : State)
@[simp] theorem State.advance_buf : (s.advance n).buf = s.buf := rfl
@[simp] theorem State.advance_pend : (s.advance n).pend = s.pend := rfl
@[simp] theorem State.advance_closed : (s.advance n).closed = s.closed := rfl
@[simp] theorem State.advance_overflow : (s.advance n).overflow = s.overflow := rfl
@[simp] theorem State.advance_bufCap : (s.advance n).bufCap = s.bufCap := rfl
@[simp] theorem State.advance_chk : (s.advance n).chk = s.chk := rfl
@[simp] theorem State.advance_cursor : (s.advance n).cursor = s.cursor + BitVec.ofNat _ n := rfl
@[simp] theorem State.advance_prevValid : (s.advance n).prevValid = s.prevValid := rfl
@[simp] theorem State.advance_prevWeek : (s.advance n).prevWeek = s.prevWeek := rfl
@[simp] theorem State.advance_prevTow : (s.advance n).prevTow = s.prevTow := rfl
@[simp] theorem State.advance_prevX : (s.advance n).prevX = s.prevX := rfl
@[simp] theorem State.advance_prevY : (s.advance n).prevY = s.prevY := rfl
@[simp] theorem State.advance_prevZ : (s.advance n).prevZ = s.prevZ := rfl
@[simp] theorem State.advance_frmIn : (s.advance n).frmIn = s.frmIn := rfl
@[simp] theorem State.advance_frmOut : (s.advance n).frmOut = s.frmOut := rfl
@[simp] theorem State.advance_blk : (s.advance n).blk = s.blk := rfl
@[simp] theorem State.advance_out : (s.advance n).out = s.out := rfl
@[simp] theorem State.advance_resp : (s.advance n).resp = s.resp := rfl
@[simp] theorem State.advance_turns : (s.advance n).turns = s.turns := rfl
end

section
variable (rest : List Turn) (s : State)
@[simp] theorem State.setTurns_buf : (s.setTurns rest).buf = s.buf := rfl
@[simp] theorem State.setTurns_pend : (s.setTurns rest).pend = s.pend := rfl
@[simp] theorem State.setTurns_closed : (s.setTurns rest).closed = s.closed := rfl
@[simp] theorem State.setTurns_overflow : (s.setTurns rest).overflow = s.overflow := rfl
@[simp] theorem State.setTurns_bufCap : (s.setTurns rest).bufCap = s.bufCap := rfl
@[simp] theorem State.setTurns_chk : (s.setTurns rest).chk = s.chk := rfl
@[simp] theorem State.setTurns_cursor : (s.setTurns rest).cursor = s.cursor := rfl
@[simp] theorem State.setTurns_prevValid : (s.setTurns rest).prevValid = s.prevValid := rfl
@[simp] theorem State.setTurns_prevWeek : (s.setTurns rest).prevWeek = s.prevWeek := rfl
@[simp] theorem State.setTurns_prevTow : (s.setTurns rest).prevTow = s.prevTow := rfl
@[simp] theorem State.setTurns_prevX : (s.setTurns rest).prevX = s.prevX := rfl
@[simp] theorem State.setTurns_prevY : (s.setTurns rest).prevY = s.prevY := rfl
@[simp] theorem State.setTurns_prevZ : (s.setTurns rest).prevZ = s.prevZ := rfl
@[simp] theorem State.setTurns_frmIn : (s.setTurns rest).frmIn = s.frmIn := rfl
@[simp] theorem State.setTurns_frmOut : (s.setTurns rest).frmOut = s.frmOut := rfl
@[simp] theorem State.setTurns_blk : (s.setTurns rest).blk = s.blk := rfl
@[simp] theorem State.setTurns_out : (s.setTurns rest).out = s.out := rfl
@[simp] theorem State.setTurns_resp : (s.setTurns rest).resp = s.resp := rfl
@[simp] theorem State.setTurns_turns : (s.setTurns rest).turns = rest := rfl
end

section
variable (s : State)
@[simp] theorem State.resetBlock_buf : (s.resetBlock).buf = [] := rfl
@[simp] theorem State.resetBlock_pend : (s.resetBlock).pend = .idle := rfl
@[simp] theorem State.resetBlock_closed : (s.resetBlock).closed = false := rfl
@[simp] theorem State.resetBlock_overflow : (s.resetBlock).overflow = false := rfl
@[simp] theorem State.resetBlock_bufCap : (s.resetBlock).bufCap = s.bufCap := rfl
@[simp] theorem State.resetBlock_chk : (s.resetBlock).chk = 0 := rfl
@[simp] theorem State.resetBlock_cursor : (s.resetBlock).cursor = 0 := rfl
@[simp] theorem State.resetBlock_prevValid : (s.resetBlock).prevValid = false := rfl
@[simp] theorem State.resetBlock_prevWeek : (s.resetBlock).prevWeek = 0 := rfl
@[simp] theorem State.resetBlock_prevTow : (s.resetBlock).prevTow = 0 := rfl
@[simp] theorem State.resetBlock_prevX : (s.resetBlock).prevX = 0 := rfl
@[simp] theorem State.resetBlock_prevY : (s.resetBlock).prevY = 0 := rfl
@[simp] theorem State.resetBlock_prevZ : (s.resetBlock).prevZ = 0 := rfl
@[simp] theorem State.resetBlock_frmIn : (s.resetBlock).frmIn = [] := rfl
@[simp] theorem State.resetBlock_frmOut : (s.resetBlock).frmOut = [] := rfl
@[simp] theorem State.resetBlock_blk : (s.resetBlock).blk = [] := rfl
@[simp] theorem State.resetBlock_out : (s.resetBlock).out = [] := rfl
@[simp] theorem State.resetBlock_resp : (s.resetBlock).resp = none := rfl
@[simp] theorem State.resetBlock_turns : (s.resetBlock).turns = s.turns := rfl
end

end Sys2Proof.Machine
end

