-- ==== Sys2Proof/Laws/Scan.lean ====
section
/-! SUPPORT. What FIND_END and SCAN can do (R144, R145), without the bound on SCAN's turns. -/

namespace Sys2Proof.Machine

theorem findEnd_nil : findEnd [] = none := rfl

theorem findEnd_singleton (a : Byte) : findEnd [a] = none := rfl

theorem findEnd_cons_cons (a b : Byte) (s : List Byte) :
    findEnd (a :: b :: s) = if a = 0x0D ∧ b = 0x0A then some 0 else (findEnd (b :: s)).map (· + 1) := rfl

/-- The marker found lies inside the string. -/
theorem findEnd_bound {s : List Byte} {k : Nat} (h : findEnd s = some k) : k + 2 ≤ s.length := by
  induction s generalizing k with
  | nil => simp [findEnd_nil] at h
  | cons a s ih =>
    cases s with
    | nil => simp [findEnd_singleton] at h
    | cons b s =>
      rw [findEnd_cons_cons] at h
      split at h
      · cases h; simp
      · obtain ⟨j, hj, rfl⟩ := Option.map_eq_some_iff.mp h
        have := ih hj
        simp only [List.length_cons] at this ⊢
        omega

/-- Bytes after the string do not move the first marker. -/
theorem findEnd_append {s : List Byte} {k : Nat} (t : List Byte) (h : findEnd s = some k) :
    findEnd (s ++ t) = some k := by
  induction s generalizing k with
  | nil => simp [findEnd_nil] at h
  | cons a s ih =>
    cases s with
    | nil => simp [findEnd_singleton] at h
    | cons b s =>
      rw [findEnd_cons_cons] at h
      rw [List.cons_append, List.cons_append, findEnd_cons_cons]
      split at h
      · simp_all
      · rename_i hab
        obtain ⟨j, hj, rfl⟩ := Option.map_eq_some_iff.mp h
        have := ih hj
        rw [List.cons_append] at this
        rw [if_neg hab, this, Option.map_some]

/-- More turns than bytes change nothing. -/
theorem scanLoop_enough (n : Nat) {s : List Byte} (h : s.length ≤ n) : scanLoop n s = scanLoop s.length s := by
  suffices ∀ l, s.length ≤ l → l ≤ n → scanLoop n s = scanLoop l s from this _ le_rfl h
  induction n generalizing s with
  | zero => intro l _ hl; rw [Nat.le_zero.mp hl]
  | succ n ih =>
    intro l hs hl
    cases l with
    | zero =>
      obtain rfl := List.length_eq_zero_iff.mp (Nat.le_zero.mp hs)
      rfl
    | succ l =>
      simp only [scanLoop]
      cases hk : findEnd s with
      | none => rfl
      | some k =>
        have hb := findEnd_bound hk
        have hd : (s.drop (k + 2)).length ≤ l := by simp only [List.length_drop]; omega
        simp only
        split
        · rfl
        · exact ih (by omega) l hd (by omega)

/-- SCAN without its bound (R145): one cut, then the frame or the rest of the scan. -/
theorem scan_eq (s : List Byte) :
    scan s = match findEnd s with
      | none => (none, s)
      | some k =>
        if startsFrame (s.take (k + 2)) then (some (s.take (k + 2)), s.drop (k + 2)) else scan (s.drop (k + 2)) := by
  cases hk : findEnd s with
  | none => cases s <;> simp [scan, scanLoop, hk]
  | some k =>
    have hb := findEnd_bound hk
    obtain ⟨n, hn⟩ : ∃ n, s.length = n + 1 := ⟨s.length - 1, by omega⟩
    simp only [scan, hn, scanLoop, hk]
    split
    · rfl
    · exact scanLoop_enough n (by simp only [List.length_drop]; omega)

/-- Induction along SCAN's cuts. -/
theorem scan_induction {P : List Byte → Prop} (done : ∀ s, findEnd s = none → P s)
    (found : ∀ s k, findEnd s = some k → startsFrame (s.take (k + 2)) = true → P s)
    (discard : ∀ s k, findEnd s = some k → startsFrame (s.take (k + 2)) = false → P (s.drop (k + 2)) → P s)
    (s : List Byte) : P s := by
  obtain ⟨n, hn⟩ : ∃ n, s.length = n := ⟨_, rfl⟩
  induction n using Nat.strong_induction_on generalizing s with
  | _ n ih =>
    cases hk : findEnd s with
    | none => exact done s hk
    | some k =>
      have hb := findEnd_bound hk
      cases hf : startsFrame (s.take (k + 2)) with
      | true => exact found s k hk hf
      | false => exact discard s k hk hf (ih _ (by simp only [List.length_drop]; omega) _ rfl)

/-- What SCAN removes is taken from the head: the rest, with the frame before it if there is one, ends the input. -/
theorem scan_suffix (s : List Byte) : ∃ gone, s = gone ++ ((scan s).1.getD [] ++ (scan s).2) := by
  induction s using scan_induction with
  | done s h => exact ⟨[], by rw [scan_eq, h]; rfl⟩
  | found s k h hf => exact ⟨[], by rw [scan_eq, h]; simp [hf]⟩
  | discard s k h hf ih =>
    obtain ⟨gone, ih⟩ := ih
    refine ⟨s.take (k + 2) ++ gone, ?_⟩
    have : scan s = scan (s.drop (k + 2)) := by conv_lhs => rw [scan_eq, h]
                                                simp [hf]
    rw [this, List.append_assoc, ← ih, List.take_append_drop]

/-- Where SCAN finds no frame, no end marker is left (R146). -/
theorem scan_none_rest {s : List Byte} (h : (scan s).1 = none) : findEnd (scan s).2 = none := by
  induction s using scan_induction with
  | done s hk => rw [scan_eq, hk]; exact hk
  | found s k hk hf => rw [scan_eq, hk] at h; simp [hf] at h
  | discard s k hk hf ih =>
    have hs : scan s = scan (s.drop (k + 2)) := by conv_lhs => rw [scan_eq, hk]
                                                   simp [hf]
    rw [hs] at h ⊢
    exact ih h

end Sys2Proof.Machine
end

