-- ==== Sys2Proof/Laws/Ops.lean ====
section
/-! SUPPORT. Everything each shared operation can do, said once. -/

namespace Sys2Proof.Machine

/-- Room under BUF_CAP, as the rule has it (R141). -/
theorem hasRoom_iff (s : State) (chunk : List Byte) :
    s.hasRoom chunk = true ↔ ∀ cap, s.bufCap = some cap → s.buf.length + chunk.length ≤ cap := by
  unfold State.hasRoom
  cases s.bufCap <;> simp

/-- The three ends of a pass without data (R146, R150). -/
theorem waitOrFail_cases (p : Pend) (s : State) :
    (s.overflow = true ∧ s.waitOrFail p = { s with pend := .idle, resp := some (.error .bufferOverflow) }) ∨
    (s.overflow = false ∧ s.closed = true ∧ s.waitOrFail p = { s with pend := .idle, resp := some (.error .closed) }) ∨
    (s.overflow = false ∧ s.closed = false ∧ s.waitOrFail p = { s with pend := p, resp := none }) := by
  unfold State.waitOrFail
  cases ho : s.overflow <;> cases hc : s.closed <;> simp [State.raise, State.answer, State.setPend, ho, hc]

/-- The two ends of a pass of EXTRACT_FRAME (R146). -/
theorem framePass_cases (s : State) :
    (∃ f rest, scan s.buf = (some f, rest) ∧
      s.framePass = { s with buf := rest, pend := .idle, resp := some (.frame f) }) ∨
    (∃ rest, scan s.buf = (none, rest) ∧ s.framePass = { s with buf := rest }.waitOrFail .waitFrame) := by
  unfold State.framePass
  rcases h : scan s.buf with ⟨_ | f, rest⟩
  · exact .inr ⟨rest, rfl, rfl⟩
  · exact .inl ⟨f, rest, rfl, rfl⟩

/-- The two ends of a pass of EXTRACT_BYTES (R150). -/
theorem bytesPass_cases (count : BitVec Config.countWidth) (s : State) :
    (count.toNat ≤ s.buf.length ∧
      s.bytesPass count =
        { s with
          buf := s.buf.drop count.toNat
          pend := .idle
          resp := some (.bytes (s.buf.take count.toNat)) }) ∨
    (s.buf.length < count.toNat ∧ s.bytesPass count = s.waitOrFail (.waitBytes count)) := by
  unfold State.bytesPass
  by_cases h : count.toNat ≤ s.buf.length
  · exact .inl ⟨h, if_pos h⟩
  · exact .inr ⟨by omega, if_neg h⟩

/-- What a completion turn can do (R143). -/
theorem complete_cases (s : State) :
    (s.canComplete = false ∧ s.complete = s) ∨
    (s.canComplete = true ∧ s.pend = .waitFrame ∧ s.complete = s.framePass) ∨
    (∃ count, s.canComplete = true ∧ s.pend = .waitBytes count ∧ s.complete = s.bytesPass count) := by
  unfold State.complete
  cases hc : s.canComplete with
  | false => exact .inl ⟨rfl, rfl⟩
  | true =>
    cases hp : s.pend with
    | idle => simp [State.canComplete, hp] at hc
    | waitFrame => exact .inr (.inl ⟨rfl, rfl, rfl⟩)
    | waitBytes count => exact .inr (.inr ⟨count, rfl, rfl, rfl⟩)

/-- A pass without data changes `pend` and the response only. -/
theorem waitOrFail_frame (p : Pend) (s : State) :
    ∃ q r, s.waitOrFail p = { s with pend := q, resp := r } := by
  rcases waitOrFail_cases p s with ⟨-, h⟩ | ⟨-, -, h⟩ | ⟨-, -, h⟩ <;> exact ⟨_, _, h⟩

/-- A pass of EXTRACT_FRAME changes BUF, `pend` and the response only, and BUF only at its head. -/
theorem framePass_frame (s : State) :
    ∃ gone rest q r, s.buf = gone ++ rest ∧ s.framePass = { s with buf := rest, pend := q, resp := r } := by
  have hs := scan_suffix s.buf
  rcases framePass_cases s with ⟨f, rest, h, hp⟩ | ⟨rest, h, hp⟩
  · rw [h] at hs
    obtain ⟨gone, hg⟩ := hs
    exact ⟨gone ++ f, rest, _, _, by simpa using hg, hp⟩
  · rw [h] at hs
    obtain ⟨gone, hg⟩ := hs
    obtain ⟨q, r, hw⟩ := waitOrFail_frame .waitFrame { s with buf := rest }
    exact ⟨gone, rest, q, r, by simpa using hg, hp.trans hw⟩

/-- A pass of EXTRACT_BYTES changes BUF, `pend` and the response only, and BUF only at its head. -/
theorem bytesPass_frame (count : BitVec Config.countWidth) (s : State) :
    ∃ gone rest q r, s.buf = gone ++ rest ∧ s.bytesPass count = { s with buf := rest, pend := q, resp := r } := by
  rcases bytesPass_cases count s with ⟨-, h⟩ | ⟨-, h⟩
  · exact ⟨_, _, _, _, (List.take_append_drop _ _).symm, h⟩
  · obtain ⟨q, r, hw⟩ := waitOrFail_frame (.waitBytes count) s
    exact ⟨[], s.buf, q, r, rfl, h.trans hw⟩

/-- A completion turn changes BUF, `pend` and the response only, and BUF only at its head. -/
theorem complete_frame (s : State) :
    ∃ gone rest q r, s.buf = gone ++ rest ∧ s.complete = { s with buf := rest, pend := q, resp := r } := by
  rcases complete_cases s with ⟨-, h⟩ | ⟨-, -, h⟩ | ⟨count, -, -, h⟩
  · exact ⟨[], s.buf, s.pend, s.resp, rfl, h⟩
  · rw [h]; exact framePass_frame s
  · rw [h]; exact bytesPass_frame count s

/-- An absolute record: truncated, or emitted and passed (R173, R174, R175). -/
theorem absoluteStep_cases (N : Nat) (poi : Bool) (r : AbsoluteRecord) (s : State) :
    (N < s.cursor.toNat + 18 ∧ absoluteStep N poi r s = .error (.decodeTruncated s.cursor)) ∨
    (s.cursor.toNat + 18 ≤ N ∧ absoluteStep N poi r s = .ok ((s.emit (absoluteFix poi r)).advance 18)) := by
  by_cases h : N < s.cursor.toNat + 18
  · exact .inl ⟨h, by simp [absoluteStep, State.pastEnd, Config.absoluteSize, h]⟩
  · exact .inr ⟨by omega, by simp [absoluteStep, State.pastEnd, Config.absoluteSize, h]⟩

/-- A COMPACT record: truncated, without a predecessor, or emitted and passed (R173, R176, R179). -/
theorem compactStep_cases (N : Nat) (r : CompactRecord) (s : State) :
    (N < s.cursor.toNat + 8 ∧ compactStep N r s = .error (.decodeTruncated s.cursor)) ∨
    (s.cursor.toNat + 8 ≤ N ∧ s.prevValid = false ∧ compactStep N r s = .error (.decodeNoPredecessor s.cursor)) ∨
    (s.cursor.toNat + 8 ≤ N ∧ s.prevValid = true ∧
      compactStep N r s = .ok ((s.emit (compactFix r s)).advance 8)) := by
  by_cases h : N < s.cursor.toNat + 8
  · exact .inl ⟨h, by simp [compactStep, State.pastEnd, Config.compactSize, h]⟩
  · cases hv : s.prevValid
    · exact .inr (.inl ⟨by omega, rfl, by simp [compactStep, State.pastEnd, Config.compactSize, h, hv]⟩)
    · exact .inr (.inr ⟨by omega, rfl, by simp [compactStep, State.pastEnd, Config.compactSize, h, hv]⟩)

/-- An EMPTY record: truncated, or passed (R173, R177). -/
theorem emptyStep_cases (N : Nat) (s : State) :
    (N < s.cursor.toNat + 2 ∧ emptyStep N s = .error (.decodeTruncated s.cursor)) ∨
    (s.cursor.toNat + 2 ≤ N ∧ emptyStep N s = .ok (s.advance 2)) := by
  by_cases h : N < s.cursor.toNat + 2
  · exact .inl ⟨h, by simp [emptyStep, State.pastEnd, Config.emptySize, h]⟩
  · exact .inr ⟨by omega, by simp [emptyStep, State.pastEnd, Config.emptySize, h]⟩

end Sys2Proof.Machine
end

