-- ==== Sys2Proof/Laws/Parse.lean ====
section
/-! SUPPORT. Reading a record, taking its step, and the pass of PARSE without the bound on its turns. -/

namespace Sys2Proof

/-- An 18-byte record is read exactly where there are 18 bytes. -/
theorem decodeAbsolute_some {bs rest : List Byte} {r : AbsoluteRecord} (h : decodeAbsolute bs = some (r, rest)) :
    bs.length = rest.length + 18 ∧ rest = bs.drop 18 := by
  unfold decodeAbsolute at h
  split at h
  · cases h; simp
  · cases h

/-- An 8-byte record is read exactly where there are 8 bytes. -/
theorem decodeCompact_some {bs rest : List Byte} {r : CompactRecord} (h : decodeCompact bs = some (r, rest)) :
    bs.length = rest.length + 8 ∧ rest = bs.drop 8 := by
  unfold decodeCompact at h
  split at h
  · cases h; simp
  · cases h

/-- A 2-byte record is read exactly where there are 2 bytes. -/
theorem decodeEmpty_some {bs rest : List Byte} {r : EmptyRecord} (h : decodeEmpty bs = some (r, rest)) :
    bs.length = rest.length + 2 ∧ rest = bs.drop 2 := by
  unfold decodeEmpty at h
  split at h
  · cases h; simp
  · cases h

/-- Where no 18-byte record is read there are fewer than 18 bytes; likewise below for 8 and for 2. -/
theorem decodeAbsolute_none {bs : List Byte} (h : decodeAbsolute bs = none) : bs.length < 18 := by
  by_contra hl
  iterate 18 (cases bs with | nil => simp at hl | cons b bs => ?_)
  simp [decodeAbsolute] at h

theorem decodeCompact_none {bs : List Byte} (h : decodeCompact bs = none) : bs.length < 8 := by
  by_contra hl
  iterate 8 (cases bs with | nil => simp at hl | cons b bs => ?_)
  simp [decodeCompact] at h

theorem decodeEmpty_none {bs : List Byte} (h : decodeEmpty bs = none) : bs.length < 2 := by
  by_contra hl
  iterate 2 (cases bs with | nil => simp at hl | cons b bs => ?_)
  simp [decodeEmpty] at h

/-- Bytes a record takes from the block: its kind's length (R92), and of a reserved kind the header alone. -/
def LogRecord.size : LogRecord → Nat
  | .full _ => 18
  | .pointOfInterest _ => 18
  | .compact _ => 8
  | .empty _ => 2
  | .reserved0 _ | .reserved1 _ | .reserved5 _ | .reserved6 _ => 1

theorem fits_ok {α : Type} {wrap : α → LogRecord} {o : Option (α × List Byte)} {r : LogRecord} {rest : List Byte}
    (h : fits wrap o = .ok (r, rest)) : ∃ a, r = wrap a ∧ o = some (a, rest) := by
  unfold fits at h
  split at h
  · cases h; exact ⟨_, rfl, rfl⟩
  · cases h

/-- The kind chooses the reader (R91, R93). -/
theorem decodeRecord_cons (h : Byte) (rest : List Byte) :
    decodeRecord (h :: rest) = match kindOf h with
      | .full => fits .full (decodeAbsolute (h :: rest))
      | .pointOfInterest => fits .pointOfInterest (decodeAbsolute (h :: rest))
      | .compact => fits .compact (decodeCompact (h :: rest))
      | .empty => fits .empty (decodeEmpty (h :: rest))
      | .reserved0 => .ok (.reserved0 (h.extractLsb' 0 5), rest)
      | .reserved1 => .ok (.reserved1 (h.extractLsb' 0 5), rest)
      | .reserved5 => .ok (.reserved5 (h.extractLsb' 0 5), rest)
      | .reserved6 => .ok (.reserved6 (h.extractLsb' 0 5), rest) := rfl

/-- Reading a record takes its length from the block and leaves the bytes after it. -/
theorem decodeRecord_ok {bs rest : List Byte} {r : LogRecord} (h : decodeRecord bs = .ok (r, rest)) :
    bs.length = rest.length + r.size ∧ rest = bs.drop r.size := by
  cases bs with
  | nil => cases h
  | cons b bs =>
    rw [decodeRecord_cons] at h
    split at h
    · obtain ⟨a, rfl, ha⟩ := fits_ok h; exact decodeAbsolute_some ha
    · obtain ⟨a, rfl, ha⟩ := fits_ok h; exact decodeAbsolute_some ha
    · obtain ⟨a, rfl, ha⟩ := fits_ok h; exact decodeCompact_some ha
    · obtain ⟨a, rfl, ha⟩ := fits_ok h; exact decodeEmpty_some ha
    all_goals cases h; exact ⟨rfl, rfl⟩

theorem LogRecord.size_pos (r : LogRecord) : 1 ≤ r.size := by cases r <;> simp [LogRecord.size]

/-- Reading a record leaves fewer bytes. -/
theorem decodeRecord_shorter {bs rest : List Byte} {r : LogRecord} (h : decodeRecord bs = .ok (r, rest)) :
    rest.length < bs.length := by
  have := (decodeRecord_ok h).1
  have := r.size_pos
  omega

namespace Machine

/-- More turns than bytes change nothing. -/
theorem parseLoop_enough (N n : Nat) {bs : List Byte} (h : bs.length ≤ n) (s : State) :
    parseLoop N n bs s = parseLoop N bs.length bs s := by
  suffices ∀ l, bs.length ≤ l → l ≤ n → parseLoop N n bs s = parseLoop N l bs s from this _ le_rfl h
  induction n generalizing bs s with
  | zero => intro l _ hl; rw [Nat.le_zero.mp hl]
  | succ n ih =>
    intro l hs hl
    cases bs with
    | nil => cases l <;> rfl
    | cons b bs =>
      cases l with
      | zero => simp at hs
      | succ l =>
        simp only [parseLoop]
        split
        · rfl
        · rename_i r after hd
          have hlt := decodeRecord_shorter hd
          split
          · rfl
          · exact ih (by omega) _ l (by omega) (by omega)

/-- The rest of a pass over a block of `N` bytes, from the bytes at the cursor on. -/
def pass (N : Nat) (bs : List Byte) (s : State) : State := parseLoop N bs.length bs s

theorem pass_nil (N : Nat) (s : State) : pass N [] s = s.finishPass := rfl

/-- The pass without its bound (R171): one record read, its step taken, then the rest of the pass. -/
theorem pass_cons (N : Nat) (b : Byte) (bs : List Byte) (s : State) :
    pass N (b :: bs) s = match decodeRecord (b :: bs) with
      | .error _ => s.raise (.decodeTruncated s.cursor)
      | .ok (r, after) =>
        match recordStep N r s with
        | .error e => s.raise e
        | .ok t => pass N after t := by
  simp only [pass, List.length_cons, parseLoop]
  cases hd : decodeRecord (b :: bs) with
  | error e => rfl
  | ok p =>
    obtain ⟨r, after⟩ := p
    have hlt : after.length < bs.length + 1 := decodeRecord_shorter hd
    cases hr : recordStep N r s with
    | error e => simp only [hr]
    | ok t => simp only [hr]; exact parseLoop_enough N bs.length (by omega) t

/-- PARSE as a pass from a fresh start (R171). -/
theorem execParse_eq {B : List Byte} (h : B.length < 2 ^ 32) (s : State) :
    execParse B s = .next (pass B.length B s.startPass) := by
  unfold execParse pass
  exact if_pos h

/-- What a record step can do: an error at the cursor with nothing changed, or the decoder's registers moved on. -/
theorem recordStep_cases (N : Nat) (r : LogRecord) (s : State) :
    (∃ e, recordStep N r s = .error e ∧
      (e = .decodeReservedHeader s.cursor ∨ e = .decodeTruncated s.cursor ∨ e = .decodeNoPredecessor s.cursor)) ∨
    (∃ f, recordStep N r s = .ok ((s.emit f).advance r.size) ∧ s.cursor.toNat + r.size ≤ N ∧ 8 ≤ r.size) ∨
    (recordStep N r s = .ok (s.advance r.size) ∧ s.cursor.toNat + r.size ≤ N ∧ r.size = 2) := by
  cases r with
  | full r =>
    rcases absoluteStep_cases N false r s with ⟨-, h⟩ | ⟨hN, h⟩
    · exact .inl ⟨_, h, .inr (.inl rfl)⟩
    · exact .inr (.inl ⟨_, h, hN, by simp [LogRecord.size]⟩)
  | pointOfInterest r =>
    rcases absoluteStep_cases N true r s with ⟨-, h⟩ | ⟨hN, h⟩
    · exact .inl ⟨_, h, .inr (.inl rfl)⟩
    · exact .inr (.inl ⟨_, h, hN, by simp [LogRecord.size]⟩)
  | compact r =>
    rcases compactStep_cases N r s with ⟨-, h⟩ | ⟨-, -, h⟩ | ⟨hN, -, h⟩
    · exact .inl ⟨_, h, .inr (.inl rfl)⟩
    · exact .inl ⟨_, h, .inr (.inr rfl)⟩
    · exact .inr (.inl ⟨_, h, hN, by simp [LogRecord.size]⟩)
  | empty r =>
    rcases emptyStep_cases N s with ⟨-, h⟩ | ⟨hN, h⟩
    · exact .inl ⟨_, h, .inr (.inl rfl)⟩
    · exact .inr (.inr ⟨h, hN, rfl⟩)
  | reserved0 | reserved1 | reserved5 | reserved6 => exact .inl ⟨_, rfl, .inl rfl⟩

/-- A record as an instruction is its step over the state's block. -/
theorem exec_toInstr (r : LogRecord) (s : State) :
    exec r.toInstr s = recordOutcome s (recordStep s.blk.length r s) := by
  cases r <;> rfl

/-- The bytes of a pass: what is left from the cursor on. An induction over the records of a pass. -/
theorem pass_induction {P : List Byte → State → Prop} (N : Nat)
    (done : ∀ s, P [] s)
    (unread : ∀ b bs s e, decodeRecord (b :: bs) = .error e → P (b :: bs) s)
    (failed : ∀ b bs s r after e, decodeRecord (b :: bs) = .ok (r, after) → recordStep N r s = .error e → P (b :: bs) s)
    (taken : ∀ b bs s r after t, decodeRecord (b :: bs) = .ok (r, after) → recordStep N r s = .ok t → P after t →
      P (b :: bs) s)
    (bs : List Byte) (s : State) : P bs s := by
  obtain ⟨n, hn⟩ : ∃ n, bs.length = n := ⟨_, rfl⟩
  induction n using Nat.strong_induction_on generalizing bs s with
  | _ n ih =>
    cases bs with
    | nil => exact done s
    | cons b bs =>
      cases hd : decodeRecord (b :: bs) with
      | error e => exact unread b bs s e hd
      | ok p =>
        obtain ⟨r, after⟩ := p
        cases hr : recordStep N r s with
        | error e => exact failed b bs s r after e hd hr
        | ok t => exact taken b bs s r after t hd hr (ih _ (by have := decodeRecord_shorter hd; omega) after t rfl)

/-- The decoder's part of the state: what a pass may change. -/
abbrev SameOutsideDecoder (s t : State) : Prop :=
  t.buf = s.buf ∧ t.pend = s.pend ∧ t.closed = s.closed ∧ t.overflow = s.overflow ∧ t.bufCap = s.bufCap ∧
    t.chk = s.chk ∧ t.frmIn = s.frmIn ∧ t.frmOut = s.frmOut ∧ t.blk = s.blk ∧ t.turns = s.turns

theorem recordStep_outside {N : Nat} {r : LogRecord} {s t : State} (h : recordStep N r s = .ok t) :
    SameOutsideDecoder s t := by
  rcases recordStep_cases N r s with ⟨e, he, -⟩ | ⟨f, hf, -⟩ | ⟨hf, -⟩
  · rw [he] at h; cases h
  · rw [hf] at h; cases h; simp [SameOutsideDecoder]
  · rw [hf] at h; cases h; simp [SameOutsideDecoder]

/-- A pass changes the decoder and the response only (R170). -/
theorem pass_outside (N : Nat) (bs : List Byte) (s : State) : SameOutsideDecoder s (pass N bs s) := by
  induction bs, s using pass_induction N with
  | done s => simp [pass_nil, SameOutsideDecoder]
  | unread b bs s e hd => rw [pass_cons, hd]; simp [SameOutsideDecoder]
  | failed b bs s r after e hd hr => rw [pass_cons, hd]; simp [hr, SameOutsideDecoder]
  | taken b bs s r after t hd hr ih =>
    rw [pass_cons, hd]
    simp only [hr]
    obtain ⟨h1, h2, h3, h4, h5, h6, h7, h8, h9, h10⟩ := recordStep_outside hr
    simpa only [SameOutsideDecoder, h1, h2, h3, h4, h5, h6, h7, h8, h9, h10] using ih

end Machine

end Sys2Proof
end

