-- ==== Sys2Proof/Laws/Step.lean ====
section
/-! SUPPORT. Everything a request, an instruction and a step can do, said once each. -/

namespace Sys2Proof.Machine

/-! ### Delivering an operand -/

/-- Delivery writes the two operand spaces only (R30). -/
theorem deliver_eq (i : Instr) (s : State) : ∃ f b, s.deliver i = { s with frmIn := f, blk := b } := by
  cases i <;> exact ⟨_, _, rfl⟩

@[simp] theorem deliver_decode (F : List Byte) (s : State) : s.deliver (.decode F) = { s with frmIn := F } := rfl

@[simp] theorem deliver_parse (B : List Byte) (s : State) : s.deliver (.parse B) = { s with blk := B } := rfl

/-- The other instructions have no operand space. -/
theorem deliver_other {i : Instr} (hd : ∀ F, i ≠ .decode F) (hp : ∀ B, i ≠ .parse B) (s : State) : s.deliver i = s := by
  cases i with
  | decode F => exact absurd rfl (hd F)
  | parse B => exact absurd rfl (hp B)
  | _ => rfl

/-! ### A request -/

/-- The instruction a select code stands for (R80). -/
theorem decodeRequest_eq (q : Request) :
    decodeRequest q =
      if q.op = 0 then .ok (.encode q.id q.data)
      else if q.op = 1 then .ok (.decode q.data)
      else if q.op = 2 then .ok (.append q.data)
      else if q.op = 3 then .ok .extractFrame
      else if q.op = 4 then .ok (.extractBytes q.count)
      else if q.op = 5 then .ok .cancel
      else if q.op = 6 then .ok .clear
      else if q.op = 7 then if q.data.length < 2 ^ 32 then .ok (.parse q.data) else .error .blockTooLong
      else .ok (.reservedOp (q.op.extractLsb' 0 3)) := by
  obtain ⟨⟨op, hop⟩, id, count, data⟩ := q
  have hop' : op < 16 := hop
  interval_cases op <;> rfl

/-- The only request the decoder rejects (R53). -/
theorem decodeRequest_error {q : Request} {r : RequestReject} (h : decodeRequest q = .error r) :
    q.op = 7 ∧ 2 ^ 32 ≤ q.data.length := by
  rw [decodeRequest_eq] at h
  split_ifs at h
  exact ⟨by assumption, by omega⟩

/-! ### The instructions -/

/-- The two ends of ENCODE (R121, R122). -/
theorem execEncode_cases (id : Byte) (body : List Byte) (s : State) :
    (65534 < body.length ∧ execEncode id body s = .next (s.raise (.lengthOverflow body.length))) ∨
    (body.length ≤ 65534 ∧
      execEncode id body s = .next
        { s with
          chk := chkOf id body
          frmOut := encodeFrame ⟨id, body, chkOf id body⟩
          resp := some (.encoded (encodeFrame ⟨id, body, chkOf id body⟩)) }) := by
  by_cases h : 65534 < body.length
  · exact .inl ⟨h, if_pos h⟩
  · exact .inr ⟨by omega, if_neg h⟩

/-- What delivering a message writes (R124). -/
theorem deliverMessage_eq (f : WireFrame) (s : State) :
    s.deliverMessage f =
      { s with
        chk := chkOf f.identifier f.body
        resp := some (.decoded f.identifier f.body (checksumValid f)) } := rfl

/-- The two ends of DECODE (R124). -/
theorem execDecode_cases (F : List Byte) (s : State) :
    (∃ e, decodeFrame F = .error e ∧ execDecode F s = .next (s.raise (.malformedFrame e))) ∨
    (∃ f, decodeFrame F = .ok f ∧ execDecode F s = .next (s.deliverMessage f)) := by
  unfold execDecode
  cases h : decodeFrame F with
  | error e => exact .inl ⟨e, rfl, rfl⟩
  | ok f => exact .inr ⟨f, rfl, rfl⟩

/-- The two ends of FRAME (R7, R82). -/
theorem execFrame_cases (f : WireFrame) (s : State) :
    (65534 < f.body.length ∧ execFrame f s = .fault .noSuchFrame) ∨
    (f.body.length ≤ 65534 ∧ execFrame f s = .next (s.deliverMessage f)) := by
  by_cases h : f.body.length ≤ 65534
  · exact .inr ⟨h, if_pos (decide_eq_true h)⟩
  · exact .inl ⟨by omega, if_neg fun hw => h (of_decide_eq_true hw)⟩

/-- The two ends of APPEND (R141). -/
theorem execAppend_cases (chunk : List Byte) (s : State) :
    (s.hasRoom chunk = true ∧ execAppend chunk s = .next { s with buf := s.buf ++ chunk, resp := none }) ∨
    (s.hasRoom chunk = false ∧ execAppend chunk s = .next { s with overflow := true, resp := none }) := by
  unfold execAppend
  cases h : s.hasRoom chunk
  · exact .inr ⟨rfl, rfl⟩
  · exact .inl ⟨rfl, rfl⟩

/-- Busy, or a pass (R146, R152). -/
theorem execExtractFrame_cases (s : State) :
    (s.pend ≠ .idle ∧ execExtractFrame s = .next (s.raise .busy)) ∨
    (s.pend = .idle ∧ execExtractFrame s = .next s.framePass) := by
  by_cases h : s.pend = .idle
  · exact .inr ⟨h, if_neg (not_not_intro h)⟩
  · exact .inl ⟨h, if_pos h⟩

/-- Busy, or a pass (R150, R152). -/
theorem execExtractBytes_cases (count : BitVec Config.countWidth) (s : State) :
    (s.pend ≠ .idle ∧ execExtractBytes count s = .next (s.raise .busy)) ∨
    (s.pend = .idle ∧ execExtractBytes count s = .next (s.bytesPass count)) := by
  by_cases h : s.pend = .idle
  · exact .inr ⟨h, if_neg (not_not_intro h)⟩
  · exact .inl ⟨h, if_pos h⟩

/-- Busy, or everything emptied (R156). -/
theorem execClear_cases (s : State) :
    (s.pend ≠ .idle ∧ execClear s = .next (s.raise .busy)) ∨
    (s.pend = .idle ∧ execClear s = .next { s with buf := [], closed := false, overflow := false, resp := none }) := by
  by_cases h : s.pend = .idle
  · exact .inr ⟨h, if_neg (not_not_intro h)⟩
  · exact .inl ⟨h, if_pos h⟩

/-- PARSE of a block that BLK cannot hold (R53). -/
theorem execParse_far {B : List Byte} (h : ¬ B.length < 2 ^ 32) (s : State) : execParse B s = .fault .outsideBlk :=
  if_neg h

/-- A record instruction raises its error or takes its step. -/
theorem recordOutcome_next {s t : State} {o : Except Err State} (h : recordOutcome s o = .next t) :
    (∃ e, o = .error e ∧ t = s.raise e) ∨ o = .ok t := by
  cases o with
  | ok u => cases h; exact .inr rfl
  | error e => cases h; exact .inl ⟨e, rfl, rfl⟩

/-- A record instruction changes the decoder and the response only (R170). -/
theorem exec_toInstr_outside {r : LogRecord} {s t : State} (h : exec r.toInstr s = .next t) : SameOutsideDecoder s t := by
  rw [exec_toInstr] at h
  rcases recordOutcome_next h with ⟨e, -, rfl⟩ | h
  · simp [SameOutsideDecoder]
  · exact recordStep_outside h

/-! ### The step -/

/-- The next states a step can answer (R60). -/
theorem step_cases {s t : State} (h : step s = .next t) :
    (s.turns = [] ∧ t = s.complete) ∨
    (∃ agent q rest i, s.turns = .request agent q :: rest ∧ decodeRequest q = .ok i ∧
      exec i ((s.setTurns rest).deliver i) = .next t) ∨
    (∃ rest, s.turns = .complete :: rest ∧ t = (s.setTurns rest).complete) ∨
    (∃ rest, s.turns = .reset :: rest ∧ t = (s.setTurns rest).resetBlock) := by
  unfold step at h
  split at h
  · cases h; exact .inl ⟨by assumption, rfl⟩
  · rename_i agent q rest ht
    split at h
    · rename_i i hd
      exact .inr (.inl ⟨agent, q, rest, i, ht, hd, h⟩)
    · cases h
  · rename_i rest ht
    cases h; exact .inr (.inr (.inl ⟨rest, ht, rfl⟩))
  · rename_i rest ht
    cases h; exact .inr (.inr (.inr ⟨rest, ht, rfl⟩))

/-- One more step of a run. -/
theorem run_next {n : Nat} {s u : State} (h : step s = .next u) :
    Host.Core.run Sys2Proof.core (n + 1) s = Host.Core.run Sys2Proof.core n u := by
  simp only [Host.Core.run]
  rw [show Sys2Proof.core.step s = .next u from h]

end Sys2Proof.Machine
end

