-- ==== Sys2Proof/Laws/Memory.lean ====
section
/-! SUPPORT. The canonical form of the byte spaces: what `Memory.wf` says, that reset has it, and that every operation
over a byte space keeps it; reading after writing; the cells of a space. -/

namespace Sys2Proof.Machine

/-- The sizes of R30 and R53. -/
theorem Memory.wf_iff (s : State) :
    Memory.wf s = true ↔
      (∀ cap, s.bufCap = some cap → s.buf.length ≤ cap) ∧ s.blk.length < 2 ^ 32 ∧
        (s.frmOut = [] ∨ 8 ≤ s.frmOut.length ∧ s.frmOut.length ≤ 65542) := by
  have h : Config.blockBound = 2 ^ 32 := rfl
  simp only [Memory.wf, h, Bool.and_eq_true, Bool.or_eq_true, decide_eq_true_eq, List.isEmpty_iff, and_assoc]
  cases s.bufCap <;> simp

/-- Only the four fields it reads matter. -/
theorem Memory.wf_congr {s t : State} (hw : Memory.wf s = true) (hc : t.bufCap = s.bufCap)
    (hb : t.buf.length ≤ s.buf.length) (hk : t.blk = s.blk) (ho : t.frmOut = s.frmOut) : Memory.wf t = true := by
  rw [Memory.wf_iff] at hw ⊢
  rw [hc, hk, ho]
  exact ⟨fun cap h => hb.trans (hw.1 cap h), hw.2⟩

theorem Memory.wf_reset : Memory.wf State.reset = true := rfl

/-- BUF ++ s keeps the form where the chunk has room (R141). -/
theorem Memory.wf_bufAppend {s : State} {chunk : List Byte} (hw : Memory.wf s = true) (hr : s.hasRoom chunk = true) :
    Memory.wf (s.bufAppend chunk) = true := by
  rw [Memory.wf_iff] at hw ⊢
  refine ⟨fun cap h => ?_, hw.2⟩
  simpa using (hasRoom_iff s chunk).mp hr cap (by simpa using h)

theorem Memory.wf_bufDrop {s : State} (hw : Memory.wf s = true) (n : Nat) : Memory.wf (s.bufDrop n) = true :=
  wf_congr hw rfl (by simp) rfl rfl

theorem Memory.wf_setBuf {s : State} {rest : List Byte} (hw : Memory.wf s = true) (h : rest.length ≤ s.buf.length) :
    Memory.wf (s.setBuf rest) = true := wf_congr hw rfl h rfl rfl

/-- A completion turn keeps the form: it takes bytes from the head. -/
theorem Memory.wf_complete {s : State} (hw : Memory.wf s = true) : Memory.wf s.complete = true := by
  obtain ⟨gone, rest, q, r, hb, hp⟩ := complete_frame s
  rw [hp]
  exact wf_congr hw rfl (by simp [hb]) rfl rfl

/-- Delivery keeps the form where BLK can hold the block (R53). -/
theorem Memory.wf_deliver {s : State} {i : Instr} (hw : Memory.wf s = true) (hi : i.wellFormed = true) :
    Memory.wf (s.deliver i) = true := by
  rw [Memory.wf_iff] at hw ⊢
  cases i with
  | parse B => exact ⟨hw.1, of_decide_eq_true hi, hw.2.2⟩
  | _ => exact hw

/-- What the decoder takes from the command port is well formed (R53). -/
theorem decodeRequest_wellFormed {q : Request} {i : Instr} (h : decodeRequest q = .ok i) : i.wellFormed = true := by
  rw [decodeRequest_eq] at h
  split_ifs at h <;> cases h <;> first | rfl | (apply decide_eq_true; assumption)

/-- A frame's bytes: eight more than its body (R56). -/
theorem encodeFrame_length (f : WireFrame) : (encodeFrame f).length = f.body.length + 8 := by
  simp [encodeFrame, Config.startMarker, Config.endMarker]

/-- FRM_OUT as ENCODE writes it keeps the form (R56, R122). -/
theorem Memory.wf_frmOut {s : State} (hw : Memory.wf s = true) {f : WireFrame} (hf : f.body.length ≤ 65534) :
    Memory.wf { s with frmOut := encodeFrame f } = true := by
  rw [Memory.wf_iff] at hw ⊢
  exact ⟨hw.1, hw.2.1, .inr (by simp only [encodeFrame_length]; omega)⟩

theorem Memory.wf_resetBlock (s : State) : Memory.wf s.resetBlock = true := by
  rw [Memory.wf_iff]
  exact ⟨fun cap _ => by simp, by simp, .inl (by simp)⟩

/-! ### Bytes and cells -/

/-- Reading BUF after an append: the old bytes below, the chunk above (R55). -/
theorem readByte_bufAppend (s : State) (chunk : List Byte) (a : Nat) :
    (s.bufAppend chunk).readByte .buf a =
      if a < s.buf.length then s.readByte .buf a else chunk[a - s.buf.length]? := by
  simp only [State.readByte, State.bytesOf, State.bufAppend_buf, List.getElem?_append]

/-- Reading BUF after a removal at the head (R55). -/
theorem readByte_bufDrop (s : State) (n a : Nat) : (s.bufDrop n).readByte .buf a = s.readByte .buf (n + a) := by
  simp [State.readByte, State.bytesOf]

/-- The addresses of a space's cells rise without a gap. -/
theorem cellsFrom_addresses (a : Nat) (s : List Byte) : (cellsFrom a s).map (·.1) = List.range' a s.length := by
  induction s generalizing a with
  | nil => rfl
  | cons b s ih => simp [cellsFrom, ih, List.range'_succ]

/-- The bytes of a space's cells are the space. -/
theorem cellsFrom_bytes (a : Nat) (s : List Byte) : (cellsFrom a s).map (·.2) = s := by
  induction s generalizing a with
  | nil => rfl
  | cons b s ih => simp [cellsFrom, ih]

/-- The canonical form as pairs: strictly rising addresses. -/
theorem cells_rising (s : State) (space : Space) : (s.cells space).Pairwise (·.1 < ·.1) := by
  rw [← List.pairwise_map (f := Prod.fst) (R := (· < ·)), State.cells, cellsFrom_addresses]
  exact List.pairwise_lt_range'

end Sys2Proof.Machine
end

