-- ==== Sys2Proof/Laws/PerInstr.lean ====
section
/-! SUPPORT. One statement about every instruction as syntax: its encoding carries its row's select code, or has its
row's number of bytes (R80, R92, R94, R56). -/

namespace Sys2Proof.Laws.Sized

/-- The select code of an operation's row (R80). -/
def selectCode : Instr → Option Nat
  | .encode _ _ => some 0
  | .decode _ => some 1
  | .append _ => some 2
  | .extractFrame => some 3
  | .extractBytes _ => some 4
  | .cancel => some 5
  | .clear => some 6
  | .parse _ => some 7
  | .reservedOp low => some (8 + low.toNat)
  | .full _ | .pointOfInterest _ | .compact _ | .empty _ => none
  | .reservedKind0 _ | .reservedKind1 _ | .reservedKind5 _ | .reservedKind6 _ | .frame _ => none

/-- The bytes of a record's or a frame's row: 18, 18, 8, 2 (R92), the header of a reserved kind (R94), eight more than the
body (R56). -/
def byteCount : Instr → Option Nat
  | .full _ | .pointOfInterest _ => some 18
  | .compact _ => some 8
  | .empty _ => some 2
  | .reservedKind0 _ | .reservedKind1 _ | .reservedKind5 _ | .reservedKind6 _ => some 1
  | .frame f => some (f.body.length + 8)
  | .encode _ _ | .decode _ | .append _ | .extractFrame | .extractBytes _ | .cancel | .clear | .parse _
  | .reservedOp _ => none

/-- What the family says of an instruction. -/
def Statement (i : Instr) : Prop :=
  match encode i with
  | .port q => selectCode i = some q.op.toNat
  | .record bytes => byteCount i = some bytes.length
  | .wire bytes => byteCount i = some bytes.length

theorem encode (id : Byte) (body : List Byte) : Statement (.encode id body) := rfl
theorem decode (frame : List Byte) : Statement (.decode frame) := rfl
theorem append (chunk : List Byte) : Statement (.append chunk) := rfl
theorem extractFrame : Statement .extractFrame := rfl
theorem extractBytes (count : BitVec Config.countWidth) : Statement (.extractBytes count) := rfl
theorem cancel : Statement .cancel := rfl
theorem clear : Statement .clear := rfl
theorem parse (block : List Byte) : Statement (.parse block) := rfl
theorem reservedOp (low : BitVec 3) : Statement (.reservedOp low) := by
  unfold Statement
  simp only [Sys2Proof.encode, selectCode, request, BitVec.toNat_append]
  revert low
  decide
theorem full (r : AbsoluteRecord) : Statement (.full r) := rfl
theorem pointOfInterest (r : AbsoluteRecord) : Statement (.pointOfInterest r) := rfl
theorem compact (r : CompactRecord) : Statement (.compact r) := rfl
theorem empty (r : EmptyRecord) : Statement (.empty r) := rfl
theorem reservedKind0 (low : BitVec 5) : Statement (.reservedKind0 low) := rfl
theorem reservedKind1 (low : BitVec 5) : Statement (.reservedKind1 low) := rfl
theorem reservedKind5 (low : BitVec 5) : Statement (.reservedKind5 low) := rfl
theorem reservedKind6 (low : BitVec 5) : Statement (.reservedKind6 low) := rfl
theorem frame (f : WireFrame) : Statement (.frame f) := congrArg some (Machine.encodeFrame_length f).symm

end Sys2Proof.Laws.Sized
end

