-- ==== Sys2Proof/Laws/Session.lean ====
section
/-! SUPPORT. What an event does to the Session's procedures: each expected transition, the ends, and that nothing else is
left unresolved. -/

namespace Sys2Proof.Machine.Session

variable {p : Procedure}

@[simp] theorem Call.receive_phase (c : Call) (r : Response) :
    (c.receive r).phase = c.phase.onResponse c.procedure r := rfl

@[simp] theorem Call.receive_procedure (c : Call) (r : Response) : (c.receive r).procedure = c.procedure := rfl

@[simp] theorem Call.flushed_phase (c : Call) : c.flushed.phase = c.phase.onFlushed := rfl

@[simp] theorem Call.flushed_procedure (c : Call) : c.flushed.procedure = c.procedure := rfl

@[simp] theorem Call.transportFailed_phase (c : Call) :
    c.transportFailed.phase = if c.phase.over then c.phase else .failed .transportFailure := rfl

@[simp] theorem onResponse_sending (f : List Byte) : Phase.sending.onResponse p (.encoded f) = .writing f := rfl

@[simp] theorem onFlushed_writing (f : List Byte) : (Phase.writing f).onFlushed = .awaitingFirst := rfl

@[simp] theorem onResponse_awaitingFirst (f : List Byte) :
    Phase.awaitingFirst.onResponse p (.frame f) = .decodingFirst f := rfl

@[simp] theorem onResponse_decodingFirst (f : List Byte) (id : Byte) (body : List Byte) (v : Bool) :
    (Phase.decodingFirst f).onResponse p (.decoded id body v) =
      if preliminary id body then .awaitingSecond else p.judge id body := rfl

@[simp] theorem onResponse_awaitingSecond (f : List Byte) :
    Phase.awaitingSecond.onResponse p (.frame f) = .decodingSecond f := rfl

@[simp] theorem onResponse_decodingSecond (f : List Byte) (id : Byte) (body : List Byte) (v : Bool) :
    (Phase.decodingSecond f).onResponse p (.decoded id body v) = p.judge id body := rfl

@[simp] theorem onResponse_awaitingReply (f : List Byte) :
    Phase.awaitingReply.onResponse p (.frame f) = .decodingReply f := rfl

@[simp] theorem onResponse_decodingReply (f : List Byte) (id : Byte) (body : List Byte) (v : Bool) :
    (Phase.decodingReply f).onResponse p (.decoded id body v) = p.replied id body := rfl

@[simp] theorem onResponse_awaitingBulk (n : BitVec 16) (d : List Byte) :
    (Phase.awaitingBulk n).onResponse p (.bytes d) = .block (d.take (dataLength n)) := rfl

@[simp] theorem onResponse_block (d : List Byte) (fixes : List Fix) :
    (Phase.block d).onResponse p (.records fixes) = .records fixes := rfl

/-- A procedure asks for nothing exactly at its ends. -/
theorem over_iff (c : Call) : c.phase.over = true ↔ c.request = none ∧ c.write = none := by
  rcases c with ⟨p, ph⟩
  cases ph <;> simp [Phase.over, Call.request, Call.write]

/-- An end ignores every response. -/
theorem onResponse_over {ph : Phase} (h : ph.over = true) (r : Response) : ph.onResponse p r = ph := by
  cases ph <;> first | rfl | cases h

/-- The reading of the matching or failing acknowledgement is a phase of its own or a failure. -/
theorem judge_cases (p : Procedure) (id : Byte) (body : List Byte) :
    p.judge id body = p.afterAck ∨ p.judge id body = .failed .protocolViolation := by
  unfold Procedure.judge
  split
  · exact .inl rfl
  · exact .inr rfl

/-- The last frame of GET_VERSION and GET_STATUS ends the procedure. -/
theorem replied_over (p : Procedure) (id : Byte) (body : List Byte) : (p.replied id body).over = true := by
  cases p <;> simp only [Procedure.replied] <;> try rfl
  · split
    · cases versionOf body <;> rfl
    · rfl
  · split
    · cases statusOf body <;> rfl
    · rfl

end Sys2Proof.Machine.Session
end

