-- ==== Sys2Proof/Tests/Slice0.lean ====
section
/-! SUPPORT. Small tests, their expected results from spec/95_test_vectors.md (the vector named in each comment) or worked
out by hand from the encoding tables of spec/30_encoding.md; then one witness for the hypotheses of each obligation that
has hypotheses. -/

namespace Sys2Proof.Tests

open Sys2Proof.Machine Sys2Proof.Claims

/-- The next state, if there is one. -/
def after : Host.Outcome State Fault Refusal → Option State
  | .next s => some s
  | .fault _ => none
  | .refused _ => none

/-- What an instruction answers. -/
def answer (i : Instr) (s : State) : Option (Option Response) := (after (exec i s)).map (·.resp)

/-- BUF and `pend` after an instruction. -/
def left (i : Instr) (s : State) : Option (List Byte × Pend) := (after (exec i s)).map fun t => (t.buf, t.pend)

/-- So many zero bytes, never written out. -/
@[irreducible] def zeros (n : Nat) : List Byte := List.replicate n 0

theorem zeros_length (n : Nat) : (zeros n).length = n := by
  unfold zeros
  exact List.length_replicate

/-- The block after reset with bytes in BUF. -/
def buffered (bytes : List Byte) : State := { State.reset with buf := bytes }

/-- The same with a pending extraction. -/
def waiting (p : Pend) (bytes : List Byte) : State := { State.reset with buf := bytes, pend := p }

/-- A block under the cursor. -/
def reading (blk : List Byte) (cursor : Word32) : State := { State.reset with blk := blk, cursor := cursor }

/-! ### The records and frames the vectors use -/

def recF1 : List Byte :=
  [0x40, 0x7B, 0xE3, 0x85, 0x54, 0x64, 0x7D, 0xC7, 0xF0, 0x43, 0xD4, 0x6D, 0x19, 0xC2, 0xFF, 0xFF, 0xFF, 0xFF]
def recE : List Byte :=
  [0xFF, 0xFF]
def recC1 : List Byte :=
  [0x80, 0x39, 0x00, 0x05, 0xFF, 0x5F, 0xF2, 0x00]
def recC2 : List Byte :=
  [0x83, 0xFF, 0xFF, 0xFF, 0x00, 0x40, 0x0F, 0xFF]
def recP : List Byte :=
  [0x7C, 0x00, 0xFF, 0xFF, 0x93, 0xA7, 0xFF, 0xFF, 0x7F, 0xFF, 0x00, 0x00, 0x80, 0x00, 0x00, 0x00, 0x00, 0x00]
def recC3 : List Byte :=
  [0x80, 0x00, 0x00, 0x01, 0x00, 0x7F, 0xF0, 0x05]
def frameE1 : List Byte :=
  [0xA0, 0xA1, 0x00, 0x01, 0x02, 0x02, 0x0D, 0x0A]
def frameE3 : List Byte :=
  [0xA0, 0xA1, 0x00, 0x02, 0x83, 0x02, 0x81, 0x0D, 0x0A]
def frameE7 : List Byte :=
  [0xA0, 0xA1, 0x00, 0x03, 0x05, 0x0D, 0x0A, 0x02, 0x0D, 0x0A]
/-- Vector D2. -/
def fixF1 : Fix := ⟨false, 123, 901, 345678, BitVec.ofInt 32 (-264012345), BitVec.ofInt 32 (432198765), BitVec.ofInt 32 (-1)⟩
/-- Vector D3. -/
def fixC1 : Fix := ⟨false, 57, 901, 345683, BitVec.ofInt 32 (-264012348), BitVec.ofInt 32 (432199276), BitVec.ofInt 32 (-513)⟩

/-! ### Well-formedness: what each check refuses -/

/-- R53: a block of `2^32` bytes is no operand; one byte less is. -/
theorem test_wellFormed_parse :
    (Instr.parse (zeros (2 ^ 32))).wellFormed = false ∧ (Instr.parse (zeros (2 ^ 32 - 1))).wellFormed = true := by
  simp only [Instr.wellFormed, zeros_length]
  decide

/-- R7: a frame of 65535 body bytes has no encoding; one byte less has. -/
theorem test_wellFormed_frame :
    (Instr.frame ⟨7, zeros 65535, 7⟩).wellFormed = false ∧ (Instr.frame ⟨7, zeros 65534, 7⟩).wellFormed = true := by
  simp only [Instr.wellFormed, WireFrame.wellFormed, zeros_length]
  decide

/-! ### Decoding -/

/-- R80, the eight operations. -/
theorem test_decode_operations :
    decodeRequest ⟨0x0, 2, 9, [1]⟩ = .ok (.encode 2 [1]) ∧ decodeRequest ⟨0x1, 2, 9, [1]⟩ = .ok (.decode [1]) ∧
    decodeRequest ⟨0x2, 2, 9, [1]⟩ = .ok (.append [1]) ∧ decodeRequest ⟨0x3, 2, 9, [1]⟩ = .ok .extractFrame ∧
    decodeRequest ⟨0x4, 2, 9, [1]⟩ = .ok (.extractBytes 9) ∧ decodeRequest ⟨0x5, 2, 9, [1]⟩ = .ok .cancel ∧
    decodeRequest ⟨0x6, 2, 9, [1]⟩ = .ok .clear ∧ decodeRequest ⟨0x7, 2, 9, [1]⟩ = .ok (.parse [1]) := by decide

/-- R80, the reserved codes at both ends. -/
theorem test_decode_reservedOp :
    decodeRequest ⟨0x8, 0, 0, []⟩ = .ok (.reservedOp 0) ∧ decodeRequest ⟨0xF, 0, 0, []⟩ = .ok (.reservedOp 7) := by decide

/-- R93 over the eight header codes, the low bits all clear and all set. -/
theorem test_decode_kinds :
    [0x00, 0x20, 0x40, 0x60, 0x80, 0xA0, 0xC0, 0xE0].map kindOf =
      [.reserved0, .reserved1, .full, .pointOfInterest, .compact, .reserved5, .reserved6, .empty] ∧
    [0x1F, 0x3F, 0x5F, 0x7F, 0x9F, 0xBF, 0xDF, 0xFF].map kindOf =
      [.reserved0, .reserved1, .full, .pointOfInterest, .compact, .reserved5, .reserved6, .empty] := by decide

/-- T1, T4, M9: the record F1, field by field. -/
theorem test_decode_full :
    decodeRecord recF1 = .ok (.full ⟨0, 123, 345678, 0, 901, BitVec.ofInt 32 (-264012345), 432198765, BitVec.ofInt 32 (-1)⟩, []) := by
  decide

/-- T3, T5, M5, M6: the record P, its ignored bits set. -/
theorem test_decode_pointOfInterest :
    decodeRecord recP = .ok (.pointOfInterest ⟨7, 0, 604799, 3, 1023, 2147483647, BitVec.ofInt 32 (-2147483648), 0⟩, []) := by
  decide

/-- K1, K2, K3: the three COMPACT records, with a byte after the first. -/
theorem test_decode_compact :
    decodeRecord (recC1 ++ [0x55]) = .ok (.compact ⟨0, 57, 5, 1021, 511, 0, 512⟩, [0x55]) ∧
    decodeRecord recC2 = .ok (.compact ⟨0, 1023, 65535, 1, 0, 3, 1023⟩, []) ∧
    decodeRecord recC3 = .ok (.compact ⟨0, 0, 1, 1, 1023, 0, 5⟩, []) := by decide

/-- K5, K6, K7: one bit set in each raw delta, its own field only. -/
theorem test_decode_compact_signs :
    decodeRecord [0x80, 0, 0x00, 0x00, 0x80, 0x00, 0x00, 0x00] = .ok (.compact ⟨0, 0, 0, 512, 0, 0, 0⟩, []) ∧
    decodeRecord [0x80, 0, 0x00, 0x00, 0x00, 0x20, 0x00, 0x00] = .ok (.compact ⟨0, 0, 0, 0, 512, 0, 0⟩, []) ∧
    decodeRecord [0x80, 0, 0x00, 0x00, 0x00, 0x00, 0x02, 0x00] = .ok (.compact ⟨0, 0, 0, 0, 0, 0, 512⟩, []) := by decide

/-- R104. -/
theorem test_decode_empty : decodeRecord [0xE1, 0x80, 0x00] = .ok (.empty ⟨1, 0x80⟩, [0x00]) := by decide

/-- R94, D12 to D14. -/
theorem test_decode_reservedKinds :
    decodeRecord [0x00] = .ok (.reserved0 0, []) ∧ decodeRecord [0x20, 0x00] = .ok (.reserved1 0, [0x00]) ∧
    decodeRecord [0xA1] = .ok (.reserved5 1, []) ∧ decodeRecord [0xDF] = .ok (.reserved6 31, []) := by decide

/-- X1, X4: the frame, a lone `0D` no end marker. -/
theorem test_decode_frame :
    decode (.wire frameE1) = .ok (.frame ⟨0x02, [], 0x02⟩) ∧
    decodeFrame [0xA0, 0xA1, 0x00, 0x02, 0x0D, 0x0D, 0x00, 0x0D, 0x0A] = .ok ⟨0x0D, [0x0D], 0x00⟩ := by decide

/-- M1 to M4, M8: the middle-endian order. -/
theorem test_me32 :
    me32 0x00 0x01 0x00 0x00 = 1 ∧ me32 0x01 0x00 0x00 0x00 = 256 ∧ me32 0x00 0x00 0x00 0x01 = 65536 ∧
    me32 0x00 0x00 0x01 0x00 = 16777216 ∧ me32 0x12 0x34 0x56 0x78 = 0x56781234 := by decide

/-- The values of R103's table. -/
theorem test_sext10 :
    ([0, 1, 511, 512, 513, 1021, 1023].map fun v => (sext10 v).toInt) = [0, 1, 511, -512, -511, -3, -1] := by decide

/-- The opcode table's words: an operation, a reserved code, each record kind, the frame. -/
theorem test_table_words :
    decodeTableWord 8 0x00 = some (.encode 0 []) ∧ decodeTableWord 8 0x07 = some (.parse []) ∧
    decodeTableWord 8 0x08 = some (.reservedOp 0) ∧ decodeTableWord 144 0x40 = some (.full ⟨0, 0, 0, 0, 0, 0, 0, 0⟩) ∧
    decodeTableWord 144 0x60 = some (.pointOfInterest ⟨0, 0, 0, 0, 0, 0, 0, 0⟩) ∧
    decodeTableWord 64 0x80 = some (.compact ⟨0, 0, 0, 0, 0, 0, 0⟩) ∧ decodeTableWord 16 0xE0 = some (.empty ⟨0, 0⟩) ∧
    decodeTableWord 8 0x20 = some (.reservedKind1 0) ∧ decodeTableWord 16 0xA0A1 = some (.frame ⟨0, [], 0⟩) := by decide

/-! ### The frame codec -/

/-- A2, A4, A6. -/
theorem test_chk :
    chkOf 0x83 [0x02] = 0x81 ∧ chkOf 0xFF [0xFF, 0x0F, 0xF0] = 0xFF ∧
    chkOf 0x80 [0x01, 0x00, 0x01, 0x01, 0x01, 0x00, 0x01, 0x03, 0x0B, 0x00, 0x0A, 0x03, 0x1A] = 0x9A := by decide

/-- E3. -/
theorem test_encode : answer (.encode 0x83 [0x02]) State.reset = some (some (.encoded frameE3)) := by decide

/-- E11: one byte too many. -/
theorem test_encode_overflow :
    exec (.encode 0x07 (zeros 65535)) State.reset = .next (State.reset.raise (.lengthOverflow 65535)) := by
  rcases execEncode_cases 0x07 (zeros 65535) State.reset with ⟨-, he⟩ | ⟨hl, -⟩
  · rw [zeros_length] at he; exact he
  · rw [zeros_length] at hl; omega

/-- X3, A9: a mismatch is data. -/
theorem test_decode_mismatch :
    answer (.decode [0xA0, 0xA1, 0x00, 0x01, 0x02, 0x03, 0x0D, 0x0A]) State.reset = some (some (.decoded 0x02 [] false)) ∧
    answer (.decode [0xA0, 0xA1, 0x00, 0x02, 0x83, 0x03, 0x81, 0x0D, 0x0A]) State.reset = some (some (.decoded 0x83 [0x03] false)) := by decide

/-- X5 to X8, X11, X12: the five checks. -/
theorem test_decode_checks :
    ([[0xA0, 0xA1, 0x00, 0x01, 0x02, 0x0D, 0x0A], [0xA1, 0xA0, 0x00, 0x01, 0x02, 0x02, 0x0D, 0x0A],
      [0xA0, 0xA1, 0x00, 0x00, 0x02, 0x02, 0x0D, 0x0A], [0xA0, 0xA1, 0x00, 0x02, 0x02, 0x02, 0x0D, 0x0A],
      [0xA0, 0xA1, 0x00, 0x01, 0x02, 0x02, 0x0D, 0x0B], [0xA0, 0xA1, 0x0D, 0x0A]].map fun F => answer (.decode F) State.reset) =
      [.tooShort, .startMarker, .zeroLength, .lengthMismatch, .endMarker, .tooShort].map
        fun c => some (some (.error (.malformedFrame c))) := by decide

/-- X2 as an instruction. -/
theorem test_frame : answer (.frame ⟨0x83, [0x02], 0x81⟩) State.reset = some (some (.decoded 0x83 [0x02] true)) := by decide

/-! ### The reassembly buffer -/

/-- B4, B6: discarded candidates, a valid frame among them. -/
theorem test_extractFrame_discards :
    (after (exec .extractFrame (buffered (([0x0D, 0x0A, 0x0D, 0x0A] : List Byte) ++ frameE1)))).map (fun t => (t.resp, t.buf)) =
      some (some (.frame frameE1), []) ∧
    (after (exec .extractFrame (buffered (([0x11, 0x22, 0x33] : List Byte) ++ frameE1 ++ frameE3)))).map (fun t => (t.resp, t.buf)) =
      some (some (.frame frameE3), []) := by decide

/-- B7, B8, B10: the wait keeps nothing of a discarded candidate; the cut at the first end marker. -/
theorem test_extractFrame_cuts :
    left .extractFrame (buffered (0x0D :: frameE1)) = some ([], .waitFrame) ∧
    left .extractFrame (buffered frameE7) = some ([0x02, 0x0D, 0x0A], .idle) ∧
    answer .extractFrame (buffered [0xA0, 0xA1, 0x0D, 0x0A, 0xFF]) = some (some (.frame [0xA0, 0xA1, 0x0D, 0x0A])) := by decide

/-- Y1, Y2. -/
theorem test_extractBytes :
    answer (.extractBytes 3) (buffered [1, 2, 3, 4, 5]) = some (some (.bytes [1, 2, 3])) ∧
    left (.extractBytes 3) (buffered [1, 2, 3, 4, 5]) = some ([4, 5], .idle) ∧
    left (.extractBytes 3) (buffered [4, 5]) = some ([4, 5], .waitBytes 3) := by decide

/-- Y9, Y10, Y14: data before the flags, BufferOverflow before Closed. -/
theorem test_extract_flags :
    answer .extractFrame { buffered frameE1 with closed := true } = some (some (.frame frameE1)) ∧
    answer .extractFrame { State.reset with closed := true } = some (some (.error .closed)) ∧
    answer .extractFrame { State.reset with closed := true, overflow := true } = some (some (.error .bufferOverflow)) := by
  decide

/-- Y3: the pending operation completes on the next completion turn. -/
theorem test_complete :
    (after (step { waiting (.waitBytes 3) [4, 5, 6, 7] with turns := [.complete] })).map (fun t => (t.resp, t.buf, t.pend)) =
      some (some (.bytes [4, 5, 6]), [7], .idle) := by decide

/-- Y11, Y16: a chunk over BUF_CAP is dropped whole; an empty one changes nothing. -/
theorem test_append :
    (after (exec (.append [4, 5]) { buffered [1, 2, 3] with bufCap := some 4 })).map (fun t => (t.buf, t.overflow)) =
      some ([1, 2, 3], true) ∧
    after (exec (.append []) (buffered [0xA0])) = some (buffered [0xA0]) := by decide

/-- Y6, Y7. -/
theorem test_busy :
    answer (.extractBytes 1) (waiting .waitFrame []) = some (some (.error .busy)) ∧
    answer .clear (waiting .waitFrame []) = some (some (.error .busy)) := by decide

/-- Y8: CANCEL, then the completion turn. -/
theorem test_cancel :
    (after (exec .cancel (waiting .waitFrame [0xA0, 0xA1]))).map (fun t => (t.complete.resp, t.complete.buf, t.complete.pend)) =
      some (some (.error .closed), [0xA0, 0xA1], .idle) := by decide

/-- Y15. -/
theorem test_clear :
    after (exec .clear { buffered [9] with overflow := true, closed := true }) = some State.reset := by decide

/-- R80, R220. -/
theorem test_reservedOp : answer (.reservedOp 2) State.reset = some (some (.error (.illegalOperation 10))) := by decide

/-! ### The record decoder -/

/-- D1 to D5. -/
theorem test_parse :
    answer (.parse []) State.reset = some (some (.records [])) ∧
    answer (.parse (recF1 ++ recC1)) State.reset = some (some (.records [fixF1, fixC1])) ∧
    answer (.parse (recF1 ++ recE ++ recC1)) State.reset = some (some (.records [fixF1, fixC1])) ∧
    answer (.parse (recE ++ recE ++ recE)) State.reset = some (some (.records [])) := by decide

/-- D7 to D15: the error and the offset of the offending header. -/
theorem test_parse_errors :
    ([recC1, recE ++ recC1, recF1 ++ recC1.take 7, [0xFF], [0x80, 0x00, 0x00], recF1 ++ [0x20, 0x00], [0x00], [0xA0, 0x00],
      recF1.take 17].map fun B => answer (.parse B) State.reset) =
      [.decodeNoPredecessor 0, .decodeNoPredecessor 2, .decodeTruncated 18, .decodeTruncated 0, .decodeTruncated 0,
        .decodeReservedHeader 18, .decodeReservedHeader 0, .decodeReservedHeader 0, .decodeTruncated 0].map
        fun e => some (some (.error e)) := by decide

/-- D2, and D6's first record, as instructions. -/
theorem test_full_pointOfInterest :
    (after (exec (.full ⟨0, 123, 345678, 0, 901, BitVec.ofInt 32 (-264012345), 432198765, BitVec.ofInt 32 (-1)⟩)
      (reading recF1 0))).map (fun t => (t.out, t.cursor, t.prevValid)) = some ([fixF1], 18, true) ∧
    (after (exec (.pointOfInterest ⟨7, 0, 604799, 3, 1023, 2147483647, BitVec.ofInt 32 (-2147483648), 0⟩)
      (reading recP 0))).map (·.out) = some [⟨true, 0, 1023, 604799, BitVec.ofInt 32 (2147483647), BitVec.ofInt 32 (-2147483648), BitVec.ofInt 32 (0)⟩] := by decide

/-- D6's second record: both coordinates wrap, the time of week passes the end of the week (R180). -/
theorem test_compact :
    (after (exec (.compact ⟨0, 0, 1, 1, 1023, 0, 5⟩)
      { reading (recP ++ recC3) 18 with
        prevValid := true, prevWeek := 1023, prevTow := 604799, prevX := 2147483647
        prevY := BitVec.ofInt 32 (-2147483648) })).map (fun t => (t.out, t.cursor)) =
      some ([⟨false, 0, 1023, 604800, BitVec.ofInt 32 (-2147483648), BitVec.ofInt 32 (2147483647), BitVec.ofInt 32 (5)⟩], 26) := by
  decide

/-- D8's record, D10's, D12's as instructions. -/
theorem test_record_errors :
    answer (.compact ⟨0, 57, 5, 1021, 511, 0, 512⟩) (reading (recE ++ recC1) 2) = some (some (.error (.decodeNoPredecessor 2))) ∧
    answer (.empty ⟨31, 0⟩) (reading [0xFF] 0) = some (some (.error (.decodeTruncated 0))) ∧
    answer (.reservedKind1 0) (reading (recF1 ++ [0x20, 0x00]) 18) = some (some (.error (.decodeReservedHeader 18))) := by decide

/-- R177. -/
theorem test_empty : after (exec (.empty ⟨31, 0xFF⟩) (reading recE 0)) = some (reading recE 2) := by decide

/-! ### The whole machine -/

/-- R33, R29. -/
theorem test_reset : State.reset.status = 0 ∧ (waiting (.waitBytes 3) [1]).status = 0x12 := by decide

/-- The first instruction after reset: an operation, a record, the frame. -/
theorem test_withFetchWord :
    (after (step (State.reset.withFetchWord 8 0x03))).map (·.pend) = some .waitFrame ∧
    (after (step (State.reset.withFetchWord 144 0x40))).map (fun t => (t.out.length, t.cursor)) = some (1, 18) ∧
    (after (step (State.reset.withFetchWord 16 0xA0A1))).map (·.resp) = some (some (.decoded 0 [] true)) := by decide

/-- R141 with the agent ignored (R245). -/
theorem test_step_agents :
    step { State.reset with turns := [.request .producer ⟨2, 0, 0, [7]⟩] } =
      step { State.reset with turns := [.request .closer ⟨2, 0, 0, [7]⟩] } := rfl

/-! ### Witnesses: for each obligation with hypotheses, values that meet them together, each clause at a boundary -/

/-- A refused request, a completed extraction, a run: what the witnesses below share. -/
def threeTurns : List Turn :=
  [.request .producer ⟨2, 0, 0, frameE1⟩, .request .consumer ⟨3, 0, 0, []⟩, .request .consumer ⟨1, 0, 0, frameE1⟩]

theorem test_hyp_EncodeGivesTheFrameOrLengthOverflow : (zeros 65534).length ≤ 65534 ∧ 65534 < (zeros 65535).length := by
  simp only [zeros_length]; decide

theorem test_hyp_EveryEncodedFrameHasTheFixedShape : (zeros 65534).length ≤ 65534 ∧ ([] : List Byte).length ≤ 65534 := by
  simp only [zeros_length]; decide

theorem test_hyp_ChecksumFoldsEveryByteOnceInAnyOrder : ([0x0D, 0x0A] : List Byte).Perm [0x0A, 0x0D] := by decide

/-- X5 to X8, X11, X1: a frame for each arm of the chain. -/
theorem test_hyp_DecodeMakesFiveChecksInOrder :
    let F1 : List Byte := [0xA0, 0xA1, 0x00, 0x01, 0x02, 0x0D, 0x0A]
    let F2 : List Byte := [0xA1, 0xA0, 0x00, 0x01, 0x02, 0x02, 0x0D, 0x0A]
    let F3 : List Byte := [0xA0, 0xA1, 0x00, 0x00, 0x02, 0x02, 0x0D, 0x0A]
    let F4 : List Byte := [0xA0, 0xA1, 0x00, 0x02, 0x02, 0x02, 0x0D, 0x0A]
    let F5 : List Byte := [0xA0, 0xA1, 0x00, 0x01, 0x02, 0x02, 0x0D, 0x0B]
    F1.length = 7 ∧ F2.length = 8 ∧ ¬ Starts F2 ∧ Starts F3 ∧ nb F3 2 * 256 + nb F3 3 = 0 ∧
      Starts F4 ∧ F4.length ≠ nb F4 2 * 256 + nb F4 3 + 7 ∧ Starts F5 ∧ F5.length = nb F5 2 * 256 + nb F5 3 + 7 ∧
      ¬ EndAt F5 (F5.length - 2) ∧ EndAt frameE1 (frameE1.length - 2) := by decide

theorem test_hyp_ChecksumMismatchIsData : (zeros 65534).length ≤ 65534 ∧ (0x03 : Byte) ≠ fold 0x02 [] := by
  simp only [zeros_length]; decide

theorem test_hyp_DecodeInvertsEncode : (zeros 65534).length ≤ 65534 := by rw [zeros_length]

/-- E3 with its first, its last, a body and its checksum byte changed; two body bytes changed alike. -/
theorem test_hyp_OneChangedByteIsDetected :
    ([0x02] : List Byte).length ≤ 65534 ∧ (0x80 : Byte) ≠ 0 ∧ 8 < ([0x02] : List Byte).length + 8 ∧
      (4 ≤ 4 ∧ 4 ≤ 4 + ([0x02] : List Byte).length) ∧ (4 ≤ 5 ∧ 5 ≤ 4 + ([0x02] : List Byte).length ∧ 5 ≠ 4) ∧
      6 = 5 + ([0x02] : List Byte).length ∧ 5 + ([0x02] : List Byte).length < 7 ∧ 3 < 4 := by decide

theorem test_hyp_FrameRowGivesWhatDecodeGives : (WireFrame.mk 7 (zeros 65534) 7).body.length ≤ 65534 := (zeros_length _).le

/-- B8: the frame EXTRACT_FRAME returns is given to DECODE. -/
theorem test_hyp_DecodeAfterExtractFailsOnlyOneThreeFour :
    ∃ t u, Returns (buffered frameE7) t (frameE7.take 7) ∧ exec (.decode (frameE7.take 7)) t = .next u :=
  ⟨_, _, ⟨rfl, .inl rfl⟩, rfl⟩

theorem test_hyp_CodecOperationsLeaveBufferAndDecoderAlone :
    ∃ t u v, exec (.encode 2 []) State.reset = .next t ∧ exec (.decode frameE1) State.reset = .next u ∧
      exec (.frame ⟨2, [], 2⟩) State.reset = .next v := ⟨_, _, _, rfl, rfl, rfl⟩

/-- B4 and B7 as candidates and remainders. -/
theorem test_hyp_ScanCutsTestsAndDiscards :
    Garbage [[0x0D, 0x0A], 0x0D :: frameE1] ∧ Candidate frameE1 ∧ Starts frameE1 ∧
      NoEnd [0xA0, 0xA1, 0x00, 0x01, 0x02, 0x0D] ∧ Garbage [] := by decide

/-- Y11's buffer: four bytes fit, five do not. -/
theorem test_hyp_AppendJoinsTheTailOrSetsOverflow :
    Fits { buffered [1, 2, 3] with bufCap := some 4 } [4] ∧ ¬ Fits { buffered [1, 2, 3] with bufCap := some 4 } [4, 5] ∧
      Fits (buffered [1, 2, 3]) [4, 5] := by
  simp [Fits, buffered, State.reset]

theorem test_hyp_OverflowStaysAndNoExtractionWaits :
    (buffered [1]).bufCap = none ∧ ({ buffered [1, 2, 3] with bufCap := some 4 } : State).buf.length + 2 = 5 ∧
      (∃ t, step { buffered [1] with overflow := true, turns := [.request .closer ⟨5, 0, 0, []⟩] } = .next t) ∧
      (∀ rest, [Turn.request .closer ⟨5, 0, 0, []⟩] ≠ .reset :: rest) ∧
      (∀ a q rest, [Turn.request .closer ⟨5, 0, 0, []⟩] = .request a q :: rest → q.op ≠ 6) ∧
      ({ buffered [1] with overflow := true } : State).pend = .idle ∧
      ({ waiting .waitFrame [1] with overflow := true } : State).pend ≠ .idle := by
  refine ⟨rfl, rfl, ⟨_, rfl⟩, by simp, ?_, rfl, by decide⟩
  intro a q rest h
  cases h
  decide

/-- B4. -/
theorem test_hyp_ExtractFrameReturnsTheFirstFrame :
    Garbage [[0x0D, 0x0A], [0x0D, 0x0A]] ∧ Candidate frameE1 ∧ Starts frameE1 ∧
      (buffered ([0x0D, 0x0A, 0x0D, 0x0A] ++ frameE1)).buf = [[0x0D, 0x0A], [0x0D, 0x0A]].flatten ++ frameE1 ++ [] := by
  decide

/-- B9 and B2 together. -/
theorem test_hyp_ExtractFrameWithoutAFrameFailsOrWaits :
    Garbage [[0x02, 0x0D, 0x0A]] ∧ NoEnd [0xA0, 0xA1, 0x0D] ∧
      (buffered [0x02, 0x0D, 0x0A, 0xA0, 0xA1, 0x0D]).buf = [[0x02, 0x0D, 0x0A]].flatten ++ [0xA0, 0xA1, 0x0D] := by decide

/-- B10, the shortest frame there is; a frame returned at once, and one by a completion turn. -/
theorem test_hyp_AReturnedFrameIsMarkedAtBothEnds :
    (∃ t, Returns (buffered frameE1) t frameE1) ∧ (∃ t, Returns (waiting .waitFrame frameE1) t frameE1) ∧
      (buffered [0xA0, 0xA1, 0x0D, 0x0A, 0xFF]).pend = .idle ∧
      (buffered [0xA0, 0xA1, 0x0D, 0x0A, 0xFF]).buf = [0xA0, 0xA1, 0x0D, 0x0A] ++ [0xFF] :=
  ⟨⟨_, rfl, .inl rfl⟩, ⟨_, rfl, .inr ⟨rfl, by decide, rfl⟩⟩, rfl, rfl⟩

/-- B5, B6, B8. -/
theorem test_hyp_ResynchronisationThrowsAwayWholeCandidates :
    (Candidate [0x11, 0x22, 0x33, 0x0D, 0x0A] ∧ ¬ Starts [0x11, 0x22, 0x33, 0x0D, 0x0A] ∧ Candidate frameE1 ∧ Starts frameE1) ∧
    (([0x11, 0x22, 0x33] : List Byte) ≠ [] ∧ NoEnd [0x11, 0x22, 0x33] ∧ ¬ Starts ([0x11, 0x22, 0x33] ++ frameE1) ∧
      Candidate frameE3 ∧ Starts frameE3) ∧
    (Candidate (frameE7.take 7) ∧ Starts (frameE7.take 7) ∧ frameE7 = frameE7.take 7 ++ [0x02, 0x0D, 0x0A]) :=
  ⟨by decide, by decide, by decide⟩

/-- E7, whose body is an end marker; and the last place for one, a body byte `0D` before the checksum `0A`. -/
theorem test_hyp_AnInnerEndMarkerCutsTheFrame :
    (wire 0x05 [0x0D, 0x0A] 0x02 = frameE7 ∧ 5 < ([0x0D, 0x0A] : List Byte).length + 6 ∧
      EndAt (wire 0x05 [0x0D, 0x0A] 0x02) 5 ∧ (∀ j, j < 5 → ¬ EndAt (wire 0x05 [0x0D, 0x0A] 0x02) j)) ∧
    (fold 0x07 [0x0D] = 0x0A ∧ EndAt (wire 0x07 [0x0D] 0x0A) 5 ∧ (∀ j, j < 5 → ¬ EndAt (wire 0x07 [0x0D] 0x0A) j)) := by
  decide

/-- Y1, Y2, and the flags, at the count that just fits and one more. -/
theorem test_hyp_ExtractBytesTakesExactlyCount :
    (buffered [1, 2]).pend = .idle ∧ (2 : BitVec 32).toNat ≤ (buffered [1, 2]).buf.length ∧
      ¬ (3 : BitVec 32).toNat ≤ (buffered [1, 2]).buf.length := by decide

theorem test_hyp_BusyWhileAnExtractionIsPending :
    (waiting .waitFrame []).pend ≠ .idle ∧ (waiting (.waitBytes 0) []).pend ≠ .idle ∧
      (∃ t, exec (.decode []) (waiting .waitFrame []) = .next t) := ⟨by decide, by decide, _, rfl⟩

/-- Each of the four clauses, the byte counts at the boundary. -/
theorem test_hyp_CompletionIsEnabledByDataOrFlags :
    let s (p : Pend) (b : List Byte) : State := { waiting p b with turns := [.complete] }
    (s .waitFrame [0x0D]).turns = .complete :: [] ∧ (∀ k, ¬ EndAt (s .waitFrame [0x0D]).buf k) ∧
      EndAt (s .waitFrame [0x0D, 0x0A]).buf 0 ∧
      (s (.waitBytes 3) [1, 2]).buf.length < (3 : BitVec 32).toNat ∧
      (3 : BitVec 32).toNat ≤ (s (.waitBytes 3) [1, 2, 3]).buf.length := by
  refine ⟨rfl, ?_, by decide, by decide, by decide⟩
  intro k
  cases k <;> simp [EndAt, waiting]

theorem test_hyp_ClearEmptiesTheBufferUnlessPending :
    (buffered [1]).pend = .idle ∧ (waiting .waitFrame [1]).pend ≠ .idle := by decide

theorem test_hyp_DeliveredBytesLeaveTheHead :
    (∃ t, Returns (buffered (0x0D :: 0x0A :: frameE1)) t frameE1) ∧
      (∃ t, ReturnsBytes 2 (buffered [1, 2]) t [1, 2]) ∧ (∃ t, ReturnsBytes 2 (waiting (.waitBytes 2) [1, 2]) t [1, 2]) :=
  ⟨⟨_, rfl, .inl rfl⟩, ⟨_, rfl, .inl rfl⟩, _, rfl, .inr ⟨rfl, by decide, rfl⟩⟩

/-- A run of three steps: a chunk, its frame, the decoding. -/
theorem test_hyp_BytesRemovedAreAPrefixOfTheStream :
    ∃ t, Host.Core.run Sys2Proof.core 3 { State.reset with turns := threeTurns } = .next t := ⟨_, rfl⟩

theorem test_hyp_ChunkingDoesNotChangeTheResult :
    (waiting .waitFrame [0xA0]).bufCap = none ∧ NoEnd (waiting .waitFrame [0xA0]).buf ∧
      (waiting (.waitBytes 3) [1, 2]).buf.length < (3 : BitVec 32).toNat := by decide

theorem test_hyp_BufferOperationsLeaveCodecAndDecoderAlone :
    ∃ t u v w x y, exec (.append [1]) State.reset = .next t ∧ exec .extractFrame State.reset = .next u ∧
      exec (.extractBytes 0) State.reset = .next v ∧ exec .cancel State.reset = .next w ∧
      exec .clear State.reset = .next x ∧ exec (.reservedOp 0) State.reset = .next y :=
  ⟨_, _, _, _, _, _, rfl, rfl, rfl, rfl, rfl, rfl⟩

/-- The lengths at their boundaries, a reserved header. -/
theorem test_hyp_HeaderFixesKindAndLength :
    sizeOfHeader 0x40 = some 18 ∧ sizeOfHeader 0x7F = some 18 ∧ sizeOfHeader 0x80 = some 8 ∧ sizeOfHeader 0xE0 = some 2 ∧
      sizeOfHeader 0xDF = none ∧ (recC1.take 7).tail.length + 1 < 8 ∧ 8 ≤ recC1.tail.length + 1 := by decide

/-- D2: the record just fits. -/
theorem test_hyp_FullRecordGivesItsFieldsAsAFix :
    recF1.length = 18 ∧ nb recF1 0 / 32 = 2 ∧ (reading recF1 0).cursor.toNat + 18 ≤ (reading recF1 0).blk.length := by decide

theorem test_hyp_PointOfInterestIsAFullRecordWithTheFlag :
    recP.length = 18 ∧ nb recP 0 / 32 = 3 ∧ (reading recP 0).cursor.toNat + 18 ≤ (reading recP 0).blk.length := by decide

theorem test_hyp_CompactRecordAddsItsDeltas :
    let s : State := { reading (recF1 ++ recC1) 18 with prevValid := true }
    recC1.length = 8 ∧ nb recC1 0 / 32 = 4 ∧ s.cursor.toNat + 8 ≤ s.blk.length ∧ s.prevValid = true := by decide

theorem test_hyp_EmptyRecordOnlyMovesTheCursor :
    (0xFF : Byte).toNat / 32 = 7 ∧ (reading recE 0).cursor.toNat + 2 ≤ (reading recE 0).blk.length := by decide

/-- One byte short of each record; a COMPACT record that just fits, without a predecessor. -/
theorem test_hyp_RecordTestsComeBeforeTheRecordStep :
    (reading (recF1.take 17) 0).blk.length < (reading (recF1.take 17) 0).cursor.toNat + 18 ∧
      (reading (recC1.take 7) 0).blk.length < (reading (recC1.take 7) 0).cursor.toNat + 8 ∧
      (reading [0xFF] 0).blk.length < (reading [0xFF] 0).cursor.toNat + 2 ∧
      (reading recC1 0).cursor.toNat + 8 ≤ (reading recC1 0).blk.length ∧ (reading recC1 0).prevValid = false := by decide

theorem test_hyp_TheDecoderLeavesBufferAndCodecAlone :
    ∃ t u, exec (.parse recF1) State.reset = .next t ∧
      exec (LogRecord.empty ⟨0, 0⟩).toInstr (reading recE 0) = .next u := ⟨_, _, rfl, rfl⟩

/-- D3 as a record sequence; D1, the empty one. -/
theorem test_hyp_ParseGivesTheFixesOfTheRecords :
    let f1 : LogRecord :=
      .full ⟨0, 123, 345678, 0, 901, BitVec.ofInt 32 (-264012345), 432198765, BitVec.ofInt 32 (-1)⟩
    let c1 : LogRecord := .compact ⟨0, 57, 5, 1021, 511, 0, 512⟩
    fixes none [f1, c1] = some [fixF1, fixC1] ∧ blockOf [f1, c1] = recF1 ++ recC1 ∧ fixes none [] = some [] ∧
      (blockOf [f1, c1]).length < 2 ^ 32 := by decide

/-- D8, D9 and D12: after records with a meaning, a reserved, a truncated and a predecessorless record. -/
theorem test_hyp_ParseReportsTheFirstOffendingRecord :
    let e : LogRecord := .empty ⟨31, 0xFF⟩
    fixes none [e] = some [] ∧ (blockOf [e] ++ 0x80 :: recC1.tail).length < 2 ^ 32 ∧
      sizeOfHeader 0x20 = none ∧ (sizeOfHeader 0x80 = some 8 ∧ (recC1.take 7).tail.length + 1 < 8) ∧
      (sizeOfHeader 0x80 = some 8 ∧ 8 ≤ recC1.tail.length + 1) := by decide

theorem test_hyp_ParseAlwaysAnswers : (zeros (2 ^ 32 - 1)).length < 2 ^ 32 := by rw [zeros_length]; decide

theorem test_hyp_ParseDependsOnTheBlockAlone : (zeros (2 ^ 32 - 1)).length < 2 ^ 32 := by rw [zeros_length]; decide

theorem test_hyp_ChainsOfCompactRecordsAddUp : 18 + 8 * 536870909 < 2 ^ 32 ∧ 18 + 8 * ([] : List CompactRecord).length < 2 ^ 32 := by
  decide

theorem test_hyp_ParseIsTheRunOfItsRecordInstructions :
    (recF1 ++ recC1).length < 2 ^ 32 ∧ (reading (recF1 ++ recC1) 0).blk = recF1 ++ recC1 := by decide

theorem test_hyp_ReservedSelectCodesAreIllegalOperations :
    8 ≤ (Request.mk 8 0 0 []).op.toNat ∧ 8 ≤ (Request.mk 15 0 0 []).op.toNat := by decide

theorem test_hyp_DecodeInvertsEncodeForEveryInstruction :
    (Instr.parse (zeros (2 ^ 32 - 1))).wellFormed = true ∧ (Instr.frame ⟨7, zeros 65534, 7⟩).wellFormed = true ∧
      (Instr.reservedOp 7).wellFormed = true :=
  ⟨test_wellFormed_parse.2, test_wellFormed_frame.2, rfl⟩

theorem test_hyp_RecordsAndFramesHaveOneSpelling :
    (∃ r, decodeRecord (recC1 ++ [0x55]) = .ok (r, [0x55])) ∧ (∃ f, decodeFrame frameE3 = .ok f) ∧
      (WireFrame.mk 0x83 [0x02] 0x81).body.length ≤ 65534 := ⟨⟨_, rfl⟩, ⟨_, rfl⟩, by decide⟩

/-- A request of each of the three kinds is the next turn. -/
theorem test_hyp_AStepRunsTheDecodedRequest :
    { State.reset with turns := threeTurns }.turns = .request .producer ⟨2, 0, 0, frameE1⟩ :: threeTurns.tail ∧
      decodeRequest ⟨2, 0, 0, frameE1⟩ = .ok (.append frameE1) ∧ decodeRequest ⟨1, 0, 0, frameE1⟩ = .ok (.decode frameE1) ∧
      decodeRequest ⟨7, 0, 0, recF1⟩ = .ok (.parse recF1) := by decide

/-- Every clause: an empty schedule with each kind of `pend`, held and enabled, and the two other turns. -/
theorem test_hyp_IdleAndResetTurns :
    State.reset.turns = [] ∧ State.reset.pend = .idle ∧
      (waiting .waitFrame []).turns = [] ∧ (waiting .waitFrame []).pend = .waitFrame ∧
      (∀ k, ¬ EndAt (waiting .waitFrame []).buf k) ∧ EndAt (waiting .waitFrame [0x0D, 0x0A]).buf 0 ∧
      (waiting (.waitBytes 3) [1, 2]).buf.length < (3 : BitVec 32).toNat ∧
      (3 : BitVec 32).toNat ≤ (waiting (.waitBytes 3) [1, 2, 3]).buf.length ∧
      ({ buffered [1] with turns := [.complete] } : State).turns = .complete :: [] ∧
      ({ buffered [1] with turns := [.reset] } : State).turns = .reset :: [] :=
  ⟨rfl, rfl, rfl, rfl, fun _ h => by simp [EndAt, waiting] at h, by decide, by decide, by decide, rfl, rfl⟩

/-- R149, row WAIT: held, and enabled by an end marker, by `overflow` and by `closed`. -/
theorem test_hyp_TheFsmRefinesExtractFrame :
    (waiting .waitFrame []).pend = .waitFrame ∧ (∀ k, ¬ EndAt (waiting .waitFrame []).buf k) ∧
      (waiting .waitFrame []).overflow = false ∧ (waiting .waitFrame []).closed = false ∧
      EndAt (waiting .waitFrame frameE1).buf 6 ∧
      ({ waiting .waitFrame [] with overflow := true } : State).overflow = true ∧
      ({ waiting .waitFrame [] with closed := true } : State).closed = true :=
  ⟨rfl, fun _ h => by simp [EndAt, waiting] at h, rfl, rfl, by decide, rfl, rfl⟩

/-- A reset while an extraction is pending. -/
theorem test_hyp_ResetLeavesTheValuesOfTheTable :
    (∃ t, step { waiting .waitFrame [1] with turns := [.reset] } = .next t) ∧
      (Request.mk 7 0 0 (zeros (2 ^ 32 - 1))).data.length < 2 ^ 32 ∧ (Request.mk 7 0 0 []).op.toNat < 8 :=
  ⟨⟨_, rfl⟩, by show (zeros (2 ^ 32 - 1)).length < 2 ^ 32; rw [zeros_length]; decide, by decide⟩

/-- The state after D3's block, with a finite BUF_CAP just reached. -/
theorem test_hyp_EveryStepKeepsTheInvariantOfTheBlock :
    let s : State :=
      { reading (recF1 ++ recC1) 26 with
        bufCap := some 2, buf := [1, 2], overflow := true, out := [fixF1, fixC1], prevValid := true, prevWeek := 901
        prevTow := 345683, prevX := BitVec.ofInt 32 (-264012348), prevY := 432199276, prevZ := BitVec.ofInt 32 (-513)
        turns := [.request .producer ⟨2, 0, 0, [3]⟩] }
    s.Inv ∧ ∃ t, step s = .next t := by
  refine ⟨?_, _, rfl⟩
  decide

theorem test_hyp_FlagsAreStickyAndHaveOneWriter :
    (∃ t, step { State.reset with turns := [.request .closer ⟨5, 0, 0, []⟩] } = .next t ∧ t.closed = true) ∧
      (∃ t, step { State.reset with bufCap := some 0, turns := [.request .producer ⟨2, 0, 0, [1]⟩] } = .next t ∧
        t.overflow = true) := ⟨⟨_, rfl, rfl⟩, _, rfl, rfl⟩

theorem test_hyp_NoStepRaisesASessionError :
    State.reset.noSessionError = true ∧ ∃ t, step { State.reset with turns := threeTurns } = .next t := ⟨rfl, _, rfl⟩

/-- An error of each row of the table. -/
theorem test_hyp_AnErrorLeavesExactlyTheStateOfItsRow :
    answer (.encode 7 (zeros 65535)) State.reset = some (some (.error (.lengthOverflow 65535))) ∧
      answer (.decode []) State.reset = some (some (.error (.malformedFrame .tooShort))) ∧
      answer .clear (waiting .waitFrame []) = some (some (.error .busy)) ∧
      answer (.reservedOp 0) State.reset = some (some (.error (.illegalOperation 8))) ∧
      answer (.parse [0xFF]) State.reset = some (some (.error (.decodeTruncated 0))) ∧
      answer (.parse recC1) State.reset = some (some (.error (.decodeNoPredecessor 0))) ∧
      answer (.parse [0x00]) State.reset = some (some (.error (.decodeReservedHeader 0))) ∧
      answer .extractFrame { State.reset with overflow := true, closed := true } = some (some (.error .bufferOverflow)) ∧
      answer (.extractBytes 1) { State.reset with closed := true } = some (some (.error .closed)) ∧
      (∀ e', State.reset.resp ≠ some (.error e')) := by
  refine ⟨?_, by decide, by decide, by decide, by decide, by decide, by decide, by decide, by decide, fun _ h => nomatch h⟩
  simp only [answer, test_encode_overflow]
  rfl

/-- The same for the errors a record row raises over an earlier data answer, and for an extraction that ends by its
completion step. -/
theorem test_hyp_AnErrorLeavesExactlyTheStateOfItsRow_late :
    (let s : State := { reading [0x80] 0 with resp := some (.bytes []) }
     answer (.compact ⟨0, 0, 0, 0, 0, 0, 0⟩) s = some (some (.error (.decodeTruncated 0))) ∧ s.resp = some (.bytes [])) ∧
    (let s : State := { waiting .waitFrame [0x0D, 0x0A, 0x11] with overflow := true }
     s.canComplete = true ∧ s.complete.resp = some (.error .bufferOverflow)) ∧
    (let s : State := { waiting (.waitBytes 3) [1] with closed := true }
     s.canComplete = true ∧ s.complete.resp = some (.error .closed)) := by decide

theorem test_hyp_OperandsThatDoNotExistStopByName :
    2 ^ 32 ≤ (zeros (2 ^ 32)).length ∧ 65534 < (WireFrame.mk 7 (zeros 65535) 7).body.length ∧
      (Request.mk 7 0 0 []).op = 7 := by
  refine ⟨(zeros_length _).ge, ?_, rfl⟩
  show 65534 < (zeros 65535).length
  rw [zeros_length]
  decide

theorem test_hyp_GetDataAsksForSectorsAndDropsTheTrailer : ([0x1D] : List Byte)[0]? = some 0x1D := by decide

/-- R203 by P1's messages: the matching acknowledgement at once, and after a preliminary one (E4); and a procedure in each
of the cases: ended, waiting for the block, waiting for the transport. -/
theorem test_hyp_QueryEndsWithTheMatchingAcknowledgement :
    (0x02 : Byte) ≠ 0x00 ∧
    (Session.preliminary 0x83 [0x00] = true ∧ Session.preliminary 0x84 [0x00] = true ∧
      Session.preliminary 0x83 [0x02] = false) ∧ Session.matchingAck 0x02 0x83 [0x02] = true ∧
    ((Session.Call.mk .getVersion .done).request = none ∧ (Session.Call.mk .getVersion .done).write = none) ∧
    (Session.Call.start .getVersion).request.isSome = true ∧
    (Session.Call.mk .getVersion (.writing frameE1)).write.isSome = true := by decide

/-! ### The Session, environment -/

/-- R204: a NACK, an acknowledgement of another request, an empty acknowledgement and a response out of its phase each end
in ProtocolViolation (N12, logs 14 and 19). -/
theorem test_session_failures :
    Session.Procedure.getVersion.judge 0x84 [0x02] = .failed .protocolViolation ∧
    Session.Procedure.getVersion.judge 0x83 [0x17] = .failed .protocolViolation ∧
    Session.Procedure.getVersion.judge 0x83 [] = .failed .protocolViolation ∧
    ((Session.Call.mk .getVersion .awaitingFirst).receive (.bytes [])).phase = .failed .protocolViolation := by decide

/-- R205: the body has 13 bytes, neither one fewer nor one more; A6's body has. -/
theorem test_session_version :
    (Session.versionOf [0x01, 0x00, 0x01, 0x01, 0x01, 0x00, 0x01, 0x03, 0x0B, 0x00, 0x0A, 0x03, 0x1A]).isSome = true ∧
    Session.versionOf (List.replicate 12 0x01) = none ∧ Session.versionOf (List.replicate 14 0x01) = none := by decide

/-- R205: three consecutive bytes joined by dots, and little-endian numbers. -/
theorem test_session_fields :
    (Session.dottedAt [0x09, 0x01, 0x0B, 0xFF] 1).text = "1.11.255" ∧ Session.leNat [0x02, 0x01] = 258 := by decide

end Sys2Proof.Tests
end

section
/-! What the buffer operations, a pass of PARSE, the turns that are no request and the STATUS view do to the state
(10_state.md). -/

namespace Sys2Proof.Proofs

open Sys2Proof.Machine Sys2Proof.Claims

/-! ### The frame of the buffer operations -/

/-- The two states differ at most in the buffer's registers (R26 to R28) and the response. -/
def DiffersInBufferOnly (s t : State) : Prop :=
  ∃ b p c o r, t = { s with buf := b, pend := p, closed := c, overflow := o, resp := r }

theorem raise_differsInBufferOnly (e : Err) (s : State) : DiffersInBufferOnly s (s.raise e) :=
  ⟨s.buf, s.pend, s.closed, s.overflow, _, rfl⟩

theorem framePass_differsInBufferOnly (s : State) : DiffersInBufferOnly s s.framePass := by
  obtain ⟨-, rest, q, r, -, h⟩ := framePass_frame s
  exact ⟨rest, q, s.closed, s.overflow, r, h⟩

theorem bytesPass_differsInBufferOnly (count : BitVec Config.countWidth) (s : State) :
    DiffersInBufferOnly s (s.bytesPass count) := by
  obtain ⟨-, rest, q, r, -, h⟩ := bytesPass_frame count s
  exact ⟨rest, q, s.closed, s.overflow, r, h⟩

/-- The five buffer operations and the reserved select codes write the buffer's registers and the response only. -/
theorem exec_bufferOperation_differsInBufferOnly {i : Instr} {s t : State}
    (hi : (∃ chunk, i = .append chunk) ∨ i = .extractFrame ∨ (∃ count, i = .extractBytes count) ∨ i = .cancel ∨
      i = .clear ∨ ∃ low, i = .reservedOp low)
    (h : exec i s = .next t) : DiffersInBufferOnly s t := by
  rcases hi with ⟨chunk, rfl⟩ | rfl | ⟨count, rfl⟩ | rfl | rfl | ⟨low, rfl⟩
  · rcases execAppend_cases chunk s with ⟨-, he⟩ | ⟨-, he⟩ <;> cases he.symm.trans h
    · exact ⟨_, s.pend, s.closed, s.overflow, _, rfl⟩
    · exact ⟨s.buf, s.pend, s.closed, _, _, rfl⟩
  · rcases execExtractFrame_cases s with ⟨-, he⟩ | ⟨-, he⟩ <;> cases he.symm.trans h
    · exact raise_differsInBufferOnly .busy s
    · exact framePass_differsInBufferOnly s
  · rcases execExtractBytes_cases count s with ⟨-, he⟩ | ⟨-, he⟩ <;> cases he.symm.trans h
    · exact raise_differsInBufferOnly .busy s
    · exact bytesPass_differsInBufferOnly count s
  · cases h
    exact ⟨s.buf, s.pend, _, s.overflow, _, rfl⟩
  · rcases execClear_cases s with ⟨-, he⟩ | ⟨-, he⟩ <;> cases he.symm.trans h
    · exact raise_differsInBufferOnly .busy s
    · exact ⟨_, s.pend, _, _, _, rfl⟩
  · cases h
    exact raise_differsInBufferOnly _ s

/-- Settles O29: what is written lies in the buffer and the response, so codec, decoder and schedule stay. -/
theorem bufferOperationsLeaveCodecAndDecoderAlone : Obligations.BufferOperationsLeaveCodecAndDecoderAlone := by
  intro i s t hi h
  obtain ⟨b, p, c, o, r, rfl⟩ := exec_bufferOperation_differsInBufferOnly hi h
  exact ⟨⟨rfl, rfl, rfl, rfl, rfl, rfl, rfl, rfl, rfl⟩, rfl, rfl, rfl, rfl, rfl⟩

/-! ### PARSE as the run of its record instructions -/

/-- A record step that succeeds moves the cursor by the record's length, inside the block (R54, R171). -/
theorem recordStep_ok_cursor {N : Nat} {r : LogRecord} {s t : State} (h : recordStep N r s = .ok t) :
    s.cursor.toNat + r.size ≤ N ∧ t.cursor = s.cursor + BitVec.ofNat _ r.size := by
  rcases recordStep_cases N r s with ⟨e, he, -⟩ | ⟨f, hf, hN, -⟩ | ⟨hf, hN, -⟩
  · rw [he] at h; cases h
  · rw [hf] at h; cases h; exact ⟨hN, rfl⟩
  · rw [hf] at h; cases h; exact ⟨hN, rfl⟩

/-- In a block that BLK can hold the cursor does not wrap (R53), so it counts the bytes read. -/
theorem recordStep_ok_cursor_toNat {N : Nat} {r : LogRecord} {s t : State} (hN : N < 2 ^ 32)
    (h : recordStep N r s = .ok t) : t.cursor.toNat = s.cursor.toNat + r.size := by
  obtain ⟨hle, hc⟩ := recordStep_ok_cursor h
  rw [hc, BitVec.toNat_add, BitVec.toNat_ofNat, Nat.add_mod_mod, Nat.mod_eq_of_lt (lt_of_le_of_lt hle hN)]

theorem recordStep_ok_blk {N : Nat} {r : LogRecord} {s t : State} (h : recordStep N r s = .ok t) : t.blk = s.blk := by
  obtain ⟨-, -, -, -, -, -, -, -, hblk, -⟩ := recordStep_outside h
  exact hblk

/-- One turn of the run, the record at the cursor read: its error ends the run, its step goes on with it. -/
theorem passRun_succ_of_decodeRecord {n : Nat} {s : State} {r : LogRecord} {after : List Byte}
    (hN : s.blk.length < 2 ^ 32) (hd : decodeRecord (s.blk.drop s.cursor.toNat) = .ok (r, after)) :
    passRun (n + 1) s =
      match recordStep s.blk.length r s with
      | .error e => s.raise e
      | .ok t => passRun n t := by
  have hmore : s.cursor.toNat ≠ s.blk.length := by
    have := decodeRecord_shorter hd
    rw [List.length_drop] at this
    omega
  simp only [passRun, if_neg hmore, hd, exec_toInstr]
  cases hr : recordStep s.blk.length r s with
  | error e => exact if_pos rfl
  | ok t =>
    have hmoved : t.cursor ≠ s.cursor := by
      intro heq
      have hc := recordStep_ok_cursor_toNat hN hr
      have := r.size_pos
      rw [heq] at hc
      omega
    exact if_neg hmoved

/-- The run from a cursor inside the block is the rest of the pass, if its bound counts the bytes left. -/
theorem passRun_eq_pass (n : Nat) (s : State) (hN : s.blk.length < 2 ^ 32) (hc : s.cursor.toNat ≤ s.blk.length)
    (hn : s.blk.length - s.cursor.toNat ≤ n) :
    passRun n s = pass s.blk.length (s.blk.drop s.cursor.toNat) s := by
  induction n generalizing s with
  | zero => rw [List.drop_eq_nil_of_le (by omega)]; rfl
  | succ n ih =>
    cases hb : s.blk.drop s.cursor.toNat with
    | nil =>
      have hend : s.cursor.toNat = s.blk.length := le_antisymm hc (List.drop_eq_nil_iff.mp hb)
      exact if_pos hend
    | cons b bs =>
      rw [pass_cons]
      cases hd : decodeRecord (b :: bs) with
      | error e =>
        have hmore : s.cursor.toNat ≠ s.blk.length := fun heq => by simp [heq] at hb
        simp only [passRun, if_neg hmore, hb, hd]
      | ok p =>
        obtain ⟨r, after⟩ := p
        rw [passRun_succ_of_decodeRecord hN (hb ▸ hd)]
        cases hr : recordStep s.blk.length r s with
        | error e => simp only [hr]
        | ok t =>
          have hblk := recordStep_ok_blk hr
          have hcur := recordStep_ok_cursor_toNat hN hr
          have hle := (recordStep_ok_cursor hr).1
          have hpos := r.size_pos
          have hafter : after = t.blk.drop t.cursor.toNat := by
            rw [(decodeRecord_ok hd).2, ← hb, List.drop_drop, hblk, hcur]
          have hrest := ih t (by rw [hblk]; exact hN) (by rw [hblk]; omega) (by rw [hblk]; omega)
          simpa only [hr, hafter, hblk] using hrest

/-- Settles O44: the run from a fresh start is the whole pass. -/
theorem parseIsTheRunOfItsRecordInstructions : Obligations.ParseIsTheRunOfItsRecordInstructions := by
  rintro B s hB rfl
  rw [passRun_eq_pass s.blk.length s.startPass hB (Nat.zero_le _) (Nat.sub_le _ _)]
  exact execParse_eq hB s

/-! ### The turns that are no request -/

/-- FIND_END finds nothing exactly where no end marker stands (R144). -/
theorem findEnd_eq_none_iff (s : List Byte) : findEnd s = none ↔ ∀ k, ¬ EndAt s k := by
  induction s with
  | nil => simp [findEnd_nil, EndAt]
  | cons a s ih =>
    cases s with
    | nil => simp [findEnd_singleton, EndAt]
    | cons b s =>
      rw [findEnd_cons_cons, ← Nat.and_forall_add_one]
      have hhead : EndAt (a :: b :: s) 0 ↔ a = 0x0D ∧ b = 0x0A := by simp [EndAt]
      have htail : ∀ k, EndAt (a :: b :: s) (k + 1) ↔ EndAt (b :: s) k := fun k => by simp [EndAt]
      by_cases hab : a = 0x0D ∧ b = 0x0A
      · exact iff_of_false (by simp [hab]) fun h => h.1 (hhead.mpr hab)
      · rw [if_neg hab, Option.map_eq_none_iff, ih]
        simp only [hhead, htail, hab, not_false_eq_true, true_and]

/-- An EXTRACT_FRAME that waits is enabled by an end marker and by either flag (R143, R146). -/
theorem canComplete_waitFrame_iff {s : State} (hp : s.pend = .waitFrame) :
    s.canComplete = true ↔ (∃ k, EndAt s.buf k) ∨ s.overflow = true ∨ s.closed = true := by
  have hfound : (findEnd s.buf).isSome = true ↔ ∃ k, EndAt s.buf k := by
    rw [Option.isSome_iff_ne_none, Ne, findEnd_eq_none_iff, not_forall_not]
  simp only [State.canComplete, hp, Bool.or_eq_true, hfound, or_assoc]

/-- An EXTRACT_BYTES that waits is enabled by its bytes and by either flag (R143, R150). -/
theorem canComplete_waitBytes_iff {s : State} {count : BitVec Config.countWidth} (hp : s.pend = .waitBytes count) :
    s.canComplete = true ↔ count.toNat ≤ s.buf.length ∨ s.overflow = true ∨ s.closed = true := by
  simp only [State.canComplete, hp, Bool.or_eq_true, decide_eq_true_eq, or_assoc]

theorem complete_of_idle {s : State} (hp : s.pend = .idle) : s.complete = s := by
  simp [State.complete, State.canComplete, hp]

theorem complete_of_held {s : State} (hc : ¬ s.canComplete = true) : s.complete = s := if_neg hc

theorem complete_waitFrame {s : State} (hp : s.pend = .waitFrame) (hc : s.canComplete = true) :
    s.complete = s.framePass := by
  simp only [State.complete, hc, if_true, hp]

theorem complete_waitBytes {s : State} {count : BitVec Config.countWidth} (hp : s.pend = .waitBytes count)
    (hc : s.canComplete = true) : s.complete = s.bytesPass count := by
  simp only [State.complete, hc, if_true, hp]

/-- Every end of a pass writes `pend`, so the `pend` before it does not matter (R146); likewise below (R150). -/
theorem framePass_setPend (q : Pend) (s : State) : (s.setPend q).framePass = s.framePass := by
  unfold State.framePass
  rw [State.setPend_buf]
  rcases scan s.buf with ⟨_ | f, rest⟩ <;> rfl

theorem bytesPass_setPend (count : BitVec Config.countWidth) (q : Pend) (s : State) :
    (s.setPend q).bytesPass count = s.bytesPass count := rfl

/-- EXTRACT_FRAME with `pend` IDLE is a pass (R146). -/
theorem exec_extractFrame_setPend_idle (s : State) : exec .extractFrame (s.setPend .idle) = .next s.framePass := by
  rcases execExtractFrame_cases (s.setPend .idle) with ⟨hp, -⟩ | ⟨-, he⟩
  · exact absurd rfl hp
  · rw [framePass_setPend] at he
    exact he

/-- EXTRACT_BYTES with `pend` IDLE is a pass (R150). -/
theorem exec_extractBytes_setPend_idle (count : BitVec Config.countWidth) (s : State) :
    exec (.extractBytes count) (s.setPend .idle) = .next (s.bytesPass count) := by
  rcases execExtractBytes_cases count (s.setPend .idle) with ⟨hp, -⟩ | ⟨-, he⟩
  · exact absurd rfl hp
  · rw [bytesPass_setPend] at he
    exact he

theorem step_of_turns_nil {s : State} (h : s.turns = []) : step s = .next s.complete := by
  simp only [step, h, State.idleStep]

theorem step_of_turns_complete {s : State} {rest : List Turn} (h : s.turns = .complete :: rest) :
    step s = .next (s.setTurns rest).complete := by
  simp only [step, h]

theorem step_of_turns_reset {s : State} {rest : List Turn} (h : s.turns = .reset :: rest) :
    step s = .next (s.setTurns rest).resetBlock := by
  simp only [step, h]

/-- Settles O50: with an empty schedule the step is the completion step, held or one pass of the pending extraction. -/
theorem idleAndResetTurns : Obligations.IdleAndResetTurns := by
  refine ⟨fun s hs => ?_, fun s rest hs hp => ?_, fun s rest hs => ?_⟩
  · rw [step_of_turns_nil hs]
    refine ⟨fun hp => ?_, fun hp hk ho hc => ?_, fun hp h => ?_, fun count hp hl ho hc => ?_, fun count hp h => ?_⟩
    · rw [complete_of_idle hp]
    · rw [complete_of_held (by simp [canComplete_waitFrame_iff hp, hk, ho, hc])]
    · rw [complete_waitFrame hp ((canComplete_waitFrame_iff hp).mpr h)]
      exact (exec_extractFrame_setPend_idle s).symm
    · rw [complete_of_held (by simp [canComplete_waitBytes_iff hp, hl, ho, hc])]
    · rw [complete_waitBytes hp ((canComplete_waitBytes_iff hp).mpr h)]
      exact (exec_extractBytes_setPend_idle count s).symm
  · rw [step_of_turns_complete hs, complete_of_idle (by simpa using hp)]
    rfl
  · exact ⟨_, _, _, _, _, _, _, _, _, step_of_turns_reset hs⟩

/-! ### The STATUS view -/

/-- STATUS as a number: its fields at their places, PEND lowest (R29). -/
theorem status_toNat (s : State) :
    s.status.toNat =
      (!s.buf.isEmpty).toNat * 16 + s.overflow.toNat * 8 + s.closed.toNat * 4 + s.pend.code.toNat := by
  simp only [State.status, toNat_join, BitVec.toNat_ofBool, BitVec.toNat_ofNat]
  omega

/-- The bits of STATUS above PEND (R29). -/
theorem status_bits (s : State) :
    s.status.getLsbD 2 = s.closed ∧ s.status.getLsbD 3 = s.overflow ∧ s.status.getLsbD 4 = !s.buf.isEmpty := by
  simp only [State.status, BitVec.getLsbD_append]
  simp

/-- Settles O52: PEND and the reserved bits from the number, the flags from the bits. -/
theorem statusShowsPendAndTheFlags : Obligations.StatusShowsPendAndTheFlags := by
  intro s
  obtain ⟨hclosed, hoverflow, hnonempty⟩ := status_bits s
  have hpend : s.pend.code.toNat < 4 := s.pend.code.isLt
  refine ⟨?_, hclosed, hoverflow, ?_, ?_⟩
  · have hmod : s.status.toNat % 4 = s.pend.code.toNat := by
      rw [status_toNat]
      omega
    rw [hmod]
    cases s.pend <;> rfl
  · rw [hnonempty]
    simp [List.length_pos_iff]
  · have hn := (!s.buf.isEmpty).toNat_lt
    have ho := s.overflow.toNat_lt
    have hc := s.closed.toNat_lt
    rw [status_toNat]
    omega

end Sys2Proof.Proofs
end

section
/-! The byte spaces over a run (20_memory.md): the accepted stream, what an extraction takes from it, and how its
chunks are cut. -/

namespace Sys2Proof.Proofs

open Sys2Proof.Machine Sys2Proof.Claims

/-! ### What is left of the stream -/

/-- An instruction leaves the end of BUF with the chunk it accepted: only APPEND adds bytes, and what an operation
removes it takes from the head (R55, R61). -/
theorem exec_buf_suffix {i : Instr} {s t : State} (h : exec i s = .next t) : t.buf <:+ s.buf ++ s.accepted i := by
  have record : ∀ r : LogRecord, exec r.toInstr s = .next t → t.buf <:+ s.buf ++ [] := fun r hr => by
    rw [(exec_toInstr_outside hr).1, List.append_nil]
  cases i with
  | encode id body =>
    rcases execEncode_cases id body s with ⟨-, he⟩ | ⟨-, he⟩ <;> cases he.symm.trans h <;> simp [State.accepted]
  | decode F =>
    rcases execDecode_cases F s with ⟨e, -, he⟩ | ⟨f, -, he⟩ <;> cases he.symm.trans h <;>
      simp [State.accepted, deliverMessage_eq]
  | append chunk =>
    rcases execAppend_cases chunk s with ⟨hr, he⟩ | ⟨hr, he⟩ <;> cases he.symm.trans h <;> simp [State.accepted, hr]
  | extractFrame =>
    rcases execExtractFrame_cases s with ⟨-, he⟩ | ⟨-, he⟩ <;> cases he.symm.trans h
    · simp [State.accepted]
    · obtain ⟨gone, rest, q, r, hb, hf⟩ := framePass_frame s
      exact ⟨gone, by simp [hf, hb, State.accepted]⟩
  | extractBytes count =>
    rcases execExtractBytes_cases count s with ⟨-, he⟩ | ⟨-, he⟩ <;> cases he.symm.trans h
    · simp [State.accepted]
    · obtain ⟨gone, rest, q, r, hb, hf⟩ := bytesPass_frame count s
      exact ⟨gone, by simp [hf, hb, State.accepted]⟩
  | cancel => cases h; simp [State.accepted]
  | clear =>
    rcases execClear_cases s with ⟨-, he⟩ | ⟨-, he⟩ <;> cases he.symm.trans h <;> simp [State.accepted]
  | parse B =>
    by_cases hB : B.length < 2 ^ 32
    · cases (execParse_eq hB s).symm.trans h
      rw [(pass_outside B.length B s.startPass).1]
      simp [State.accepted]
    · cases (execParse_far hB s).symm.trans h
  | reservedOp low => cases h; simp [State.accepted]
  | full r => exact record (.full r) h
  | pointOfInterest r => exact record (.pointOfInterest r) h
  | compact r => exact record (.compact r) h
  | empty r => exact record (.empty r) h
  | reservedKind0 low => exact record (.reserved0 low) h
  | reservedKind1 low => exact record (.reserved1 low) h
  | reservedKind5 low => exact record (.reserved5 low) h
  | reservedKind6 low => exact record (.reserved6 low) h
  | frame f =>
    rcases execFrame_cases f s with ⟨-, he⟩ | ⟨-, he⟩ <;> cases he.symm.trans h
    simp [State.accepted, deliverMessage_eq]

theorem complete_buf_suffix (s : State) : s.complete.buf <:+ s.buf := by
  obtain ⟨gone, rest, q, r, hb, hc⟩ := complete_frame s
  exact ⟨gone, by rw [hc, hb]⟩

/-- Taking the turn off and delivering the operand touch no buffer register, so the same chunk is accepted. -/
theorem accepted_deliver_setTurns (i : Instr) (rest : List Turn) (s : State) :
    ((s.setTurns rest).deliver i).accepted i = s.accepted i := by
  cases i <;> rfl

theorem deliver_setTurns_buf (i : Instr) (rest : List Turn) (s : State) :
    ((s.setTurns rest).deliver i).buf = s.buf := by
  obtain ⟨f, b, h⟩ := deliver_eq i (s.setTurns rest)
  rw [h, State.setTurns_buf]

/-- One step leaves the end of BUF with what the step accepted (R61). -/
theorem step_buf_suffix {s t : State} (h : step s = .next t) : t.buf <:+ s.buf ++ acceptedNow s := by
  rcases step_cases h with ⟨ht, rfl⟩ | ⟨agent, q, rest, i, ht, hd, he⟩ | ⟨rest, ht, rfl⟩ | ⟨rest, ht, rfl⟩
  · simpa [acceptedNow, ht] using complete_buf_suffix s
  · simpa only [acceptedNow, ht, hd, deliver_setTurns_buf, accepted_deliver_setTurns] using exec_buf_suffix he
  · simpa [acceptedNow, ht] using complete_buf_suffix (s.setTurns rest)
  · simp [State.resetBlock, State.reset]

/-- A run of one more step that completes is a step and a run of the rest. -/
theorem run_succ_next {n : Nat} {s t : State} (h : Host.Core.run Sys2Proof.core (n + 1) s = .next t) :
    ∃ u, step s = .next u ∧ Host.Core.run Sys2Proof.core n u = .next t := by
  cases hs : step s with
  | next u => exact ⟨u, rfl, (run_next hs).symm.trans h⟩
  | fault r => simp [Host.Core.run, show Sys2Proof.core.step s = .fault r from hs] at h
  | refused r => simp [Host.Core.run, show Sys2Proof.core.step s = .refused r from hs] at h

/-- Settles O26, by induction on the steps: each takes from the head what is left after those before it. -/
theorem bytesRemovedAreAPrefixOfTheStream : Obligations.BytesRemovedAreAPrefixOfTheStream := by
  intro n
  induction n with
  | zero =>
    rintro s t h
    cases h
    exact ⟨[], List.append_nil _⟩
  | succ n ih =>
    intro s t h
    obtain ⟨u, hu, hrun⟩ := run_succ_next h
    obtain ⟨first, hfirst⟩ := step_buf_suffix hu
    obtain ⟨later, hlater⟩ := ih u t hrun
    refine ⟨first ++ later, ?_⟩
    simp only [acceptedIn, hu]
    rw [← List.append_assoc, ← hfirst, List.append_assoc, hlater, List.append_assoc]

/-! ### What an extraction takes -/

/-- FIND_END finds the first end marker (R144). -/
theorem findEnd_eq_some_spec {s : List Byte} {k : Nat} (h : findEnd s = some k) :
    EndAt s k ∧ ∀ j, j < k → ¬ EndAt s j := by
  induction s generalizing k with
  | nil => simp [findEnd_nil] at h
  | cons a s ih =>
    cases s with
    | nil => simp [findEnd_singleton] at h
    | cons b s =>
      rw [findEnd_cons_cons] at h
      by_cases hab : a = 0x0D ∧ b = 0x0A
      · rw [if_pos hab] at h
        cases h
        exact ⟨by simp [EndAt, hab], by simp⟩
      · rw [if_neg hab] at h
        obtain ⟨m, hm, rfl⟩ := Option.map_eq_some_iff.mp h
        obtain ⟨hat, hfirst⟩ := ih hm
        refine ⟨by simpa [EndAt] using hat, fun j hj => ?_⟩
        cases j with
        | zero => simpa [EndAt] using hab
        | succ j => simpa [EndAt] using hfirst j (by omega)

/-- The first bytes of a string have the end markers that lie inside them. -/
theorem endAt_take_iff {s : List Byte} {j n : Nat} (h : j + 2 ≤ n) : EndAt (s.take n) j ↔ EndAt s j := by
  simp only [EndAt, List.getElem?_take_of_lt (show j < n by omega), List.getElem?_take_of_lt (show j + 1 < n by omega)]

/-- One cut of SCAN takes a candidate (R145). -/
theorem candidate_of_findEnd {s : List Byte} {k : Nat} (h : findEnd s = some k) : Candidate (s.take (k + 2)) := by
  obtain ⟨hat, hfirst⟩ := findEnd_eq_some_spec h
  have hlen : (s.take (k + 2)).length = k + 2 := List.length_take_of_le (findEnd_bound h)
  rw [Candidate, hlen, Nat.add_sub_cancel]
  exact ⟨by omega, (endAt_take_iff le_rfl).mpr hat, fun j hj => by
    rw [endAt_take_iff (by omega)]
    exact hfirst j hj⟩

/-- The test of a candidate is the one of its first two bytes (R145). -/
theorem startsFrame_iff (c : List Byte) : startsFrame c = true ↔ Starts c := by
  rcases c with _ | ⟨a, _ | ⟨b, c⟩⟩ <;> simp [startsFrame, Config.startMarker, Starts]

/-- A cut that is no frame is thrown away, and SCAN goes on behind it (R145). -/
theorem scan_of_discard {s : List Byte} {k : Nat} (h : findEnd s = some k) (hf : startsFrame (s.take (k + 2)) = false) :
    scan s = scan (s.drop (k + 2)) := by
  rw [scan_eq, h]
  simp only [hf, Bool.false_eq_true, if_false]

theorem scan_of_found {s : List Byte} {k : Nat} (h : findEnd s = some k) (hf : startsFrame (s.take (k + 2)) = true) :
    scan s = (some (s.take (k + 2)), s.drop (k + 2)) := by
  rw [scan_eq, h]
  exact if_pos hf

theorem scan_of_noEnd {s : List Byte} (h : findEnd s = none) : scan s = (none, s) := by
  rw [scan_eq, h]

/-- What SCAN removes before the frame, or before the rest if there is none, are the candidates it discards (R145). -/
theorem scan_garbage (s : List Byte) :
    ∃ gs, Garbage gs ∧ s = gs.flatten ++ ((scan s).1.getD [] ++ (scan s).2) := by
  induction s using scan_induction with
  | done s h => exact ⟨[], by simp [Garbage], by rw [scan_of_noEnd h]; rfl⟩
  | found s k h hf => exact ⟨[], by simp [Garbage], by simp [scan_of_found h hf]⟩
  | discard s k h hf ih =>
    obtain ⟨gs, hgs, hs⟩ := ih
    have hno : ¬ Starts (s.take (k + 2)) := by rw [← startsFrame_iff, hf]; exact Bool.false_ne_true
    refine ⟨s.take (k + 2) :: gs, List.forall_mem_cons.mpr ⟨⟨candidate_of_findEnd h, hno⟩, hgs⟩, ?_⟩
    rw [scan_of_discard h hf, List.flatten_cons, List.append_assoc, ← hs, List.take_append_drop]

/-- What ends an extraction without data answers with no data. -/
theorem waitOrFail_resp (p : Pend) (s : State) :
    (s.waitOrFail p).resp = none ∨ ∃ e, (s.waitOrFail p).resp = some (.error e) := by
  rcases waitOrFail_cases p s with ⟨-, h⟩ | ⟨-, -, h⟩ | ⟨-, -, h⟩ <;> simp [h]

/-- An EXTRACT_FRAME that returns a frame ends by a pass, whether at once or by its completion step (R146). -/
theorem returns_framePass {s t : State} {f : List Byte} (h : Returns s t f) : t = s.framePass := by
  obtain ⟨hresp, he | ⟨hp, hc, ht⟩⟩ := h
  · rcases execExtractFrame_cases s with ⟨-, hx⟩ | ⟨-, hx⟩ <;> cases hx.symm.trans he
    · simp at hresp
    · rfl
  · rw [ht, complete_waitFrame hp hc]

/-- An EXTRACT_BYTES that returns bytes ends by a pass, whether at once or by its completion step (R150). -/
theorem returnsBytes_bytesPass {s t : State} {count : BitVec 32} {d : List Byte} (h : ReturnsBytes count s t d) :
    t = s.bytesPass count := by
  obtain ⟨hresp, he | ⟨hp, hc, ht⟩⟩ := h
  · rcases execExtractBytes_cases count s with ⟨-, hx⟩ | ⟨-, hx⟩ <;> cases hx.symm.trans he
    · simp at hresp
    · rfl
  · rw [ht, complete_waitBytes hp hc]

/-- A pass that answers with a frame is SCAN's first frame, and BUF is what it left (R146). -/
theorem scan_of_framePass_frame {s : State} {f : List Byte} (h : s.framePass.resp = some (.frame f)) :
    scan s.buf = (some f, s.framePass.buf) := by
  rcases framePass_cases s with ⟨g, rest, hs, hp⟩ | ⟨rest, -, hp⟩
  · rw [hp] at h ⊢
    cases h
    exact hs
  · rcases waitOrFail_resp .waitFrame { s with buf := rest } with hr | ⟨e, hr⟩ <;> rw [hp, hr] at h <;> cases h

/-- A pass that answers with bytes takes `count` of them off the head (R150). -/
theorem bytesPass_bytes {s : State} {count : BitVec 32} {d : List Byte}
    (h : (s.bytesPass count).resp = some (.bytes d)) :
    d.length = count.toNat ∧ s.buf = d ++ (s.bytesPass count).buf := by
  rcases bytesPass_cases count s with ⟨hle, hp⟩ | ⟨-, hp⟩
  · rw [hp] at h ⊢
    cases h
    exact ⟨List.length_take_of_le hle, (List.take_append_drop _ _).symm⟩
  · rcases waitOrFail_resp (.waitBytes count) s with hr | ⟨e, hr⟩ <;> rw [hp, hr] at h <;> cases h

/-- Settles O25: both ways of returning are one pass, which takes from the head. -/
theorem deliveredBytesLeaveTheHead : Obligations.DeliveredBytesLeaveTheHead := by
  constructor
  · intro s t f h
    obtain rfl := returns_framePass h
    obtain ⟨gs, hgs, hs⟩ := scan_garbage s.buf
    rw [scan_of_framePass_frame h.1, Option.getD_some, ← List.append_assoc] at hs
    exact ⟨gs, hgs, hs⟩
  · intro s t count d h
    obtain rfl := returnsBytes_bytesPass h
    exact bytesPass_bytes h.1

/-! ### How the stream is cut into chunks -/

/-- More bytes behind a string in which SCAN finds a frame are left behind it. -/
theorem scan_append_some {a f r : List Byte} (b : List Byte) (h : scan a = (some f, r)) :
    scan (a ++ b) = (some f, r ++ b) := by
  induction a using scan_induction with
  | done a hk => rw [scan_of_noEnd hk] at h; cases h
  | found a k hk hf =>
    have hb := findEnd_bound hk
    rw [scan_of_found hk hf] at h
    cases h
    rw [scan_of_found (findEnd_append b hk) (by rwa [List.take_append_of_le_length hb]),
      List.take_append_of_le_length hb, List.drop_append_of_le_length hb]
  | discard a k hk hf ih =>
    have hb := findEnd_bound hk
    rw [scan_of_discard hk hf] at h
    rw [scan_of_discard (findEnd_append b hk) (by rwa [List.take_append_of_le_length hb]),
      List.drop_append_of_le_length hb]
    exact ih h

/-- Where SCAN finds no frame, it can go on from what it left. -/
theorem scan_append_none {a r : List Byte} (b : List Byte) (h : scan a = (none, r)) :
    scan (a ++ b) = scan (r ++ b) := by
  induction a using scan_induction with
  | done a hk => rw [scan_of_noEnd hk] at h; cases h; rfl
  | found a k hk hf => rw [scan_of_found hk hf] at h; cases h
  | discard a k hk hf ih =>
    have hb := findEnd_bound hk
    rw [scan_of_discard hk hf] at h
    rw [scan_of_discard (findEnd_append b hk) (by rwa [List.take_append_of_le_length hb]),
      List.drop_append_of_le_length hb]
    exact ih h

/-- What a pass of the pending extraction finds in a byte string: its answer, if there is data for it, and what is left
(R146, R150). -/
def taken : Pend → List Byte → Option Response × List Byte
  | .idle, b => (none, b)
  | .waitFrame, b => ((scan b).1.map .frame, (scan b).2)
  | .waitBytes count, b =>
    if count.toNat ≤ b.length then (some (.bytes (b.take count.toNat)), b.drop count.toNat) else (none, b)

/-- Where there is data, later bytes are left behind it. -/
theorem taken_append_some {p : Pend} {a r : List Byte} {x : Response} (b : List Byte) (h : taken p a = (some x, r)) :
    taken p (a ++ b) = (some x, r ++ b) := by
  cases p with
  | idle => cases h
  | waitFrame =>
    rcases hs : scan a with ⟨_ | f, rest⟩ <;> simp only [taken, hs] at h <;> cases h
    simp only [taken, scan_append_some b hs, Option.map_some]
  | waitBytes count =>
    by_cases hle : count.toNat ≤ a.length
    · simp only [taken, if_pos hle] at h
      cases h
      have hle' : count.toNat ≤ (a ++ b).length := by rw [List.length_append]; omega
      simp only [taken, if_pos hle', List.take_append_of_le_length hle, List.drop_append_of_le_length hle]
    · simp only [taken, if_neg hle] at h
      cases h

/-- Where there is none, the next pass can go on from what this one left. -/
theorem taken_append_none {p : Pend} {a r : List Byte} (b : List Byte) (h : taken p a = (none, r)) :
    taken p (a ++ b) = taken p (r ++ b) := by
  cases p with
  | idle => cases h; rfl
  | waitFrame =>
    rcases hs : scan a with ⟨_ | f, rest⟩ <;> simp only [taken, hs] at h <;> cases h
    simp only [taken, scan_append_none b hs]
  | waitBytes count =>
    by_cases hle : count.toNat ≤ a.length
    · simp only [taken, if_pos hle] at h
      cases h
    · simp only [taken, if_neg hle] at h
      cases h
      rfl

theorem waitOrFail_waits {s : State} (p : Pend) (ho : s.overflow = false) (hc : s.closed = false) :
    s.waitOrFail p = { s with pend := p, resp := none } := by
  rcases waitOrFail_cases p s with ⟨ho', -⟩ | ⟨-, hc', -⟩ | ⟨-, -, h⟩
  · exact absurd (ho.symm.trans ho') Bool.false_ne_true
  · exact absurd (hc.symm.trans hc') Bool.false_ne_true
  · exact h

theorem pend_waits {p : Pend} (h : p ≠ .idle) : p = .waitFrame ∨ ∃ count, p = .waitBytes count := by
  cases p with
  | idle => exact absurd rfl h
  | waitFrame => exact .inl rfl
  | waitBytes count => exact .inr ⟨count, rfl⟩

/-- With both flags 0 the completion step, enabled or not, does what `taken` says (R143, R146, R150). -/
theorem complete_taken {s : State} (ho : s.overflow = false) (hc : s.closed = false) (hp : s.pend ≠ .idle) :
    (∃ x r, taken s.pend s.buf = (some x, r) ∧ s.complete = { s with buf := r, pend := .idle, resp := some x }) ∨
    (∃ r q, taken s.pend s.buf = (none, r) ∧ s.complete = { s with buf := r, resp := q }) := by
  rcases pend_waits hp with hpend | ⟨count, hpend⟩
  · by_cases hcan : s.canComplete = true
    · rw [complete_waitFrame hpend hcan]
      rcases framePass_cases s with ⟨f, rest, hs, hpass⟩ | ⟨rest, hs, hpass⟩
      · exact .inl ⟨.frame f, rest, by simp [taken, hpend, hs], hpass⟩
      · refine .inr ⟨rest, none, by simp [taken, hpend, hs], ?_⟩
        rw [hpass, waitOrFail_waits (s := { s with buf := rest }) .waitFrame ho hc, hpend]
    · have hno : findEnd s.buf = none := (findEnd_eq_none_iff s.buf).mpr fun k hk =>
        hcan ((canComplete_waitFrame_iff hpend).mpr (.inl ⟨k, hk⟩))
      exact .inr ⟨s.buf, s.resp, by simp [taken, hpend, scan_of_noEnd hno], complete_of_held hcan⟩
  · by_cases hle : count.toNat ≤ s.buf.length
    · rw [complete_waitBytes hpend ((canComplete_waitBytes_iff hpend).mpr (.inl hle)), hpend]
      exact .inl ⟨_, _, if_pos hle, if_pos hle⟩
    · have hheld : ¬ s.canComplete = true := by simp [canComplete_waitBytes_iff hpend, hle, ho, hc]
      exact .inr ⟨s.buf, s.resp, by simp [taken, hpend, hle], complete_of_held hheld⟩

/-- Under INF every chunk joins the tail (R141). -/
theorem exec_append_of_unbounded {s : State} (h : s.bufCap = none) (chunk : List Byte) :
    exec (.append chunk) s = .next { s with buf := s.buf ++ chunk, resp := none } := by
  rcases execAppend_cases chunk s with ⟨-, he⟩ | ⟨hr, -⟩
  · exact he
  · rw [(hasRoom_iff s chunk).mpr (by simp [h])] at hr
    cases hr

/-- Feeding ended as one pass over all the bytes ends: its answer, what it left in BUF, `pend` IDLE if it answered. -/
def FedAs (p : Pend) (pass : Option Response × List Byte) (fed : Option Response × State) : Prop :=
  fed.1 = pass.1 ∧ fed.2.buf = pass.2 ∧ fed.2.pend = if pass.1.isSome then .idle else p

/-- Feeding chunks to an extraction that has no data yet is one pass over BUF and all of them: a chunk that brings the
data leaves the later ones behind it, one that does not leaves a string the next pass goes on from. -/
theorem feed_fedAs (cs : List (List Byte)) {s : State} (hcap : s.bufCap = none) (ho : s.overflow = false)
    (hc : s.closed = false) (hheld : taken s.pend s.buf = (none, s.buf)) :
    FedAs s.pend (taken s.pend (s.buf ++ cs.flatten)) (feed cs s) := by
  induction cs generalizing s with
  | nil =>
    rw [List.flatten_nil, List.append_nil, hheld]
    exact ⟨rfl, rfl, rfl⟩
  | cons c cs ih =>
    rw [List.flatten_cons, ← List.append_assoc]
    simp only [feed, exec_append_of_unbounded hcap]
    by_cases hp : s.pend = .idle
    · rw [if_pos hp]
      exact ih (s := { s with buf := s.buf ++ c, resp := none }) hcap ho hc (by rw [hp]; rfl)
    · rw [if_neg hp]
      rcases complete_taken (s := { s with buf := s.buf ++ c, resp := none }) ho hc hp with
        ⟨x, r, ht, hcomp⟩ | ⟨r, q, ht, hcomp⟩
      · rw [hcomp, if_pos rfl, taken_append_some _ ht]
        obtain ⟨-, hbuf, hpend⟩ := ih (s := { s with buf := r, pend := .idle, resp := some x }) hcap ho hc rfl
        exact ⟨rfl, hbuf, hpend⟩
      · rw [hcomp, if_neg hp, taken_append_none _ ht]
        have hr : taken s.pend r = (none, r) := by simpa [ht] using (taken_append_none [] ht).symm
        exact ih (s := { s with buf := r, resp := q }) hcap ho hc hr

/-- Settles O27: both ways of feeding end as one pass over the same bytes. -/
theorem chunkingDoesNotChangeTheResult : Obligations.ChunkingDoesNotChangeTheResult := by
  intro cs s hcap ho hc hwait
  have hheld : taken s.pend s.buf = (none, s.buf) := by
    rcases hwait with ⟨hp, hno⟩ | ⟨count, hp, hlt⟩
    · have hnone : findEnd s.buf = none := (findEnd_eq_none_iff s.buf).mpr fun k hk =>
        hno k (List.getElem?_eq_some_iff.mp hk.1).1 hk
      simp [hp, taken, scan_of_noEnd hnone]
    · simp [hp, taken, hlt]
  have hone := feed_fedAs [cs.flatten] hcap ho hc hheld
  rw [List.flatten_singleton] at hone
  obtain ⟨hresp, hbuf, hpend⟩ := feed_fedAs cs hcap ho hc hheld
  obtain ⟨hresp1, hbuf1, hpend1⟩ := hone
  exact ⟨hresp.trans hresp1.symm, hbuf.trans hbuf1.symm, hpend.trans hpend1.symm⟩

/-! ### The step of a request -/

theorem step_of_decodeRequest {s : State} {agent : Agent} {q : Request} {rest : List Turn} {i : Instr}
    (ht : s.turns = .request agent q :: rest) (hd : decodeRequest q = .ok i) :
    step s = exec i ((s.setTurns rest).deliver i) := by
  simp only [step, ht, hd]

theorem step_of_rejected {s : State} {agent : Agent} {q : Request} {rest : List Turn} {r : RequestReject}
    (ht : s.turns = .request agent q :: rest) (hd : decodeRequest q = .error r) :
    step s = .refused (.badRequest r) := by
  simp only [step, ht, hd]

/-- Settles O49: DECODE and PARSE are the instructions with an operand space. -/
theorem aStepRunsTheDecodedRequest : Obligations.AStepRunsTheDecodedRequest := by
  intro s agent q rest ht
  refine ⟨fun i hi hdec hpar => ?_, fun F hF => ?_, fun B hB => ?_⟩
  · rw [step_of_decodeRequest ht hi, deliver_other hdec hpar]
    rfl
  · rw [step_of_decodeRequest ht hF, deliver_decode]
    rfl
  · rw [step_of_decodeRequest ht hB, deliver_parse]
    rfl

/-- A request for PARSE of a block that BLK cannot hold is rejected by type (R53). -/
theorem decodeRequest_blockTooLong {q : Request} (hop : q.op = 7) (h : 2 ^ 32 ≤ q.data.length) :
    decodeRequest q = .error .blockTooLong := by
  simpa [decodeRequest_eq, hop] using h

/-- Settles O58: the block outside BLK, the frame its length field cannot count, and the request for the former. -/
theorem operandsThatDoNotExistStopByName : Obligations.OperandsThatDoNotExistStopByName := by
  refine ⟨fun B s hB => execParse_far (Nat.not_lt.mpr hB) s, fun f s hf => ?_, fun s a q rest ht hop hlen => ?_⟩
  · rcases execFrame_cases f s with ⟨-, h⟩ | ⟨hle, -⟩
    · exact h
    · exact absurd hf (Nat.not_lt.mpr hle)
  · exact step_of_rejected ht (decodeRequest_blockTooLong hop hlen)

end Sys2Proof.Proofs
end

section
/-! Decoding what the encoders write (30_encoding.md, 20_memory.md section 4): the fields, the records, the frame and
the requests. -/

namespace Sys2Proof.Proofs

open BitVec (extractLsb'_append_eq_left extractLsb'_append_eq_right extractLsb'_append_eq_of_le
  extractLsb'_append_extractLsb' extractLsb'_append_extractLsb'_eq_extractLsb')

/-! ### The fields of a byte -/

/-- The kind of a header with two fields below it, of 3 and 2 bits (R91, R95, R100). -/
theorem kind_of_join (k a : BitVec 3) (b : BitVec 2) : (k ++ a ++ b : Byte).extractLsb' 5 3 = k := by
  rw [extractLsb'_append_eq_of_le (by decide)]
  exact extractLsb'_append_eq_left

theorem ignored0_of_join (k a : BitVec 3) (b : BitVec 2) : (k ++ a ++ b : Byte).extractLsb' 2 3 = a := by
  rw [extractLsb'_append_eq_of_le (by decide)]
  exact extractLsb'_append_eq_right

theorem middle_of_join (a : BitVec 4) (b c : BitVec 2) : (a ++ b ++ c : Byte).extractLsb' 2 2 = b := by
  rw [extractLsb'_append_eq_of_le (by decide)]
  exact extractLsb'_append_eq_right

theorem high_of_join (a : BitVec 4) (b c : BitVec 2) : (a ++ b ++ c : Byte).extractLsb' 4 4 = a := by
  rw [extractLsb'_append_eq_of_le (by decide)]
  exact extractLsb'_append_eq_left

/-! ### The fields that cross bytes -/

theorem velocityField_of_join (k a : BitVec 3) (v : BitVec 10) :
    velocityField (k ++ a ++ v.extractLsb' 8 2) (v.extractLsb' 0 8) = v := by
  rw [velocityField, show (k ++ a ++ v.extractLsb' 8 2 : Byte).extractLsb' 0 2 = v.extractLsb' 8 2 from
    extractLsb'_append_eq_right]
  exact extractLsb'_append_extractLsb'

theorem weekField_of_join (a : BitVec 4) (b : BitVec 2) (v : BitVec 10) :
    weekField (a ++ b ++ v.extractLsb' 8 2) (v.extractLsb' 0 8) = v := by
  rw [weekField, show (a ++ b ++ v.extractLsb' 8 2 : Byte).extractLsb' 0 2 = v.extractLsb' 8 2 from
    extractLsb'_append_eq_right]
  exact extractLsb'_append_extractLsb'

theorem towField_of_join (v : BitVec 20) (b c : BitVec 2) :
    towField (v.extractLsb' 0 4 ++ b ++ c) (v.extractLsb' 12 8) (v.extractLsb' 4 8) = v := by
  rw [towField, high_of_join, extractLsb'_append_extractLsb'_eq_extractLsb' (show 12 = 4 + 8 from rfl)]
  exact extractLsb'_append_extractLsb'

theorem me32_of_extract (v : Word32) :
    me32 (v.extractLsb' 8 8) (v.extractLsb' 0 8) (v.extractLsb' 24 8) (v.extractLsb' 16 8) = v := by
  rw [me32, extractLsb'_append_extractLsb'_eq_extractLsb' (show 24 = 16 + 8 from rfl),
    extractLsb'_append_extractLsb'_eq_extractLsb' (show 16 = 8 + 8 from rfl)]
  exact extractLsb'_append_extractLsb'

theorem be16_hi8_lo8 (v : BitVec 16) : be16 (hi8 v) (lo8 v) = v := extractLsb'_append_extractLsb'

theorem rdxField_of_join (v : BitVec 10) (b : BitVec 6) :
    rdxField (v.extractLsb' 2 8) (v.extractLsb' 0 2 ++ b) = v := by
  rw [rdxField, show (v.extractLsb' 0 2 ++ b : Byte).extractLsb' 6 2 = v.extractLsb' 0 2 from
    extractLsb'_append_eq_left]
  exact extractLsb'_append_extractLsb'

theorem rdyField_of_join (a : BitVec 2) (v : BitVec 10) (b c : BitVec 2) :
    rdyField (a ++ v.extractLsb' 4 6) (v.extractLsb' 0 4 ++ b ++ c) = v := by
  rw [rdyField, high_of_join, show (a ++ v.extractLsb' 4 6 : Byte).extractLsb' 0 6 = v.extractLsb' 4 6 from
    extractLsb'_append_eq_right]
  exact extractLsb'_append_extractLsb'

theorem rdzField_of_join (a : BitVec 4) (b : BitVec 2) (v : BitVec 10) :
    rdzField (a ++ b ++ v.extractLsb' 8 2) (v.extractLsb' 0 8) = v := weekField_of_join a b v

/-! ### The records -/

theorem decodeAbsolute_encodeAbsolute (k : BitVec 3) (r : AbsoluteRecord) (rest : List Byte) :
    decodeAbsolute (encodeAbsolute k r ++ rest) = some (r, rest) := by
  simp only [encodeAbsolute, encodeMe32, List.cons_append, List.nil_append, decodeAbsolute, ignored0_of_join,
    velocityField_of_join, towField_of_join, middle_of_join, weekField_of_join, me32_of_extract]

theorem decodeCompact_encodeCompact (r : CompactRecord) (rest : List Byte) :
    decodeCompact (encodeCompact r ++ rest) = some (r, rest) := by
  simp only [encodeCompact, List.cons_append, List.nil_append, decodeCompact, ignored0_of_join, velocityField_of_join,
    dtField, be16_hi8_lo8, rdxField_of_join, rdyField_of_join, middle_of_join, rdzField_of_join]

theorem decodeEmpty_encodeEmpty (r : EmptyRecord) (rest : List Byte) :
    decodeEmpty (encodeEmpty r ++ rest) = some (r, rest) := by
  simp only [encodeEmpty, List.cons_append, List.nil_append, decodeEmpty,
    show (7#3 ++ r.ignored0 : Byte).extractLsb' 0 5 = r.ignored0 from extractLsb'_append_eq_right]

/-- The kind reads no other bits than the header's top three (R91, R93). -/
theorem kindOf_eq {h : Byte} {k : BitVec 3} (hk : h.extractLsb' 5 3 = k) : kindOf h = kindOf (k ++ 0#5) := by
  unfold kindOf
  rw [hk, show (k ++ 0#5 : Byte).extractLsb' 5 3 = k from extractLsb'_append_eq_left]

/-- A record read behind any bytes: what an encoder writes is read back, with the bytes after it left (R91). -/
theorem decodeRecord_encodeRecord (r : LogRecord) (rest : List Byte) :
    decodeRecord (encodeRecord r ++ rest) = .ok (r, rest) := by
  have hkind : ∀ (k : BitVec 3) (low : BitVec 5), kindOf (k ++ low) = kindOf (k ++ 0#5) := fun k low =>
    kindOf_eq extractLsb'_append_eq_left
  have hlow : ∀ (k : BitVec 3) (low : BitVec 5), (k ++ low : Byte).extractLsb' 0 5 = low := fun k low =>
    extractLsb'_append_eq_right
  cases r with
  | full r | pointOfInterest r =>
    simp only [encodeRecord, encodeAbsolute, List.cons_append]
    rw [decodeRecord_cons, kindOf_eq (kind_of_join _ _ _)]
    exact congrArg (fits _) (decodeAbsolute_encodeAbsolute _ r rest)
  | compact r =>
    simp only [encodeRecord, encodeCompact, List.cons_append]
    rw [decodeRecord_cons, kindOf_eq (kind_of_join _ _ _)]
    exact congrArg (fits _) (decodeCompact_encodeCompact r rest)
  | empty r =>
    simp only [encodeRecord, encodeEmpty, List.cons_append]
    rw [decodeRecord_cons, hkind]
    exact congrArg (fits _) (decodeEmpty_encodeEmpty r rest)
  | reserved0 low | reserved1 low | reserved5 low | reserved6 low =>
    rw [encodeRecord, List.singleton_append, decodeRecord_cons, hkind, hlow]
    rfl

/-! ### The frame -/

/-- A frame as its five header bytes, its body and its three last bytes (R56, R82). -/
theorem encodeFrame_eq (f : WireFrame) :
    encodeFrame f =
      0xA0 :: 0xA1 :: hi8 (BitVec.ofNat 16 (1 + f.body.length)) :: lo8 (BitVec.ofNat 16 (1 + f.body.length)) ::
        f.identifier :: (f.body ++ [f.checksum, 0x0D, 0x0A]) := by
  simp [encodeFrame, Config.startMarker, Config.endMarker]

/-- The bytes behind the body. -/
theorem byteAt_encodeFrame_trailer (f : WireFrame) (i : Nat) :
    byteAt (encodeFrame f) (f.body.length + i + 5) = byteAt [f.checksum, 0x0D, 0x0A] i := by
  rw [encodeFrame_eq]
  simp only [byteAt, List.getD_cons_succ]
  rw [List.getD_append_right _ _ _ _ (Nat.le_add_right _ _), Nat.add_sub_cancel_left]

/-- The length field counts the identifier and the body (R84). -/
theorem encodeFrame_lengthField {f : WireFrame} (h : f.body.length ≤ 65534) :
    (be16 (byteAt (encodeFrame f) 2) (byteAt (encodeFrame f) 3)).toNat = f.body.length + 1 := by
  have hfield : be16 (byteAt (encodeFrame f) 2) (byteAt (encodeFrame f) 3) = BitVec.ofNat 16 (1 + f.body.length) := by
    rw [encodeFrame_eq]
    exact be16_hi8_lo8 _
  rw [hfield, BitVec.toNat_ofNat]
  omega

/-- A frame whose body the length field can count passes the five checks and is read back (R82, R124). -/
theorem decodeFrame_encodeFrame {f : WireFrame} (h : f.body.length ≤ 65534) : decodeFrame (encodeFrame f) = .ok f := by
  have hstart : byteAt (encodeFrame f) 0 = 0xA0 ∧ byteAt (encodeFrame f) 1 = 0xA1 ∧
      byteAt (encodeFrame f) 4 = f.identifier := by rw [encodeFrame_eq]; exact ⟨rfl, rfl, rfl⟩
  have hbody : memRead (encodeFrame f) 5 f.body.length = f.body := by
    rw [encodeFrame_eq]
    exact List.take_left
  have hchecksum : byteAt (encodeFrame f) (f.body.length + 5) = f.checksum := byteAt_encodeFrame_trailer f 0
  have hend0 : byteAt (encodeFrame f) (f.body.length + 6) = 0x0D := byteAt_encodeFrame_trailer f 1
  have hend1 : byteAt (encodeFrame f) (f.body.length + 7) = 0x0A := byteAt_encodeFrame_trailer f 2
  obtain ⟨hs0, hs1, hid⟩ := hstart
  simp only [decodeFrame, encodeFrame_lengthField h, Machine.encodeFrame_length]
  simp [hs0, hs1, hid, hend0, hend1, hbody, hchecksum, Nat.add_comm 4]

/-! ### The three code spaces together -/

theorem decode_record (r : LogRecord) : decode (.record (encodeRecord r)) = .ok r.toInstr := by
  have h := decodeRecord_encodeRecord r []
  rw [List.append_nil] at h
  simp only [decode, h]

theorem decode_wire {f : WireFrame} (h : f.body.length ≤ 65534) : decode (.wire (encodeFrame f)) = .ok (.frame f) := by
  simp only [decode, decodeFrame_encodeFrame h]

theorem decode_port {q : Request} {i : Instr} (h : decodeRequest q = .ok i) : decode (.port q) = .ok i := by
  simp only [decode, h]

/-- The eight codes from 8 on are reserved, told apart by their low three bits (R80). -/
theorem decodeRequest_reservedOp (low : BitVec 3) : decodeRequest (request (1#1 ++ low)) = .ok (.reservedOp low) := by
  revert low
  decide

/-- Settles O46, by the rows of the table: requests, records, the frame. -/
theorem decodeInvertsEncodeForEveryInstruction : Obligations.DecodeInvertsEncodeForEveryInstruction := by
  intro i hw
  cases i with
  | encode id body => rfl
  | decode F => rfl
  | append chunk => rfl
  | extractFrame => rfl
  | extractBytes count => rfl
  | cancel => rfl
  | clear => rfl
  | parse B => exact decode_port (if_pos (of_decide_eq_true hw))
  | reservedOp low => exact decode_port (decodeRequest_reservedOp low)
  | full r => exact decode_record (.full r)
  | pointOfInterest r => exact decode_record (.pointOfInterest r)
  | compact r => exact decode_record (.compact r)
  | empty r => exact decode_record (.empty r)
  | reservedKind0 low => exact decode_record (.reserved0 low)
  | reservedKind1 low => exact decode_record (.reserved1 low)
  | reservedKind5 low => exact decode_record (.reserved5 low)
  | reservedKind6 low => exact decode_record (.reserved6 low)
  | frame f => exact decode_wire (of_decide_eq_true hw)

end Sys2Proof.Proofs
end

section
/-! What the first bits of an encoding choose (30_encoding.md): the kind and the length of a record by its header, the
reserved operation by its select code, and that a record's ignored bits choose nothing. -/

namespace Sys2Proof.Proofs

open Sys2Proof.Machine Sys2Proof.Claims

/-! ### The kind a header names -/

/-- The kind's number in the header's top three bits (R93, R94). -/
def kindCode : Kind → Nat
  | .reserved0 => 0
  | .reserved1 => 1
  | .full => 2
  | .pointOfInterest => 3
  | .compact => 4
  | .reserved5 => 5
  | .reserved6 => 6
  | .empty => 7

theorem kindCode_kindOf (h : Byte) : kindCode (kindOf h) = h.toNat / 32 := by
  have hbits : (h.extractLsb' 5 3).toNat = h.toNat / 32 := by
    rw [BitVec.extractLsb'_toNat, Nat.shiftRight_eq_div_pow]
    omega
  rw [← hbits]
  have hlt := (h.extractLsb' 5 3).isLt
  unfold kindOf
  generalize (h.extractLsb' 5 3).toNat = code at hlt ⊢
  interval_cases code <;> rfl

theorem sizeOfHeader_eq (h : Byte) : sizeOfHeader h = (kindOf h).size := by
  unfold sizeOfHeader
  rw [← kindCode_kindOf]
  cases kindOf h <;> rfl

/-- The kind of a record read. -/
def recordKind : LogRecord → Kind
  | .full _ => .full
  | .pointOfInterest _ => .pointOfInterest
  | .compact _ => .compact
  | .empty _ => .empty
  | .reserved0 _ => .reserved0
  | .reserved1 _ => .reserved1
  | .reserved5 _ => .reserved5
  | .reserved6 _ => .reserved6

/-- The record read is of the kind its header names (R91, R93). -/
theorem recordKind_of_decodeRecord {h : Byte} {rest after : List Byte} {r : LogRecord}
    (hd : decodeRecord (h :: rest) = .ok (r, after)) : recordKind r = kindOf h := by
  rw [decodeRecord_cons] at hd
  cases hk : kindOf h <;> rw [hk] at hd
  case full | pointOfInterest | compact | empty =>
    obtain ⟨a, rfl, -⟩ := fits_ok hd
    rfl
  case reserved0 | reserved1 | reserved5 | reserved6 =>
    cases hd
    rfl

theorem kindCode_of_decodeRecord {h : Byte} {rest after : List Byte} {r : LogRecord}
    (hd : decodeRecord (h :: rest) = .ok (r, after)) : kindCode (recordKind r) = h.toNat / 32 := by
  rw [recordKind_of_decodeRecord hd, kindCode_kindOf]

theorem meaningful_iff_kindCode (r : LogRecord) :
    ((∃ a, r = .full a) ↔ kindCode (recordKind r) = 2) ∧
    ((∃ a, r = .pointOfInterest a) ↔ kindCode (recordKind r) = 3) ∧
    ((∃ c, r = .compact c) ↔ kindCode (recordKind r) = 4) ∧
    ((∃ e, r = .empty e) ↔ kindCode (recordKind r) = 7) := by
  cases r <;> simp [recordKind, kindCode]

theorem reserved_iff_kindCode (r : LogRecord) :
    ((∃ low, r = .reserved0 low) ↔ kindCode (recordKind r) = 0) ∧
    ((∃ low, r = .reserved1 low) ↔ kindCode (recordKind r) = 1) ∧
    ((∃ low, r = .reserved5 low) ↔ kindCode (recordKind r) = 5) ∧
    ((∃ low, r = .reserved6 low) ↔ kindCode (recordKind r) = 6) := by
  cases r <;> simp [recordKind, kindCode]

/-! ### The length a kind needs -/

/-- A reader that takes `n` bytes exactly where there are `n` decides by their number whether the record fits (R173). -/
theorem fits_of_length {α : Type} {n : Nat} {bs : List Byte} {o : Option (α × List Byte)} (wrap : α → LogRecord)
    (hsome : ∀ {rest a}, o = some (a, rest) → bs.length = rest.length + n ∧ rest = bs.drop n)
    (hnone : o = none → bs.length < n) :
    (bs.length < n → fits wrap o = .error .truncated) ∧ (n ≤ bs.length → ∃ r, fits wrap o = .ok (r, bs.drop n)) := by
  cases o with
  | none => exact ⟨fun _ => rfl, fun hn => absurd (hnone rfl) (Nat.not_lt.mpr hn)⟩
  | some p =>
    obtain ⟨a, rest⟩ := p
    obtain ⟨hlen, rfl⟩ := hsome rfl
    exact ⟨fun hn => by omega, fun _ => ⟨wrap a, rfl⟩⟩

/-- A record of a kind with a length is read or truncated by the number of bytes alone (R92, R173). -/
theorem decodeRecord_of_size {h : Byte} {rest : List Byte} {n : Nat} (hn : (kindOf h).size = some n) :
    (rest.length + 1 < n → decodeRecord (h :: rest) = .error .truncated) ∧
    (n ≤ rest.length + 1 → ∃ r, decodeRecord (h :: rest) = .ok (r, (h :: rest).drop n)) := by
  rw [decodeRecord_cons]
  cases hk : kindOf h <;> rw [hk] at hn <;> cases hn
  case full => exact fits_of_length (bs := h :: rest) .full decodeAbsolute_some decodeAbsolute_none
  case pointOfInterest => exact fits_of_length (bs := h :: rest) .pointOfInterest decodeAbsolute_some decodeAbsolute_none
  case compact => exact fits_of_length (bs := h :: rest) .compact decodeCompact_some decodeCompact_none
  case empty => exact fits_of_length (bs := h :: rest) .empty decodeEmpty_some decodeEmpty_none

/-- A record of a reserved kind is read from its header alone (R178). -/
theorem decodeRecord_of_size_none {h : Byte} (rest : List Byte) (hn : (kindOf h).size = none) :
    ∃ r, decodeRecord (h :: rest) = .ok (r, rest) := by
  rw [decodeRecord_cons]
  cases hk : kindOf h <;> rw [hk] at hn <;> cases hn <;> exact ⟨_, rfl⟩

/-- Settles O30: the length comes from the kind's reader, the kind from the header's top three bits. -/
theorem headerFixesKindAndLength : Obligations.HeaderFixesKindAndLength := by
  intro h rest
  rw [sizeOfHeader_eq]
  refine ⟨fun n hn => ⟨(decodeRecord_of_size hn).1, fun hlen => ?_⟩, fun hn => ?_⟩
  · obtain ⟨r, hr⟩ := (decodeRecord_of_size hn).2 hlen
    exact ⟨r, hr, kindCode_of_decodeRecord hr ▸ meaningful_iff_kindCode r⟩
  · obtain ⟨r, hr⟩ := decodeRecord_of_size_none rest hn
    exact ⟨r, hr, kindCode_of_decodeRecord hr ▸ reserved_iff_kindCode r⟩

/-! ### Ignored bits -/

/-- Settles O37: a record's step reads its fields through the fix it gives (`absoluteFix`, `compactFix`), which takes no
ignored bit, and the step of EMPTY takes no record at all. -/
theorem ignoredBitsHaveNoEffect : Obligations.IgnoredBitsHaveNoEffect := by
  intro s a c e e' i0 i2
  exact ⟨rfl, rfl, rfl, rfl⟩

/-! ### The reserved select codes -/

/-- No code below 8 is a code from 8 on, so the last row of the select codes is left (R80). -/
theorem decodeRequest_of_reserved {q : Request} (h : 8 ≤ q.op.toNat) :
    decodeRequest q = .ok (.reservedOp (q.op.extractLsb' 0 3)) := by
  have hne : ∀ k : BitVec 4, k.toNat < 8 → q.op ≠ k := by
    rintro k hk rfl
    omega
  simp [decodeRequest_eq, hne]

/-- A code from 8 on is its low three bits below a 1. -/
theorem one_append_low_of_reserved {op : BitVec 4} (h : 8 ≤ op.toNat) : 1#1 ++ op.extractLsb' 0 3 = op := by
  revert op
  decide

theorem exec_reservedOp_of_reserved {op : BitVec 4} (h : 8 ≤ op.toNat) (s : State) :
    exec (.reservedOp (op.extractLsb' 0 3)) s = .next (s.raise (.illegalOperation op)) := by
  simp only [exec, execReservedOp, one_append_low_of_reserved h]

/-- Settles O45: the reserved operation's code is put together again from the bits the decoder kept. -/
theorem reservedSelectCodesAreIllegalOperations : Obligations.ReservedSelectCodesAreIllegalOperations := by
  intro q s h
  exact ⟨_, decodeRequest_of_reserved h, exec_reservedOp_of_reserved h s⟩

end Sys2Proof.Proofs
end

section
/-! The frame codec (40_frame_codec.md): the checksum as a fold, ENCODE's frame byte by byte, DECODE's five checks in the
order they are made, and what a changed byte does to them. -/

namespace Sys2Proof.Proofs

open Sys2Proof.Machine Sys2Proof.Claims

/-! ### The checksum -/

/-- The machine's accumulator is the source's loop (R120). -/
theorem chkOf_eq_fold (id : Byte) (body : List Byte) : chkOf id body = fold id body := by
  unfold chkOf
  induction body generalizing id with
  | nil => rfl
  | cons b body ih => exact ih (id ^^^ b)

theorem chkOf_eq_xorfold (id : Byte) (body : List Byte) : chkOf id body = id ^^^ xorfold body := by
  unfold chkOf
  induction body generalizing id with
  | nil => exact BitVec.xor_zero.symm
  | cons b body ih => exact (ih (id ^^^ b)).trans (BitVec.xor_assoc ..)

theorem fold_eq_xorfold (id : Byte) (body : List Byte) : fold id body = id ^^^ xorfold body := by
  rw [← chkOf_eq_fold, chkOf_eq_xorfold]

/-- A bit of the fold is the parity of that bit over the bytes (R120). -/
theorem getLsbD_xorfold (bytes : List Byte) (k : Nat) :
    (xorfold bytes).getLsbD k = decide (bytes.countP (·.getLsbD k) % 2 = 1) := by
  induction bytes with
  | nil => exact BitVec.getLsbD_zero
  | cons b bytes ih =>
    rw [xorfold, BitVec.getLsbD_xor, ih, List.countP_cons]
    cases b.getLsbD k
    · simp
    · simp only [if_true, Bool.true_xor, ← decide_not, decide_eq_decide]
      omega

/-- Changing one byte by a difference changes the fold by it. -/
theorem xorfold_modify {bytes : List Byte} {i : Nat} (h : i < bytes.length) (d : Byte) :
    xorfold (bytes.modify i (· ^^^ d)) = xorfold bytes ^^^ d := by
  induction bytes generalizing i with
  | nil => simp at h
  | cons b bytes ih =>
    cases i with
    | zero => simp only [List.modify_zero_cons, xorfold, BitVec.xor_assoc, BitVec.xor_comm d]
    | succ i => simp only [List.modify_succ_cons, xorfold, ih (Nat.lt_of_succ_lt_succ h), BitVec.xor_assoc]

/-- Settles O3: XOR is associative and commutative, and the identifier is one more byte of the fold. -/
theorem checksumFoldsEveryByteOnceInAnyOrder : Obligations.ChecksumFoldsEveryByteOnceInAnyOrder := by
  refine ⟨fun id => rfl, chkOf_eq_xorfold, fun id body body' h => ?_, fun id body k => ?_⟩
  · rw [chkOf_eq_fold, chkOf_eq_fold]
    exact h.foldl_eq id
  · rw [chkOf_eq_xorfold]
    exact getLsbD_xorfold (id :: body) k

/-! ### The frame ENCODE answers -/

theorem hi8_ofNat (n : Nat) : hi8 (BitVec.ofNat 16 n) = BitVec.ofNat 8 (n / 256) := by
  apply BitVec.eq_of_toNat_eq
  simp only [hi8, BitVec.extractLsb'_toNat, BitVec.toNat_ofNat, Nat.shiftRight_eq_div_pow]
  omega

theorem lo8_ofNat (n : Nat) : lo8 (BitVec.ofNat 16 n) = BitVec.ofNat 8 (n % 256) := by
  apply BitVec.eq_of_toNat_eq
  simp only [lo8, BitVec.extractLsb'_toNat, BitVec.toNat_ofNat, Nat.shiftRight_eq_div_pow]
  omega

/-- The encoder writes the map of R56. -/
theorem encodeFrame_eq_wire (id : Byte) (body : List Byte) (rx : Byte) :
    encodeFrame ⟨id, body, rx⟩ = wire id body rx := by
  rw [encodeFrame_eq, hi8_ofNat, lo8_ofNat]
  rfl

theorem exec_encode_of_fits {body : List Byte} (h : body.length ≤ 65534) (id : Byte) (s : State) :
    exec (.encode id body) s = .next
      { s with
        chk := fold id body
        frmOut := wire id body (fold id body)
        resp := some (.encoded (wire id body (fold id body))) } := by
  rcases execEncode_cases id body s with ⟨hlong, -⟩ | ⟨-, he⟩
  · omega
  · rw [encodeFrame_eq_wire, chkOf_eq_fold] at he
    exact he

theorem exec_encode_of_long {body : List Byte} (h : 65534 < body.length) (id : Byte) (s : State) :
    exec (.encode id body) s = .next (s.raise (.lengthOverflow body.length)) := if_pos h

/-- Settles O1: ENCODE's two ends, its frame read by the map of R56. -/
theorem encodeGivesTheFrameOrLengthOverflow : Obligations.EncodeGivesTheFrameOrLengthOverflow := by
  intro id body count s
  exact ⟨rfl, fun h => ⟨_, exec_encode_of_fits h id s⟩, fun h => exec_encode_of_long h id s⟩

theorem wire_length (id : Byte) (body : List Byte) (rx : Byte) : (wire id body rx).length = body.length + 8 := by
  rw [← encodeFrame_eq_wire, encodeFrame_length]

/-- The length field in arithmetic (R84). -/
theorem wire_lengthField {body : List Byte} (h : body.length ≤ 65534) (id rx : Byte) :
    nb (wire id body rx) 2 * 256 + nb (wire id body rx) 3 = 1 + body.length := by
  rw [← encodeFrame_eq_wire, Nat.add_comm 1, ← encodeFrame_lengthField (f := ⟨id, body, rx⟩) h, be16_toNat]
  rfl

/-- The bytes behind the body: the checksum and the end marker (R56). -/
theorem wire_getElem?_trailer (id : Byte) (body : List Byte) (rx : Byte) (i : Nat) :
    (wire id body rx)[5 + body.length + i]? = ([rx, 0x0D, 0x0A] : List Byte)[i]? := by
  have hhead : ∀ h : List Byte, h.length = 5 → (h ++ body ++ [rx, 0x0D, 0x0A])[5 + body.length + i]? =
      ([rx, 0x0D, 0x0A] : List Byte)[i]? := fun h h5 => by
    rw [List.getElem?_append_right (by simp only [List.length_append]; omega), List.length_append, h5,
      Nat.add_sub_cancel_left]
  exact hhead _ rfl

/-- Settles O2: the map of R56, with the checksum as the fold. -/
theorem everyEncodedFrameHasTheFixedShape : Obligations.EveryEncodedFrameHasTheFixedShape := by
  intro id body s h
  refine ⟨_, _, exec_encode_of_fits h id s, rfl, rfl, rfl, wire_lengthField h _ _, ?_, rfl, ?_, ?_, ?_, ?_⟩
  · rw [wire_length]
    omega
  · exact List.take_left
  · rw [← fold_eq_xorfold]
    exact wire_getElem?_trailer id body _ 0
  · rw [wire_length, show body.length + 8 - 2 = 5 + body.length + 1 by omega]
    exact wire_getElem?_trailer id body _ 1
  · rw [wire_length, show body.length + 8 - 1 = 5 + body.length + 2 by omega]
    exact wire_getElem?_trailer id body _ 2

/-! ### The five checks of DECODE -/

theorem byteAt_eq_iff {F : List Byte} {k : Nat} (h : k < F.length) (b : Byte) : byteAt F k = b ↔ F[k]? = some b := by
  rw [byteAt, List.getD_eq_getElem _ _ h, List.getElem?_eq_getElem h, Option.some_inj]

/-- The five checks on the bytes of the map of R56, then the message (R124). -/
theorem decodeFrame_eq (F : List Byte) :
    decodeFrame F =
      if F.length < 8 then .error .tooShort
      else if ¬ Starts F then .error .startMarker
      else if nb F 2 * 256 + nb F 3 = 0 then .error .zeroLength
      else if F.length ≠ nb F 2 * 256 + nb F 3 + 7 then .error .lengthMismatch
      else if ¬ EndAt F (F.length - 2) then .error .endMarker
      else .ok
        ⟨F.getD 4 0, (F.drop 5).take (nb F 2 * 256 + nb F 3 - 1), F.getD (4 + (nb F 2 * 256 + nb F 3)) 0⟩ := by
  by_cases h8 : F.length < 8
  · rw [if_pos h8]
    exact if_pos h8
  · have hstart : (byteAt F 0 ≠ 0xA0 ∨ byteAt F 1 ≠ 0xA1) ↔ ¬ Starts F := by
      rw [Starts, ← byteAt_eq_iff (by omega), ← byteAt_eq_iff (by omega), not_and_or]
    have hend : (byteAt F (F.length - 2) ≠ 0x0D ∨ byteAt F (F.length - 1) ≠ 0x0A) ↔ ¬ EndAt F (F.length - 2) := by
      rw [EndAt, show F.length - 2 + 1 = F.length - 1 by omega, ← byteAt_eq_iff (by omega), ← byteAt_eq_iff (by omega),
        not_and_or]
    have hlength : (be16 (byteAt F 2) (byteAt F 3)).toNat = nb F 2 * 256 + nb F 3 := be16_toNat _ _
    simp only [decodeFrame, hstart, hend, hlength]
    rfl

theorem exec_decode_of_error {F : List Byte} {c : FrameCheck} (h : decodeFrame F = .error c) (s : State) :
    exec (.decode F) s = .next (s.raise (.malformedFrame c)) := by
  simp only [exec, execDecode, h]

theorem exec_decode_of_ok {F : List Byte} {f : WireFrame} (h : decodeFrame F = .ok f) (s : State) :
    exec (.decode F) s = .next (s.deliverMessage f) := by
  simp only [exec, execDecode, h]

/-- What delivering answers, the checksum compared with the source's loop (R125). -/
theorem deliverMessage_eq_fold (f : WireFrame) (s : State) :
    s.deliverMessage f =
      { s with
        chk := chkOf f.identifier f.body
        resp := some (.decoded f.identifier f.body (f.checksum == fold f.identifier f.body)) } := by
  rw [← chkOf_eq_fold]
  rfl

/-- Settles O4: the statement is the chain of `decodeFrame_eq`, an error of which is raised and a message delivered. -/
theorem decodeMakesFiveChecksInOrder : Obligations.DecodeMakesFiveChecksInOrder := by
  intro F s id count
  refine ⟨rfl, ?_, rfl, rfl, rfl, rfl, rfl⟩
  intro L
  have hd := decodeFrame_eq F
  split_ifs at hd ⊢
  pick_goal 4
  · exact ⟨_, (exec_decode_of_ok hd s).trans (congrArg _ (deliverMessage_eq_fold _ s))⟩
  all_goals exact exec_decode_of_error hd s

/-! ### DECODE of a frame -/

theorem decodeFrame_wire {body : List Byte} (h : body.length ≤ 65534) (id rx : Byte) :
    decodeFrame (wire id body rx) = .ok ⟨id, body, rx⟩ := by
  rw [← encodeFrame_eq_wire]
  exact decodeFrame_encodeFrame h

/-- DECODE of a frame answers its message, the checksum byte compared with the fold (R125). -/
theorem exec_decode_wire {id rx : Byte} {body : List Byte} {valid : Bool} (h : body.length ≤ 65534)
    (hvalid : (rx == fold id body) = valid) (s : State) :
    ∃ t, exec (.decode (wire id body rx)) s = .next t ∧ t.resp = some (.decoded id body valid) := by
  refine ⟨_, exec_decode_of_ok (decodeFrame_wire h id rx) s, ?_⟩
  rw [deliverMessage_eq_fold, hvalid]

/-- Settles O5: no check reads the checksum byte. -/
theorem checksumMismatchIsData : Obligations.ChecksumMismatchIsData := by
  intro id rx body s h
  exact exec_decode_wire h rfl s

/-- Settles O6: ENCODE writes the fold that DECODE compares with. -/
theorem decodeInvertsEncode : Obligations.DecodeInvertsEncode := by
  intro id body s s' h
  obtain ⟨u, hu, hresp⟩ := exec_decode_wire h (beq_self_eq_true (fold id body)) s'
  exact ⟨_, _, u, exec_encode_of_fits h id s, rfl, hu, hresp⟩

/-! ### Changed bytes -/

theorem modify_append_of_lt {l : List Byte} {i : Nat} (h : i < l.length) (r : List Byte) (f : Byte → Byte) :
    (l ++ r).modify i f = l.modify i f ++ r := by
  rw [List.modify_eq_set, List.modify_eq_set, List.set_append_left _ _ h, List.getElem?_append_left h]

/-- A changed byte among identifier and body leaves a frame with the same length and checksum byte, whose fold has
changed by the difference (R127). -/
theorem wire_modify_message {body : List Byte} {k : Nat} (hk : 4 ≤ k ∧ k ≤ 4 + body.length) (id rx d : Byte) :
    ∃ id' body', (wire id body rx).modify k (· ^^^ d) = wire id' body' rx ∧ body'.length = body.length ∧
      fold id' body' = fold id body ^^^ d := by
  obtain ⟨i, rfl⟩ := Nat.exists_eq_add_of_le' hk.1
  simp only [fold_eq_xorfold]
  cases i with
  | zero =>
    refine ⟨id ^^^ d, body, rfl, rfl, ?_⟩
    rw [BitVec.xor_assoc, BitVec.xor_comm d, BitVec.xor_assoc]
  | succ i =>
    have hi : i < body.length := by omega
    refine ⟨id, body.modify i (· ^^^ d), ?_, List.length_modify .., ?_⟩
    · simp only [wire, List.cons_append, List.nil_append, List.modify_succ_cons, List.length_modify,
        modify_append_of_lt hi]
    · rw [xorfold_modify hi, BitVec.xor_assoc]

/-- A changed checksum byte changes nothing else (R127). -/
theorem wire_modify_checksum (id : Byte) (body : List Byte) (rx d : Byte) :
    (wire id body rx).modify (5 + body.length) (· ^^^ d) = wire id body (rx ^^^ d) := by
  rw [Nat.add_comm 5]
  exact congrArg (_ :: _ :: _ :: _ :: _ :: ·) (List.modifyTailIdx_add _ 0 body [rx, 0x0D, 0x0A])

/-- What DECODE has checked of the bytes it answers with a message (R124). -/
theorem checks_of_decodeFrame_ok {F : List Byte} {f : WireFrame} (h : decodeFrame F = .ok f) :
    Starts F ∧ F.length = nb F 2 * 256 + nb F 3 + 7 ∧ EndAt F (F.length - 2) := by
  rw [decodeFrame_eq] at h
  split_ifs at h with h8 hstart hzero hlength hend
  exact ⟨hstart, not_not.mp hlength, hend⟩

/-- The length fixes the marker and length bytes of what DECODE answers with a message. -/
theorem fixedByte_of_decodeFrame_ok {F G : List Byte} {f g : WireFrame} (hF : decodeFrame F = .ok f)
    (hG : decodeFrame G = .ok g) (hlen : F.length = G.length) {k : Nat} (hk : k < 4 ∨ F.length - 2 ≤ k)
    (hlt : k < F.length) : F[k]? = G[k]? := by
  obtain ⟨⟨hF0, hF1⟩, hFlen, hFend0, hFend1⟩ := checks_of_decodeFrame_ok hF
  obtain ⟨⟨hG0, hG1⟩, hGlen, hGend0, hGend1⟩ := checks_of_decodeFrame_ok hG
  have hbyte : ∀ i, i < F.length → nb F i = nb G i → F[i]? = G[i]? := fun i hi h =>
    ((byteAt_eq_iff hi _).mp (BitVec.eq_of_toNat_eq h)).trans ((byteAt_eq_iff (hlen ▸ hi) _).mp rfl).symm
  have hF3 : nb F 3 < 256 := BitVec.isLt _
  have hG3 : nb G 3 < 256 := BitVec.isLt _
  rw [← hlen] at hGlen hGend0 hGend1
  obtain rfl | rfl | rfl | rfl | rfl | rfl :
      k = 0 ∨ k = 1 ∨ k = 2 ∨ k = 3 ∨ k = F.length - 2 ∨ k = F.length - 2 + 1 := by omega
  · rw [hF0, hG0]
  · rw [hF1, hG1]
  · exact hbyte 2 hlt (by omega)
  · exact hbyte 3 hlt (by omega)
  · rw [hFend0, hGend0]
  · rw [hFend1, hGend1]

theorem xor_ne_left (b : Byte) {d : Byte} (hd : d ≠ 0) : b ≠ b ^^^ d := fun h =>
  hd ((BitVec.xor_right_inj b).mp (h.symm.trans BitVec.xor_zero.symm))

/-- A changed marker or length byte is noticed by one of the five checks (R127). -/
theorem decodeFrame_modify_fixedByte {F : List Byte} {f : WireFrame} (hF : decodeFrame F = .ok f) {k : Nat}
    (hk : k < 4 ∨ F.length - 2 ≤ k) (hlt : k < F.length) {d : Byte} (hd : d ≠ 0) :
    ∃ c, decodeFrame (F.modify k (· ^^^ d)) = .error c := by
  cases hG : decodeFrame (F.modify k (· ^^^ d)) with
  | error c => exact ⟨c, rfl⟩
  | ok g =>
    have hsame := fixedByte_of_decodeFrame_ok hF hG (List.length_modify ..).symm hk hlt
    rw [List.getElem?_modify_eq, List.getElem?_eq_getElem hlt] at hsame
    exact absurd (Option.some_inj.mp hsame) (xor_ne_left _ hd)

/-- Settles O7: a changed byte of the message moves the fold, one of the checksum moves the byte compared with it, and
any other is checked. -/
theorem oneChangedByteIsDetected : Obligations.OneChangedByteIsDetected := by
  intro id body s k d hlen hd hk
  obtain hm | rfl | hfix : (4 ≤ k ∧ k ≤ 4 + body.length) ∨ k = 5 + body.length ∨ (k < 4 ∨ 5 + body.length < k) := by
    omega
  · obtain ⟨id', body', hF, hlen', hfold⟩ := wire_modify_message hm id (fold id body) d
    rw [hF]
    obtain ⟨t, ht, hresp⟩ := exec_decode_wire (hlen'.trans_le hlen)
      (beq_eq_false_iff_ne.mpr (hfold ▸ xor_ne_left (fold id body) hd)) s
    refine ⟨t, ht, fun _ => ⟨id', body', hresp⟩, by omega, by omega, fun j _ hj _ => ?_⟩
    obtain ⟨id'', body'', hF', hlen'', hfold'⟩ := wire_modify_message (hlen'.symm ▸ hj) id' (fold id body) d
    rw [hF']
    have hcancel : fold id body = fold id'' body'' := by
      rw [hfold', hfold, BitVec.xor_assoc, BitVec.xor_self]
      exact BitVec.xor_zero.symm
    obtain ⟨u, hu, hresp'⟩ := exec_decode_wire ((hlen''.trans hlen').trans_le hlen) (beq_iff_eq.mpr hcancel) s
    exact ⟨u, id'', body'', hu, hresp'⟩
  · rw [wire_modify_checksum]
    obtain ⟨t, ht, hresp⟩ := exec_decode_wire hlen (beq_eq_false_iff_ne.mpr (xor_ne_left (fold id body) hd).symm) s
    exact ⟨t, ht, by omega, fun _ => hresp, by omega, fun _ _ => by omega⟩
  · have hlt : k < (wire id body (fold id body)).length := by rwa [wire_length]
    obtain ⟨c, hc⟩ := decodeFrame_modify_fixedByte (decodeFrame_wire hlen id (fold id body)) (k := k)
      (by rw [wire_length]; omega) hlt hd
    exact ⟨_, exec_decode_of_error hc s, by omega, by omega, fun _ => ⟨c, rfl⟩, fun _ _ => by omega⟩

/-! ### DECODE of what an extraction returned -/

/-- SCAN's frame is a candidate that begins with the start marker (R145). -/
theorem scan_some_spec {s f r : List Byte} (h : scan s = (some f, r)) : Candidate f ∧ Starts f := by
  induction s using scan_induction with
  | done s hk => rw [scan_of_noEnd hk] at h; cases h
  | found s k hk hf =>
    rw [scan_of_found hk hf] at h
    cases h
    exact ⟨candidate_of_findEnd hk, (startsFrame_iff _).mp hf⟩
  | discard s k hk hf ih => exact ih (scan_of_discard hk hf ▸ h)

/-- An extraction's frame has both markers (R147). -/
theorem returns_marked {s t : State} {f : List Byte} (h : Returns s t f) : Starts f ∧ EndAt f (f.length - 2) := by
  obtain rfl := returns_framePass h
  obtain ⟨⟨-, hend, -⟩, hstart⟩ := scan_some_spec (scan_of_framePass_frame h.1)
  exact ⟨hstart, hend⟩

/-- A check that fails is the one DECODE reports (R124). -/
theorem decodeFrame_of_exec_malformed {F : List Byte} {s u : State} {c : FrameCheck}
    (h : exec (.decode F) s = .next u) (hu : u.resp = some (.error (.malformedFrame c))) :
    decodeFrame F = .error c := by
  rcases execDecode_cases F s with ⟨e, hd, he⟩ | ⟨f, -, he⟩ <;> cases he.symm.trans h <;> cases hu
  exact hd

theorem decodeFrame_ne_startMarker {F : List Byte} (h : Starts F) : decodeFrame F ≠ .error .startMarker := by
  rw [decodeFrame_eq]
  split_ifs <;> simp

theorem decodeFrame_ne_endMarker {F : List Byte} (h : EndAt F (F.length - 2)) : decodeFrame F ≠ .error .endMarker := by
  rw [decodeFrame_eq]
  split_ifs <;> simp

/-- A buffer that holds one frame: EXTRACT_FRAME returns it, and DECODE of it makes its checks. -/
theorem returns_malformed_of_scan {F : List Byte} {c : FrameCheck} (hscan : scan F = (some F, []))
    (hd : decodeFrame F = .error c) :
    ∃ s t f u, Returns s t f ∧ exec (.decode f) t = .next u ∧ u.resp = some (.error (.malformedFrame c)) := by
  have hpass := exec_extractFrame_setPend_idle { State.reset with buf := F }
  rcases framePass_cases { State.reset with buf := F } with ⟨f, rest, hs, ht⟩ | ⟨rest, hs, -⟩ <;>
    cases hs.symm.trans hscan
  exact ⟨_, _, F, _, ⟨by rw [ht], .inl hpass⟩, exec_decode_of_error hd _, rfl⟩

/-- Settles O9: EXTRACT_FRAME has looked for the two markers and for nothing else. -/
theorem decodeAfterExtractFailsOnlyOneThreeFour : Obligations.DecodeAfterExtractFailsOnlyOneThreeFour := by
  constructor
  · intro s s' t u f hret h
    obtain ⟨hstart, hend⟩ := returns_marked hret
    exact ⟨fun hu => decodeFrame_ne_startMarker hstart (decodeFrame_of_exec_malformed h hu),
      fun hu => decodeFrame_ne_endMarker hend (decodeFrame_of_exec_malformed h hu)⟩
  · simp only [List.forall_mem_cons, List.not_mem_nil, false_imp_iff, implies_true, and_true]
    refine ⟨?tooShort, ?zeroLength, ?lengthMismatch⟩
    case tooShort => exact returns_malformed_of_scan (F := [0xA0, 0xA1, 0x0D, 0x0A]) (by decide) (by decide)
    case zeroLength =>
      exact returns_malformed_of_scan (F := [0xA0, 0xA1, 0x00, 0x00, 0x02, 0x02, 0x0D, 0x0A]) (by decide) (by decide)
    case lengthMismatch =>
      exact returns_malformed_of_scan (F := [0xA0, 0xA1, 0x00, 0x02, 0x02, 0x02, 0x0D, 0x0A]) (by decide) (by decide)

/-! ### The frame of the codec operations -/

/-- The three codec instructions write the accumulator, the response and, if it is ENCODE, FRM_OUT. -/
theorem exec_codecOperation_writes {i : Instr} {s t : State}
    (hi : (∃ id body, i = .encode id body) ∨ (∃ F, i = .decode F) ∨ ∃ f, i = .frame f) (h : exec i s = .next t) :
    ∃ c o r, t = { s with chk := c, frmOut := o, resp := r } ∧ ((∀ id body, i ≠ .encode id body) → o = s.frmOut) := by
  rcases hi with ⟨id, body, rfl⟩ | ⟨F, rfl⟩ | ⟨f, rfl⟩
  · have hne : ¬ ∀ id' body', Instr.encode id body ≠ .encode id' body' := fun hn => hn id body rfl
    rcases execEncode_cases id body s with ⟨-, he⟩ | ⟨-, he⟩ <;> cases he.symm.trans h <;>
      exact ⟨_, _, _, rfl, fun hn => absurd hn hne⟩
  · rcases execDecode_cases F s with ⟨e, -, he⟩ | ⟨f, -, he⟩ <;> cases he.symm.trans h <;>
      exact ⟨_, _, _, rfl, fun _ => rfl⟩
  · rcases execFrame_cases f s with ⟨-, he⟩ | ⟨-, he⟩ <;> cases he.symm.trans h
    exact ⟨_, _, _, rfl, fun _ => rfl⟩

/-- Settles O10: what is written lies outside the buffer, the decoder, FRM_IN and the schedule. -/
theorem codecOperationsLeaveBufferAndDecoderAlone : Obligations.CodecOperationsLeaveBufferAndDecoderAlone := by
  intro i s t hi h
  obtain ⟨c, o, r, rfl, ho⟩ := exec_codecOperation_writes hi h
  exact ⟨⟨rfl, rfl, rfl, rfl, rfl⟩, ⟨rfl, rfl, rfl, rfl, rfl, rfl, rfl, rfl, rfl⟩, rfl, rfl, ho⟩

end Sys2Proof.Proofs
end

section
/-! The reassembly buffer (41_reassembly_buffer.md): FIND_END and SCAN on candidates, the ends of the two extractions,
what waits and what fails, and the finite-state machine of EXTRACT_FRAME. -/

namespace Sys2Proof.Proofs

open Sys2Proof.Machine Sys2Proof.Claims

/-! ### FIND_END and SCAN -/

/-- FIND_END is the least index of an end marker (R144). -/
theorem findEnd_eq_some_iff (s : List Byte) (k : Nat) :
    findEnd s = some k ↔ EndAt s k ∧ ∀ j, j < k → ¬ EndAt s j := by
  refine ⟨findEnd_eq_some_spec, fun ⟨hat, hfirst⟩ => ?_⟩
  cases h : findEnd s with
  | none => exact absurd hat ((findEnd_eq_none_iff s).mp h k)
  | some m =>
    obtain ⟨hatm, hfirstm⟩ := findEnd_eq_some_spec h
    rcases lt_trichotomy m k with hlt | rfl | hgt
    · exact absurd hatm (hfirst m hlt)
    · rfl
    · exact absurd hat (hfirstm k hgt)

/-- Settles O11: both answers are characterised. -/
theorem findEndIsTheLeastEndMarker : Obligations.FindEndIsTheLeastEndMarker :=
  fun s => ⟨findEnd_eq_some_iff s, findEnd_eq_none_iff s⟩

theorem endAt_lt_length {s : List Byte} {k : Nat} (h : EndAt s k) : k < s.length :=
  (List.getElem?_eq_some_iff.mp h.1).1

/-- Beyond the string there is no end marker, so the bound on the index does not matter. -/
theorem findEnd_eq_none_iff_noEnd (s : List Byte) : findEnd s = none ↔ NoEnd s :=
  (findEnd_eq_none_iff s).trans ⟨fun h k _ => h k, fun h k hk => h k (endAt_lt_length hk) hk⟩

/-- The first cut of a string that begins with a candidate is that candidate (R145). -/
theorem findEnd_candidate_append {c : List Byte} (hc : Candidate c) (t : List Byte) :
    findEnd (c ++ t) = some (c.length - 2) := by
  obtain ⟨-, hend, hfirst⟩ := hc
  exact findEnd_append t ((findEnd_eq_some_iff c _).mpr ⟨hend, hfirst⟩)

theorem take_candidate_append {c : List Byte} (hc : Candidate c) (t : List Byte) :
    (c ++ t).take (c.length - 2 + 2) = c := by
  rw [Nat.sub_add_cancel hc.1, List.take_left]

theorem drop_candidate_append {c : List Byte} (hc : Candidate c) (t : List Byte) :
    (c ++ t).drop (c.length - 2 + 2) = t := by
  rw [Nat.sub_add_cancel hc.1, List.drop_left]

theorem scan_candidate_append {c : List Byte} (hc : Candidate c) (hs : Starts c) (t : List Byte) :
    scan (c ++ t) = (some c, t) := by
  have h := scan_of_found (findEnd_candidate_append hc t)
  rw [take_candidate_append hc, drop_candidate_append hc] at h
  exact h ((startsFrame_iff c).mpr hs)

theorem scan_discarded_append {c : List Byte} (hc : Candidate c) (hs : ¬ Starts c) (t : List Byte) :
    scan (c ++ t) = scan t := by
  have h := scan_of_discard (findEnd_candidate_append hc t)
  rw [take_candidate_append hc, drop_candidate_append hc] at h
  exact h (Bool.eq_false_iff.mpr (mt (startsFrame_iff c).mp hs))

/-- SCAN goes on behind the candidates it discards (R145). -/
theorem scan_garbage_append {gs : List (List Byte)} (hgs : Garbage gs) (t : List Byte) :
    scan (gs.flatten ++ t) = scan t := by
  induction gs with
  | nil => rfl
  | cons g gs ih =>
    obtain ⟨⟨hc, hs⟩, hrest⟩ := List.forall_mem_cons.mp hgs
    rw [List.flatten_cons, List.append_assoc, scan_discarded_append hc hs, ih hrest]

theorem scan_garbage_frame {gs : List (List Byte)} {f : List Byte} (hgs : Garbage gs) (hc : Candidate f)
    (hs : Starts f) (rest : List Byte) : scan (gs.flatten ++ f ++ rest) = (some f, rest) := by
  rw [List.append_assoc, scan_garbage_append hgs, scan_candidate_append hc hs]

theorem scan_garbage_noEnd {gs : List (List Byte)} {tail : List Byte} (hgs : Garbage gs) (ht : NoEnd tail) :
    scan (gs.flatten ++ tail) = (none, tail) := by
  rw [scan_garbage_append hgs, scan_of_noEnd ((findEnd_eq_none_iff_noEnd tail).mpr ht)]

/-- Settles O12: the shape of a string is read off what SCAN returns on it. -/
theorem scanCutsTestsAndDiscards : Obligations.ScanCutsTestsAndDiscards := by
  refine ⟨fun gs f rest hgs hc hs => scan_garbage_frame hgs hc hs rest,
    fun gs tail hgs ht => scan_garbage_noEnd hgs ht, fun s => ?_⟩
  obtain ⟨gs, hgs, hs⟩ := scan_garbage s
  rcases h : scan s with ⟨_ | f, rest⟩ <;> rw [h] at hs
  · have hno : findEnd (scan s).2 = none := scan_none_rest (by rw [h])
    rw [h, findEnd_eq_none_iff_noEnd] at hno
    exact .inr ⟨gs, rest, hgs, hno, hs⟩
  · obtain ⟨hc, hst⟩ := scan_some_spec h
    exact .inl ⟨gs, f, rest, hgs, hc, hst, hs.trans (List.append_assoc ..).symm⟩

/-! ### APPEND, CANCEL and CLEAR -/

/-- A chunk that fits joins the tail (R141). -/
theorem exec_append_of_fits {s : State} {chunk : List Byte} (h : Fits s chunk) :
    exec (.append chunk) s = .next { s with buf := s.buf ++ chunk, resp := none } := by
  rcases execAppend_cases chunk s with ⟨-, he⟩ | ⟨hr, -⟩
  · exact he
  · exact absurd ((hasRoom_iff s chunk).mpr h) (Bool.eq_false_iff.mp hr)

/-- A chunk that does not fit is dropped whole (R142). -/
theorem exec_append_of_not_fits {s : State} {chunk : List Byte} (h : ¬ Fits s chunk) :
    exec (.append chunk) s = .next { s with overflow := true, resp := none } := by
  rcases execAppend_cases chunk s with ⟨hr, -⟩ | ⟨-, he⟩
  · exact absurd ((hasRoom_iff s chunk).mp hr) h
  · exact he

/-- Settles O13: the two ends of APPEND. -/
theorem appendJoinsTheTailOrSetsOverflow : Obligations.AppendJoinsTheTailOrSetsOverflow :=
  fun _ _ _ _ => ⟨rfl, exec_append_of_fits, exec_append_of_not_fits⟩

/-- Once `closed` is set, whatever is pending can complete (R154). -/
theorem canComplete_of_closed {s : State} (hc : s.closed = true) : s.canComplete = decide (s.pend ≠ .idle) := by
  cases hp : s.pend with
  | idle => simp [State.canComplete, hp]
  | waitFrame => simpa using (canComplete_waitFrame_iff hp).mpr (.inr (.inr hc))
  | waitBytes count => simpa using (canComplete_waitBytes_iff hp).mpr (.inr (.inr hc))

/-- Settles O23: CANCEL writes one constant flag, which is one of the completion step's conditions. -/
theorem cancelSetsClosedAndNothingElse : Obligations.CancelSetsClosedAndNothingElse :=
  fun s _ _ _ => ⟨rfl, rfl, rfl, canComplete_of_closed (s := { s with closed := true }) rfl⟩

theorem exec_clear_of_idle {s : State} (hp : s.pend = .idle) :
    exec .clear s = .next { s with buf := [], closed := false, overflow := false, resp := none } :=
  ((execClear_cases s).resolve_left fun h => h.1 hp).2

theorem exec_clear_of_pending {s : State} (hp : s.pend ≠ .idle) : exec .clear s = .next (s.raise .busy) :=
  ((execClear_cases s).resolve_right fun h => hp h.1).2

/-- Settles O24: the two ends of CLEAR. -/
theorem clearEmptiesTheBufferUnlessPending : Obligations.ClearEmptiesTheBufferUnlessPending :=
  fun _ _ _ _ => ⟨rfl, exec_clear_of_idle, exec_clear_of_pending⟩

/-! ### The ends of an extraction -/

theorem exec_extractFrame_of_idle {s : State} (hp : s.pend = .idle) : exec .extractFrame s = .next s.framePass :=
  ((execExtractFrame_cases s).resolve_left fun h => h.1 hp).2

theorem exec_extractFrame_of_pending {s : State} (hp : s.pend ≠ .idle) :
    exec .extractFrame s = .next (s.raise .busy) :=
  ((execExtractFrame_cases s).resolve_right fun h => hp h.1).2

theorem exec_extractBytes_of_idle (count : BitVec Config.countWidth) {s : State} (hp : s.pend = .idle) :
    exec (.extractBytes count) s = .next (s.bytesPass count) :=
  ((execExtractBytes_cases count s).resolve_left fun h => h.1 hp).2

theorem exec_extractBytes_of_pending (count : BitVec Config.countWidth) {s : State} (hp : s.pend ≠ .idle) :
    exec (.extractBytes count) s = .next (s.raise .busy) :=
  ((execExtractBytes_cases count s).resolve_right fun h => hp h.1).2

/-- The end of a pass without data as its chain of flags (R146, R150). -/
theorem waitOrFail_eq (p : Pend) (s : State) :
    s.waitOrFail p =
      if s.overflow then { s with pend := .idle, resp := some (.error .bufferOverflow) }
      else if s.closed then { s with pend := .idle, resp := some (.error .closed) }
      else { s with pend := p, resp := none } := rfl

theorem framePass_of_found {s : State} {f rest : List Byte} (h : scan s.buf = (some f, rest)) :
    s.framePass = { s with buf := rest, pend := .idle, resp := some (.frame f) } := by
  simp only [State.framePass, h]
  rfl

theorem framePass_of_notFound {s : State} {rest : List Byte} (h : scan s.buf = (none, rest)) :
    s.framePass = { s with buf := rest }.waitOrFail .waitFrame := by
  simp only [State.framePass, h]
  rfl

/-- EXTRACT_FRAME with a frame at hand (R146). -/
theorem exec_extractFrame_of_found {s : State} {f rest : List Byte} (hp : s.pend = .idle)
    (h : scan s.buf = (some f, rest)) :
    exec .extractFrame s = .next { s with buf := rest, pend := .idle, resp := some (.frame f) } := by
  rw [exec_extractFrame_of_idle hp, framePass_of_found h]

/-- Settles O15: SCAN's answer is EXTRACT_FRAME's. -/
theorem extractFrameReturnsTheFirstFrame : Obligations.ExtractFrameReturnsTheFirstFrame := by
  intro s gs f rest hp hgs hc hs hbuf
  exact exec_extractFrame_of_found hp (hbuf ▸ scan_garbage_frame hgs hc hs rest)

/-- Settles O16: SCAN leaves the bytes without an end marker, and the flags say how the pass ends. -/
theorem extractFrameWithoutAFrameFailsOrWaits : Obligations.ExtractFrameWithoutAFrameFailsOrWaits := by
  intro s gs tail id count data hp hgs ht hbuf
  refine ⟨rfl, ?_⟩
  rw [exec_extractFrame_of_idle hp, framePass_of_notFound (hbuf ▸ scan_garbage_noEnd hgs ht), waitOrFail_eq]

/-- Settles O20: the two ends of a pass of EXTRACT_BYTES, the second by the flags. -/
theorem extractBytesTakesExactlyCount : Obligations.ExtractBytesTakesExactlyCount := by
  intro s count id data hp
  refine ⟨rfl, ?_⟩
  rw [exec_extractBytes_of_idle count hp]
  rcases bytesPass_cases count s with ⟨hle, h⟩ | ⟨hlt, h⟩
  · rw [h, if_pos hle]
  · rw [h, if_neg (Nat.not_le.mpr hlt), waitOrFail_eq]

/-! ### What a returned frame looks like -/

/-- A candidate that begins with the start marker has room for both markers: they share no byte (R147). -/
theorem four_le_length_of_candidate {f : List Byte} (hc : Candidate f) (hs : Starts f) : 4 ≤ f.length := by
  obtain ⟨hlen, ⟨hend, -⟩, -⟩ := hc
  obtain ⟨hs0, hs1⟩ := hs
  by_contra hlt
  obtain h | h : f.length - 2 = 0 ∨ f.length - 2 = 1 := by omega
  · rw [h, hs0] at hend
    exact absurd hend (by decide)
  · rw [h, hs1] at hend
    exact absurd hend (by decide)

/-- Settles O17: a returned frame is SCAN's, a candidate that begins with the start marker. -/
theorem aReturnedFrameIsMarkedAtBothEnds : Obligations.AReturnedFrameIsMarkedAtBothEnds := by
  constructor
  · intro s t f h
    obtain rfl := returns_framePass h
    obtain ⟨hc, hs⟩ := scan_some_spec (scan_of_framePass_frame h.1)
    exact ⟨four_le_length_of_candidate hc hs, hs, hc.2⟩
  · intro s rest hp hbuf
    have hscan : scan s.buf = (some [0xA0, 0xA1, 0x0D, 0x0A], rest) :=
      hbuf ▸ scan_candidate_append (by decide) (by decide) rest
    exact ⟨_, rfl, .inl (exec_extractFrame_of_found hp hscan)⟩

/-- No end marker arises where a string that begins with the start marker is joined on. -/
theorem endAt_append_iff {g c : List Byte} (hg : NoEnd g) (hs : Starts c) (k : Nat) :
    EndAt (g ++ c) k ↔ g.length ≤ k ∧ EndAt c (k - g.length) := by
  obtain h | h | h : k + 1 < g.length ∨ k + 1 = g.length ∨ g.length ≤ k := by omega
  · refine iff_of_false (fun hat => hg k (by omega) ?_) (by omega)
    simpa only [EndAt, List.getElem?_append_left (show k < g.length by omega), List.getElem?_append_left h] using hat
  · refine iff_of_false (fun hat => ?_) (by omega)
    have h2 := hat.2
    rw [h, List.getElem?_append_right le_rfl, Nat.sub_self, hs.1] at h2
    exact absurd h2 (by decide)
  · simp only [EndAt, List.getElem?_append_right h, List.getElem?_append_right (show g.length ≤ k + 1 by omega),
      Nat.sub_add_comm h, h, true_and]

/-- Garbage without an end marker and the frame glued to it are one candidate (R148). -/
theorem candidate_append {g c : List Byte} (hg : NoEnd g) (hc : Candidate c) (hs : Starts c) : Candidate (g ++ c) := by
  obtain ⟨hlen, hend, hfirst⟩ := hc
  have hlast : g.length + c.length - 2 = g.length + (c.length - 2) := by omega
  simp only [Candidate, List.length_append, endAt_append_iff hg hs, hlast, Nat.add_sub_cancel_left]
  exact ⟨by omega, ⟨by omega, hend⟩, fun k hk hat => hfirst _ (by omega) hat.2⟩

/-- Settles O18: what is skipped is one candidate in the first two cases, and nothing in the third. -/
theorem resynchronisationThrowsAwayWholeCandidates : Obligations.ResynchronisationThrowsAwayWholeCandidates := by
  refine ⟨fun s g f rest hp hg hng hf hsf hbuf => ?_, fun s g lost f rest hp _ hg hl hsl hn hf hsf hbuf => ?_,
    fun s g rest hp hg hsg hbuf => exec_extractFrame_of_found hp (hbuf ▸ scan_candidate_append hg hsg rest)⟩
  · refine exec_extractFrame_of_found hp ?_
    rw [hbuf, List.append_assoc, scan_discarded_append hg hng, scan_candidate_append hf hsf]
  · refine exec_extractFrame_of_found hp ?_
    rw [hbuf, List.append_assoc, scan_discarded_append (candidate_append hg hl hsl) hn, scan_candidate_append hf hsf]

/-! ### What the other operations leave of the buffer -/

theorem exec_parse_next {B : List Byte} {s t : State} (h : exec (.parse B) s = .next t) :
    t = pass B.length B s.startPass := by
  by_cases hB : B.length < 2 ^ 32
  · cases (execParse_eq hB s).symm.trans h
    rfl
  · cases (execParse_far hB s).symm.trans h

theorem sameBuffer_of_sameOutsideDecoder {s t : State} (h : SameOutsideDecoder s t) : SameBuffer s t := by
  obtain ⟨hbuf, hpend, hclosed, hoverflow, hcap, -⟩ := h
  exact ⟨hbuf, hpend, hclosed, hoverflow, hcap⟩

theorem exec_parse_sameBuffer {B : List Byte} {s t : State} (h : exec (.parse B) s = .next t) : SameBuffer s t := by
  obtain rfl := exec_parse_next h
  exact sameBuffer_of_sameOutsideDecoder (s := s.startPass) (pass_outside ..)

theorem exec_codec_sameBuffer {i : Instr} {s t : State}
    (hi : (∃ id body, i = .encode id body) ∨ (∃ F, i = .decode F) ∨ ∃ f, i = .frame f) (h : exec i s = .next t) :
    SameBuffer s t := by
  obtain ⟨c, o, r, rfl, -⟩ := exec_codecOperation_writes hi h
  exact ⟨rfl, rfl, rfl, rfl, rfl⟩

/-- Only the five buffer operations write a buffer register (R26 to R28). -/
theorem exec_bufferOperation_or_sameBuffer {i : Instr} {s t : State} (h : exec i s = .next t) :
    ((∃ chunk, i = .append chunk) ∨ i = .extractFrame ∨ (∃ count, i = .extractBytes count) ∨ i = .cancel ∨ i = .clear) ∨
      SameBuffer s t := by
  have record : ∀ r : LogRecord, exec r.toInstr s = .next t → SameBuffer s t := fun r hr =>
    sameBuffer_of_sameOutsideDecoder (exec_toInstr_outside hr)
  cases i with
  | append chunk => exact .inl (.inl ⟨chunk, rfl⟩)
  | extractFrame => exact .inl (.inr (.inl rfl))
  | extractBytes count => exact .inl (.inr (.inr (.inl ⟨count, rfl⟩)))
  | cancel => exact .inl (.inr (.inr (.inr (.inl rfl))))
  | clear => exact .inl (.inr (.inr (.inr (.inr rfl))))
  | encode id body => exact .inr (exec_codec_sameBuffer (.inl ⟨id, body, rfl⟩) h)
  | decode F => exact .inr (exec_codec_sameBuffer (.inr (.inl ⟨F, rfl⟩)) h)
  | frame f => exact .inr (exec_codec_sameBuffer (.inr (.inr ⟨f, rfl⟩)) h)
  | parse B => exact .inr (exec_parse_sameBuffer h)
  | reservedOp low => cases h; exact .inr ⟨rfl, rfl, rfl, rfl, rfl⟩
  | full r => exact .inr (record (.full r) h)
  | pointOfInterest r => exact .inr (record (.pointOfInterest r) h)
  | compact r => exact .inr (record (.compact r) h)
  | empty r => exact .inr (record (.empty r) h)
  | reservedKind0 low => exact .inr (record (.reserved0 low) h)
  | reservedKind1 low => exact .inr (record (.reserved1 low) h)
  | reservedKind5 low => exact .inr (record (.reserved5 low) h)
  | reservedKind6 low => exact .inr (record (.reserved6 low) h)

/-! ### Overflow -/

/-- Of the instructions only CLEAR takes `overflow` back (R142). -/
theorem exec_keeps_overflow {i : Instr} {s t : State} (hi : i ≠ .clear) (ho : s.overflow = true)
    (h : exec i s = .next t) : t.overflow = true := by
  rcases exec_bufferOperation_or_sameBuffer h with
    (⟨chunk, rfl⟩ | rfl | ⟨count, rfl⟩ | rfl | rfl) | ⟨-, -, -, hsame, -⟩
  · rcases execAppend_cases chunk s with ⟨-, he⟩ | ⟨-, he⟩ <;> cases he.symm.trans h
    · exact ho
    · rfl
  · rcases execExtractFrame_cases s with ⟨-, he⟩ | ⟨-, he⟩ <;> cases he.symm.trans h
    · exact ho
    · obtain ⟨-, rest, q, r, -, hf⟩ := framePass_frame s
      rw [hf]
      exact ho
  · rcases execExtractBytes_cases count s with ⟨-, he⟩ | ⟨-, he⟩ <;> cases he.symm.trans h
    · exact ho
    · obtain ⟨-, rest, q, r, -, hb⟩ := bytesPass_frame count s
      rw [hb]
      exact ho
  · cases h
    exact ho
  · exact absurd rfl hi
  · rw [hsame, ho]

theorem complete_overflow (s : State) : s.complete.overflow = s.overflow := by
  obtain ⟨-, rest, q, r, -, h⟩ := complete_frame s
  rw [h]

theorem op_of_decodeRequest_clear {q : Request} (h : decodeRequest q = .ok .clear) : q.op = 6 := by
  rw [decodeRequest_eq] at h
  split_ifs at h <;> cases h
  assumption

/-- Of the turns only a reset and a request for CLEAR take `overflow` back (R142). -/
theorem step_keeps_overflow {s t : State} (ho : s.overflow = true) (h : step s = .next t)
    (hreset : ∀ rest, s.turns ≠ .reset :: rest) (hclear : ∀ a q rest, s.turns = .request a q :: rest → q.op ≠ 6) :
    t.overflow = true := by
  rcases step_cases h with ⟨-, rfl⟩ | ⟨a, q, rest, i, ht, hd, he⟩ | ⟨rest, -, rfl⟩ | ⟨rest, ht, -⟩
  · rw [complete_overflow, ho]
  · refine exec_keeps_overflow ?_ ?_ he
    · rintro rfl
      exact hclear a q rest ht (op_of_decodeRequest_clear hd)
    · obtain ⟨f, b, hdel⟩ := deliver_eq i (s.setTurns rest)
      rw [hdel]
      exact ho
  · rw [complete_overflow]
    exact ho
  · exact absurd ht (hreset rest)

theorem waitOrFail_of_overflow {s : State} (p : Pend) (ho : s.overflow = true) :
    s.waitOrFail p = { s with pend := .idle, resp := some (.error .bufferOverflow) } := by
  rw [waitOrFail_eq, if_pos ho]

/-- With `overflow` set a pass of EXTRACT_FRAME ends, with a frame or with BufferOverflow (R142); likewise below. -/
theorem framePass_of_overflow {s : State} (ho : s.overflow = true) :
    s.framePass.pend = .idle ∧
      ((∃ f, s.framePass.resp = some (.frame f)) ∨ s.framePass.resp = some (.error .bufferOverflow)) := by
  rcases framePass_cases s with ⟨f, rest, -, h⟩ | ⟨rest, -, h⟩
  · rw [h]
    exact ⟨rfl, .inl ⟨f, rfl⟩⟩
  · rw [h, waitOrFail_of_overflow (s := { s with buf := rest }) _ ho]
    exact ⟨rfl, .inr rfl⟩

theorem bytesPass_of_overflow {s : State} (count : BitVec Config.countWidth) (ho : s.overflow = true) :
    (s.bytesPass count).pend = .idle ∧
      ((∃ d, (s.bytesPass count).resp = some (.bytes d)) ∨
        (s.bytesPass count).resp = some (.error .bufferOverflow)) := by
  rcases bytesPass_cases count s with ⟨-, h⟩ | ⟨-, h⟩
  · rw [h]
    exact ⟨rfl, .inl ⟨_, rfl⟩⟩
  · rw [h, waitOrFail_of_overflow _ ho]
    exact ⟨rfl, .inr rfl⟩

/-- Settles O14: both passes ask `overflow` before they wait, and the flag enables the completion step. -/
theorem overflowStaysAndNoExtractionWaits : Obligations.OverflowStaysAndNoExtractionWaits := by
  refine ⟨fun s chunk hcap => exec_append_of_unbounded hcap chunk,
    fun s chunk cap hcap hlt => exec_append_of_not_fits fun h => absurd (h cap hcap) (Nat.not_le.mpr hlt),
    fun s t ho h => step_keeps_overflow ho h, fun s ho hp => ⟨?_, fun count => ?_⟩, fun s ho hp => ?_⟩
  · exact ⟨_, exec_extractFrame_of_idle hp, framePass_of_overflow ho⟩
  · exact ⟨_, exec_extractBytes_of_idle count hp, bytesPass_of_overflow count ho⟩
  · rcases pend_waits hp with hw | ⟨count, hw⟩
    · rw [complete_waitFrame hw ((canComplete_waitFrame_iff hw).mpr (.inr (.inl ho)))]
      obtain ⟨hidle, hresp⟩ := framePass_of_overflow ho
      exact ⟨hidle, hresp.imp_right .inr⟩
    · rw [complete_waitBytes hw ((canComplete_waitBytes_iff hw).mpr (.inr (.inl ho)))]
      obtain ⟨hidle, hresp⟩ := bytesPass_of_overflow count ho
      exact ⟨hidle, .inr hresp⟩

/-! ### Busy -/

/-- A pass answers with its records or with one of the decoder's errors (R171, R172). -/
theorem pass_resp_ne_busy (N : Nat) (bs : List Byte) (s : State) : (pass N bs s).resp ≠ some (.error .busy) := by
  induction bs, s using pass_induction N with
  | done s => simp [pass_nil]
  | unread b bs s e hd => simp [pass_cons, hd]
  | failed b bs s r after e hd hr =>
    have he : e ≠ .busy := by
      rcases recordStep_cases N r s with ⟨e', he', hkind⟩ | ⟨f, hok, -⟩ | ⟨hok, -⟩
      · cases hr.symm.trans he'
        rcases hkind with rfl | rfl | rfl <;> simp
      · cases hr.symm.trans hok
      · cases hr.symm.trans hok
    simpa [pass_cons, hd, hr] using he
  | taken b bs s r after t hd hr ih => simpa only [pass_cons, hd, hr] using ih

theorem exec_encode_resp_ne_busy {id : Byte} {body : List Byte} {s t : State} (h : exec (.encode id body) s = .next t) :
    t.resp ≠ some (.error .busy) := by
  rcases execEncode_cases id body s with ⟨-, he⟩ | ⟨-, he⟩ <;> cases he.symm.trans h <;> simp

theorem exec_decode_resp_ne_busy {F : List Byte} {s t : State} (h : exec (.decode F) s = .next t) :
    t.resp ≠ some (.error .busy) := by
  rcases execDecode_cases F s with ⟨e, -, he⟩ | ⟨f, -, he⟩ <;> cases he.symm.trans h <;> simp [deliverMessage_eq]

/-- Settles O21: the three requests test `pend` first, the other three do not read it. -/
theorem busyWhileAnExtractionIsPending : Obligations.BusyWhileAnExtractionIsPending := by
  refine ⟨fun s count hp => ⟨exec_extractFrame_of_pending hp, exec_extractBytes_of_pending count hp,
    exec_clear_of_pending hp⟩, fun s t i hi h => ?_⟩
  rcases hi with ⟨id, body, rfl⟩ | ⟨F, rfl⟩ | ⟨B, rfl⟩
  · exact ⟨exec_encode_resp_ne_busy h, exec_codec_sameBuffer (.inl ⟨id, body, rfl⟩) h⟩
  · exact ⟨exec_decode_resp_ne_busy h, exec_codec_sameBuffer (.inr (.inl ⟨F, rfl⟩)) h⟩
  · refine ⟨?_, exec_parse_sameBuffer h⟩
    rw [exec_parse_next h]
    exact pass_resp_ne_busy B.length B s.startPass

/-! ### The completion turn -/

/-- Settles O22: a completion turn is the completion step behind it on the schedule, held or one pass. -/
theorem completionIsEnabledByDataOrFlags : Obligations.CompletionIsEnabledByDataOrFlags := by
  intro s rest ht
  rw [step_of_turns_complete ht]
  refine ⟨fun hp hk ho hc => ?_, fun hp h => ?_, fun count hp hlt ho hc => ?_, fun count hp h => ?_⟩ <;>
    replace hp := (State.setTurns_pend rest s).trans hp
  · rw [complete_of_held (by simp [canComplete_waitFrame_iff hp, hk, ho, hc])]
    rfl
  · rw [complete_waitFrame hp ((canComplete_waitFrame_iff hp).mpr h)]
    exact (exec_extractFrame_setPend_idle _).symm
  · rw [complete_of_held (by simp [canComplete_waitBytes_iff hp, hlt, ho, hc])]
    rfl
  · rw [complete_waitBytes hp ((canComplete_waitBytes_iff hp).mpr h)]
    exact (exec_extractBytes_setPend_idle count _).symm

/-! ### The finite-state machine of EXTRACT_FRAME -/

/-- The control state an EXTRACT_FRAME ends in (R149). -/
def fsmEnd (t : State) : FsmControl := if t.pend = .waitFrame then .wait else .idle

theorem fsmStep_scan_of_found {s : State} {k : Nat} (h : findEnd s.buf = some k) :
    fsmStep (.scan, s) = (.check (s.buf.take (k + 2)), s.bufDrop (k + 2)) := by
  simp only [fsmStep, h]

/-- SCAN without an end marker ends as the pass does: with an error in IDLE or in WAIT (R149). -/
theorem fsmStep_scan_of_noEnd {s : State} (h : findEnd s.buf = none) :
    fsmStep (.scan, s) = (fsmEnd (s.waitOrFail .waitFrame), s.waitOrFail .waitFrame) := by
  simp only [fsmStep, h]
  cases ho : s.overflow <;> cases hc : s.closed <;> simp [State.waitOrFail, fsmEnd, ho, hc]

theorem fsmStep_check (cand : List Byte) (s : State) :
    fsmStep (.check cand, s) =
      if startsFrame cand then (.idle, (s.setPend .idle).answer (some (.frame cand))) else (.scan, s) := rfl

/-- One pass cuts the discarded candidates that the machine takes one by one (D20). -/
theorem framePass_of_discard {s : State} {k : Nat} (h : findEnd s.buf = some k)
    (hf : startsFrame (s.buf.take (k + 2)) = false) : s.framePass = (s.bufDrop (k + 2)).framePass := by
  simp only [State.framePass, State.bufDrop_buf, scan_of_discard h hf]
  rcases scan (s.buf.drop (k + 2)) with ⟨_ | f, rest⟩ <;> rfl

/-- From SCAN the machine reaches what one pass gives, by induction on the candidates it takes (R149). -/
theorem fsmRun_scan (s : State) : ∃ n, fsmRun n (.scan, s) = (fsmEnd s.framePass, s.framePass) := by
  obtain ⟨b, hb⟩ : ∃ b, s.buf = b := ⟨_, rfl⟩
  induction b using scan_induction generalizing s with
  | done b h =>
    subst hb
    refine ⟨1, ?_⟩
    rw [framePass_of_notFound (scan_of_noEnd h)]
    exact fsmStep_scan_of_noEnd h
  | found b k h hf =>
    subst hb
    refine ⟨2, ?_⟩
    rw [framePass_of_found (scan_of_found h hf)]
    rw [fsmRun, fsmStep_scan_of_found h, fsmRun, fsmStep_check, if_pos hf]
    rfl
  | discard b k h hf ih =>
    subst hb
    obtain ⟨n, hn⟩ := ih (s.bufDrop (k + 2)) rfl
    refine ⟨n + 2, ?_⟩
    rw [framePass_of_discard h hf, ← hn]
    rw [fsmRun, fsmStep_scan_of_found h, fsmRun, fsmStep_check, hf]
    rfl

/-- In WAIT the machine goes on exactly where the completion step is enabled (R143, R149). -/
theorem fsmStep_wait {s : State} (hp : s.pend = .waitFrame) :
    fsmStep (.wait, s) = if s.canComplete then (.scan, s) else (.wait, s) := by
  simp only [fsmStep, State.canComplete, hp]

theorem fsmRun_of_fixed {c : FsmControl × State} (h : fsmStep c = c) (n : Nat) : fsmRun n c = c := by
  induction n with
  | zero => rfl
  | succ n ih => rw [fsmRun, h, ih]

/-- Settles O28: a request that is not Busy puts the machine in SCAN, and so does WAIT once the completion is enabled. -/
theorem theFsmRefinesExtractFrame : Obligations.TheFsmRefinesExtractFrame := by
  refine ⟨fun s => ?_, fun s hp => ⟨fun hk ho hc => ?_, fun h => ?_⟩⟩
  · by_cases hp : s.pend = .idle
    · obtain ⟨n, hn⟩ := fsmRun_scan s
      refine ⟨n, _, exec_extractFrame_of_idle hp, ?_⟩
      simpa only [fsmRequest, hp, if_true, true_and, fsmEnd] using hn
    · refine ⟨0, _, exec_extractFrame_of_pending hp, ?_⟩
      simp only [fsmRun, fsmRequest, hp, if_false, false_and]
  · have hheld : ¬ s.canComplete = true := by simp [canComplete_waitFrame_iff hp, hk, ho, hc]
    exact fsmRun_of_fixed ((fsmStep_wait hp).trans (if_neg hheld))
  · have hcan := (canComplete_waitFrame_iff hp).mpr h
    obtain ⟨n, hn⟩ := fsmRun_scan s
    refine ⟨n + 1, ?_⟩
    rw [complete_waitFrame hp hcan, fsmRun, fsmStep_wait hp, if_pos hcan]
    exact hn

end Sys2Proof.Proofs
end

section
/-! The pass of PARSE as an induction over its records (42_record_decoder.md R171 to R182): what holds wherever the pass
stands, where and how it ends, that it reads nothing but the block; and from it the block's invariant. -/

namespace Sys2Proof.Proofs

open Sys2Proof.Machine Sys2Proof.Claims

/-! ### One record of a pass -/

/-- A record read and its step taken: the pass goes on behind it (R171). -/
theorem pass_of_taken {N : Nat} {bs after : List Byte} {s t : State} {r : LogRecord}
    (hd : decodeRecord bs = .ok (r, after)) (hr : recordStep N r s = .ok t) : pass N bs s = pass N after t := by
  cases bs with
  | nil => cases hd
  | cons b bs => simp only [pass_cons, hd, hr]

/-- A record read whose step fails ends the pass with the step's error (R172). -/
theorem pass_of_failed {N : Nat} {bs after : List Byte} {s : State} {r : LogRecord} {e : Err}
    (hd : decodeRecord bs = .ok (r, after)) (hr : recordStep N r s = .error e) : pass N bs s = s.raise e := by
  cases bs with
  | nil => cases hd
  | cons b bs => simp only [pass_cons, hd, hr]

/-- A record whose bytes are not all there ends the pass with DecodeTruncated (R173). -/
theorem pass_of_unread {N : Nat} {b : Byte} {bs : List Byte} {s : State} {e : RecordReject}
    (hd : decodeRecord (b :: bs) = .error e) : pass N (b :: bs) s = s.raise (.decodeTruncated s.cursor) := by
  simp only [pass_cons, hd]

/-! ### What holds wherever a pass stands -/

theorem predecessorHeld_emit (f : Fix) (s : State) : (s.emit f).predecessorHeld = true := by
  simp [State.predecessorHeld]

/-- A pass over a block of `N` bytes stands before its last bytes `bs`: no record emitted so far took less than 8 bytes
(R182), and the predecessor registers agree with OUT (R22). -/
structure Reading (N : Nat) (bs : List Byte) (s : State) : Prop where
  left : s.cursor.toNat + bs.length = N
  emitted : 8 * s.out.length ≤ s.cursor.toNat
  held : s.predecessorHeld = true

theorem reading_startPass (B : List Byte) (s : State) : Reading B.length B s.startPass where
  left := by simp
  emitted := by simp
  held := rfl

/-- The step of the record read keeps it. -/
theorem Reading.recordStep {N : Nat} {bs after : List Byte} {s t : State} {r : LogRecord} (hN : N < 2 ^ 32)
    (h : Reading N bs s) (hd : decodeRecord bs = .ok (r, after)) (hr : recordStep N r s = .ok t) :
    Reading N after t := by
  obtain ⟨hleft, hemitted, hheld⟩ := h
  have hlen := (decodeRecord_ok hd).1
  have hcur := recordStep_ok_cursor_toNat hN hr
  rcases recordStep_cases N r s with ⟨e, he, -⟩ | ⟨f, hf, -, hsize⟩ | ⟨hf, -, -⟩
  · cases hr.symm.trans he
  · cases hr.symm.trans hf
    refine ⟨by omega, ?_, predecessorHeld_emit f s⟩
    rw [hcur, State.advance_out, State.emit_out, List.length_append, List.length_singleton]
    omega
  · cases hr.symm.trans hf
    refine ⟨by omega, ?_, hheld⟩
    rw [hcur, State.advance_out]
    omega

/-- The three errors of the decoder, with the cursor at which they are raised (R172). -/
def ErrorAt (cursor : Word32) (e : Err) : Prop :=
  e = .decodeReservedHeader cursor ∨ e = .decodeTruncated cursor ∨ e = .decodeNoPredecessor cursor

theorem recordStep_errorAt {N : Nat} {r : LogRecord} {s : State} {e : Err} (h : recordStep N r s = .error e) :
    ErrorAt s.cursor e := by
  rcases recordStep_cases N r s with ⟨e', he, hkind⟩ | ⟨f, hf, -⟩ | ⟨hf, -⟩
  · cases h.symm.trans he
    exact hkind
  · cases h.symm.trans hf
  · cases h.symm.trans hf

/-- A pass ends behind its last byte with its records, or before some byte with an error (R171, R172). -/
theorem pass_ends {N : Nat} {bs : List Byte} {s : State} (hN : N < 2 ^ 32) (h : Reading N bs s) :
    (∃ u, Reading N [] u ∧ pass N bs s = u.finishPass) ∨
    ∃ b rest u e, Reading N (b :: rest) u ∧ ErrorAt u.cursor e ∧ pass N bs s = u.raise e := by
  induction bs, s using pass_induction N with
  | done s => exact .inl ⟨s, h, pass_nil N s⟩
  | unread b bs s e hd => exact .inr ⟨b, bs, s, _, h, .inr (.inl rfl), pass_of_unread hd⟩
  | failed b bs s r after e hd hr => exact .inr ⟨b, bs, s, e, h, recordStep_errorAt hr, pass_of_failed hd hr⟩
  | taken b bs s r after t hd hr ih =>
    rw [pass_of_taken hd hr]
    exact ih (h.recordStep hN hd hr)

theorem exec_parse_of_lt {B : List Byte} (hB : B.length < 2 ^ 32) (s : State) :
    exec (.parse B) s = .next (pass B.length B s.startPass) := execParse_eq hB s

/-- Settles O41: the two ends of the pass from a fresh start. -/
theorem parseAlwaysAnswers : Obligations.ParseAlwaysAnswers := by
  intro B s hB
  refine ⟨_, exec_parse_of_lt hB s, ?_⟩
  rcases pass_ends hB (reading_startPass B s) with ⟨u, hu, hend⟩ | ⟨b, rest, u, e, hu, he, hend⟩ <;> rw [hend]
  · have hcur : u.cursor.toNat = B.length := hu.left
    exact ⟨hcur ▸ hu.emitted, .inl ⟨rfl, hcur⟩⟩
  · have hcur : u.cursor.toNat < B.length := by
      have := hu.left
      rw [List.length_cons] at this
      omega
    refine ⟨hu.emitted.trans hcur.le, .inr ⟨hcur, ?_⟩⟩
    rcases he with rfl | rfl | rfl
    · exact .inl rfl
    · exact .inr (.inl rfl)
    · exact .inr (.inr rfl)

/-! ### The invariant of the block -/

/-- A pass leaves the decoder's part of the invariant (R22, R24, R182). -/
theorem reading_pass {N : Nat} {bs : List Byte} {s : State} (hN : N < 2 ^ 32) (h : Reading N bs s) :
    ∃ rest, Reading N rest (pass N bs s) := by
  rcases pass_ends hN h with ⟨u, ⟨hleft, hemitted, hheld⟩, hend⟩ | ⟨b, rest, u, e, ⟨hleft, hemitted, hheld⟩, -, hend⟩ <;>
    rw [hend] <;> exact ⟨_, hleft, hemitted, hheld⟩

/-- What the invariant asks of a change to the buffer and the response alone (R28, R53). -/
theorem inv_setBuffer {s : State} (h : s.Inv) {b : List Byte} {o : Bool} (p : Pend) (c : Bool) (r : Option Response)
    (hb : ∀ cap, s.bufCap = some cap → b.length ≤ cap) (ho : o = true → s.bufCap ≠ none) :
    State.Inv { s with buf := b, pend := p, closed := c, overflow := o, resp := r } := by
  obtain ⟨hwf, hcur, hemitted, hheld, -⟩ := h
  exact ⟨(Memory.wf_iff _).mpr ⟨hb, ((Memory.wf_iff s).mp hwf).2⟩, hcur, hemitted, hheld, ho⟩

/-- Bytes taken from the head of BUF keep it. -/
theorem inv_takeHead {s : State} (h : s.Inv) {gone rest : List Byte} (hb : s.buf = gone ++ rest) (p : Pend)
    (r : Option Response) : State.Inv { s with buf := rest, pend := p, resp := r } := by
  have ⟨hwf, _, _, _, ho⟩ := h
  refine inv_setBuffer h p s.closed r (fun cap hcap => ?_) ho
  have := ((Memory.wf_iff s).mp hwf).1 cap hcap
  rw [hb, List.length_append] at this
  omega

theorem inv_answer {s : State} (h : s.Inv) (r : Option Response) : (s.answer r).Inv := h

theorem inv_complete {s : State} (h : s.Inv) : s.complete.Inv := by
  obtain ⟨gone, rest, q, r, hb, hc⟩ := complete_frame s
  rw [hc]
  exact inv_takeHead h hb q r

theorem inv_resetBlock (s : State) : s.resetBlock.Inv :=
  ⟨Memory.wf_resetBlock s, Nat.zero_le _, Nat.zero_le _, rfl, fun h => by cases h⟩

theorem inv_encode {id : Byte} {body : List Byte} {s t : State} (h : s.Inv) (he : exec (.encode id body) s = .next t) :
    t.Inv := by
  have ⟨hwf, hcur, hemitted, hheld, ho⟩ := h
  rcases execEncode_cases id body s with ⟨-, hx⟩ | ⟨hlen, hx⟩ <;> cases hx.symm.trans he
  · exact inv_answer h _
  · exact ⟨Memory.wf_frmOut (f := ⟨id, body, chkOf id body⟩) hwf hlen, hcur, hemitted, hheld, ho⟩

theorem inv_decode {F : List Byte} {s t : State} (h : s.Inv) (he : exec (.decode F) s = .next t) : t.Inv := by
  rcases execDecode_cases F s with ⟨e, -, hx⟩ | ⟨f, -, hx⟩ <;> cases hx.symm.trans he
  · exact inv_answer h _
  · exact h

/-- PARSE of the block that stands in BLK, whatever block the registers spoke of before. -/
theorem inv_parse {s t : State} (hwf : Memory.wf s = true) (ho : s.overflow = true → s.bufCap ≠ none)
    (he : exec (.parse s.blk) s = .next t) : t.Inv := by
  obtain rfl := exec_parse_next he
  obtain ⟨rest, hleft, hemitted, hheld⟩ :=
    reading_pass ((Memory.wf_iff s).mp hwf).2.1 (reading_startPass s.blk s)
  obtain ⟨hbuf, -, -, hover, hcap, -, -, hout, hblk, -⟩ := pass_outside s.blk.length s.blk s.startPass
  refine ⟨Memory.wf_congr hwf hcap (congrArg List.length hbuf).le hblk hout, ?_, hemitted, hheld, ?_⟩
  · rw [hblk, State.startPass_blk]
    omega
  · rw [hover, hcap]
    exact ho

/-- The buffer operations and the reserved select codes: BUF grows only where the chunk has room, and `overflow` is set
only where it has none. -/
theorem inv_bufferOperation {i : Instr} {s t : State} (h : s.Inv)
    (hi : (∃ chunk, i = .append chunk) ∨ i = .extractFrame ∨ (∃ count, i = .extractBytes count) ∨ i = .cancel ∨
      i = .clear ∨ ∃ low, i = .reservedOp low)
    (he : exec i s = .next t) : t.Inv := by
  have ⟨hwf, _, _, _, ho⟩ := h
  have hsize := ((Memory.wf_iff s).mp hwf).1
  rcases hi with ⟨chunk, rfl⟩ | rfl | ⟨count, rfl⟩ | rfl | rfl | ⟨low, rfl⟩
  · rcases execAppend_cases chunk s with ⟨hroom, hx⟩ | ⟨hroom, hx⟩ <;> cases hx.symm.trans he
    · refine inv_setBuffer h s.pend s.closed none (fun cap hcap => ?_) ho
      rw [List.length_append]
      exact (hasRoom_iff s chunk).mp hroom cap hcap
    · refine inv_setBuffer h s.pend s.closed none hsize fun _ hinf => ?_
      simp [State.hasRoom, hinf] at hroom
  · rcases execExtractFrame_cases s with ⟨-, hx⟩ | ⟨-, hx⟩ <;> cases hx.symm.trans he
    · exact inv_answer h _
    · obtain ⟨gone, rest, q, r, hb, hp⟩ := framePass_frame s
      rw [hp]
      exact inv_takeHead h hb q r
  · rcases execExtractBytes_cases count s with ⟨-, hx⟩ | ⟨-, hx⟩ <;> cases hx.symm.trans he
    · exact inv_answer h _
    · obtain ⟨gone, rest, q, r, hb, hp⟩ := bytesPass_frame count s
      rw [hp]
      exact inv_takeHead h hb q r
  · cases he
    exact inv_setBuffer h s.pend true none hsize ho
  · rcases execClear_cases s with ⟨-, hx⟩ | ⟨-, hx⟩ <;> cases hx.symm.trans he
    · exact inv_answer h _
    · exact inv_setBuffer h s.pend false none (fun cap _ => Nat.zero_le cap) (fun h => by cases h)
  · cases he
    exact inv_answer h _

/-- The instructions a request stands for (R80). -/
theorem decodeRequest_cases {q : Request} {i : Instr} (h : decodeRequest q = .ok i) :
    (∃ id body, i = .encode id body) ∨ (∃ F, i = .decode F) ∨ (∃ B, i = .parse B) ∨
    ((∃ chunk, i = .append chunk) ∨ i = .extractFrame ∨ (∃ count, i = .extractBytes count) ∨ i = .cancel ∨
      i = .clear ∨ ∃ low, i = .reservedOp low) := by
  rw [decodeRequest_eq] at h
  split_ifs at h <;> cases h <;> simp

/-- Settles O54: delivery and a turn taken off change nothing the invariant reads but BLK, and PARSE, for which BLK is
written, starts the decoder's registers afresh. -/
theorem everyStepKeepsTheInvariantOfTheBlock : Obligations.EveryStepKeepsTheInvariantOfTheBlock := by
  intro s t h hstep
  rcases step_cases hstep with ⟨-, rfl⟩ | ⟨agent, q, rest, i, -, hd, he⟩ | ⟨rest, -, rfl⟩ | ⟨rest, -, rfl⟩
  · exact inv_complete h
  · rcases decodeRequest_cases hd with ⟨id, body, rfl⟩ | ⟨F, rfl⟩ | ⟨B, rfl⟩ | hi
    · exact inv_encode (s := s.setTurns rest) h he
    · exact inv_decode (s := (s.setTurns rest).deliver (.decode F)) h he
    · obtain ⟨hwf, -, -, -, ho⟩ := h
      exact inv_parse (s := (s.setTurns rest).deliver (.parse B))
        (Memory.wf_deliver (s := s.setTurns rest) hwf (decodeRequest_wellFormed hd)) ho he
    · refine inv_bufferOperation (s := s.setTurns rest) h hi ?_
      rwa [deliver_other] at he
      all_goals
        rintro _ rfl
        simp at hi
  · exact inv_complete (s := s.setTurns rest) h
  · exact inv_resetBlock (s.setTurns rest)

/-! ### A pass reads the block alone -/

/-- The two states agree in what a pass reads: the cursor, OUT, `prev_valid`, and the predecessor where there is one. -/
structure SamePass (s s' : State) : Prop where
  cursor : s'.cursor = s.cursor
  out : s'.out = s.out
  valid : s'.prevValid = s.prevValid
  week : s.prevValid = true → s'.prevWeek = s.prevWeek
  tow : s.prevValid = true → s'.prevTow = s.prevTow
  x : s.prevValid = true → s'.prevX = s.prevX
  y : s.prevValid = true → s'.prevY = s.prevY
  z : s.prevValid = true → s'.prevZ = s.prevZ

theorem samePass_startPass (s s' : State) : SamePass s.startPass s'.startPass := by
  constructor <;> simp

theorem SamePass.advance {s s' : State} (h : SamePass s s') (n : Nat) : SamePass (s.advance n) (s'.advance n) :=
  { h with cursor := congrArg (· + BitVec.ofNat _ n) h.cursor }

theorem SamePass.emit {s s' : State} (h : SamePass s s') (f : Fix) : SamePass (s.emit f) (s'.emit f) where
  cursor := h.cursor
  out := congrArg (· ++ [f]) h.out
  valid := rfl
  week _ := rfl
  tow _ := rfl
  x _ := rfl
  y _ := rfl
  z _ := rfl

theorem SamePass.compactFix {s s' : State} (h : SamePass s s') (hv : s.prevValid = true) (r : CompactRecord) :
    compactFix r s' = compactFix r s := by
  simp only [Machine.compactFix, h.week hv, h.tow hv, h.x hv, h.y hv, h.z hv]

/-- The same error, or two states that agree again. -/
def SameOutcome : Except Err State → Except Err State → Prop
  | .error e, .error e' => e' = e
  | .ok t, .ok t' => SamePass t t'
  | _, _ => False

theorem SamePass.pastEnd {s s' : State} (h : SamePass s s') (N size : Nat) : s'.pastEnd N size = s.pastEnd N size := by
  simp only [State.pastEnd, h.cursor]

theorem SamePass.absoluteStep {s s' : State} (h : SamePass s s') (N : Nat) (poi : Bool) (r : AbsoluteRecord) :
    SameOutcome (absoluteStep N poi r s) (absoluteStep N poi r s') := by
  rw [Machine.absoluteStep, Machine.absoluteStep, h.pastEnd]
  cases s.pastEnd N Config.absoluteSize with
  | true => exact congrArg Err.decodeTruncated h.cursor
  | false => exact (h.emit _).advance _

/-- One record in two such states. -/
theorem SamePass.recordStep {s s' : State} (h : SamePass s s') (N : Nat) (r : LogRecord) :
    SameOutcome (recordStep N r s) (recordStep N r s') := by
  cases r with
  | full r => exact h.absoluteStep N false r
  | pointOfInterest r => exact h.absoluteStep N true r
  | compact r =>
    rw [Machine.recordStep, compactStep, Machine.recordStep, compactStep, h.pastEnd, h.valid]
    cases s.pastEnd N Config.compactSize with
    | true => exact congrArg Err.decodeTruncated h.cursor
    | false =>
      cases hv : s.prevValid with
      | true => exact h.compactFix hv r ▸ (h.emit _).advance _
      | false => exact congrArg Err.decodeNoPredecessor h.cursor
  | empty r =>
    rw [Machine.recordStep, emptyStep, Machine.recordStep, emptyStep, h.pastEnd]
    cases s.pastEnd N Config.emptySize with
    | true => exact congrArg Err.decodeTruncated h.cursor
    | false => exact h.advance _
  | reserved0 | reserved1 | reserved5 | reserved6 => exact congrArg Err.decodeReservedHeader h.cursor

theorem SamePass.answer {s s' : State} (h : SamePass s s') (r r' : Option Response) :
    SamePass (s.answer r) (s'.answer r') := { h with }

/-- The rest of a pass in two such states. -/
theorem SamePass.pass {N : Nat} {bs : List Byte} {s s' : State} (h : SamePass s s') :
    (pass N bs s').resp = (pass N bs s).resp ∧ SamePass (pass N bs s) (pass N bs s') := by
  induction bs, s using pass_induction N generalizing s' with
  | done s => exact ⟨congrArg (fun out => some (Response.records out)) h.out, h.answer _ _⟩
  | unread b bs s e hd =>
    rw [pass_of_unread hd, pass_of_unread hd, h.cursor]
    exact ⟨rfl, h.answer _ _⟩
  | failed b bs s r after e hd hr =>
    have hsame := h.recordStep N r
    rw [hr] at hsame
    cases hr' : Machine.recordStep N r s' <;> rw [hr'] at hsame <;> cases hsame
    rw [pass_of_failed hd hr, pass_of_failed hd hr']
    exact ⟨rfl, h.answer _ _⟩
  | taken b bs s r after t hd hr ih =>
    have hsame := h.recordStep N r
    rw [hr] at hsame
    cases hr' : Machine.recordStep N r s' with
    | error e => rw [hr'] at hsame; cases hsame
    | ok t' =>
      rw [hr'] at hsame
      rw [pass_of_taken hd hr, pass_of_taken hd hr']
      exact ih hsame

/-- Settles O42: two fresh starts agree in what the pass reads. -/
theorem parseDependsOnTheBlockAlone : Obligations.ParseDependsOnTheBlockAlone := by
  intro B s s' hB
  obtain ⟨hresp, hsame⟩ := (samePass_startPass s s').pass (N := B.length) (bs := B)
  exact ⟨_, _, exec_parse_of_lt hB s, exec_parse_of_lt hB s', hresp.symm, hsame.out.symm, hsame.cursor.symm,
    hsame.valid.symm⟩

/-! ### The frame of the decoder -/

/-- Settles O38: a pass and a record's step change the decoder's registers and the response. -/
theorem theDecoderLeavesBufferAndCodecAlone : Obligations.TheDecoderLeavesBufferAndCodecAlone := by
  intro i s t hi h
  have hsame : SameOutsideDecoder s t := by
    rcases hi with ⟨B, rfl⟩ | ⟨r, rfl⟩
    · rw [exec_parse_next h]
      exact pass_outside B.length B s.startPass
    · exact exec_toInstr_outside h
  have ⟨_, _, _, _, _, hchk, hin, hout, hblk, hturns⟩ := hsame
  exact ⟨sameBuffer_of_sameOutsideDecoder hsame, hchk, hin, hout, hblk, hturns⟩

end Sys2Proof.Proofs
end

section
/-! A record as an instruction of its own (42_record_decoder.md R173 to R180): the arithmetic of its fields over its bytes,
and its step with the tests before it. -/

namespace Sys2Proof.Proofs

open Sys2Proof.Machine Sys2Proof.Claims

/-! ### The step, by the test that decides it -/

section
variable {N : Nat} {s : State}

theorem absoluteStep_of_fits (h : s.cursor.toNat + 18 ≤ N) (poi : Bool) (r : AbsoluteRecord) :
    absoluteStep N poi r s = .ok ((s.emit (absoluteFix poi r)).advance 18) :=
  ((absoluteStep_cases N poi r s).resolve_left fun hs => Nat.not_lt.mpr h hs.1).2

theorem absoluteStep_of_short (h : N < s.cursor.toNat + 18) (poi : Bool) (r : AbsoluteRecord) :
    absoluteStep N poi r s = .error (.decodeTruncated s.cursor) :=
  ((absoluteStep_cases N poi r s).resolve_right fun hs => Nat.not_lt.mpr hs.1 h).2

theorem compactStep_of_short (h : N < s.cursor.toNat + 8) (r : CompactRecord) :
    compactStep N r s = .error (.decodeTruncated s.cursor) := by
  rcases compactStep_cases N r s with ⟨-, hs⟩ | ⟨hfit, -⟩ | ⟨hfit, -⟩
  · exact hs
  · exact absurd h (Nat.not_lt.mpr hfit)
  · exact absurd h (Nat.not_lt.mpr hfit)

theorem compactStep_of_noPredecessor (h : s.cursor.toNat + 8 ≤ N) (hv : s.prevValid = false) (r : CompactRecord) :
    compactStep N r s = .error (.decodeNoPredecessor s.cursor) := by
  rcases compactStep_cases N r s with ⟨hshort, -⟩ | ⟨-, -, hs⟩ | ⟨-, hv', -⟩
  · exact absurd h (Nat.not_le.mpr hshort)
  · exact hs
  · cases hv.symm.trans hv'

theorem compactStep_of_predecessor (h : s.cursor.toNat + 8 ≤ N) (hv : s.prevValid = true) (r : CompactRecord) :
    compactStep N r s = .ok ((s.emit (compactFix r s)).advance 8) := by
  rcases compactStep_cases N r s with ⟨hshort, -⟩ | ⟨-, hv', -⟩ | ⟨-, -, hs⟩
  · exact absurd h (Nat.not_le.mpr hshort)
  · cases hv.symm.trans hv'
  · exact hs

theorem emptyStep_of_fits (h : s.cursor.toNat + 2 ≤ N) : emptyStep N s = .ok (s.advance 2) :=
  ((emptyStep_cases N s).resolve_left fun hs => Nat.not_lt.mpr h hs.1).2

theorem emptyStep_of_short (h : N < s.cursor.toNat + 2) : emptyStep N s = .error (.decodeTruncated s.cursor) :=
  ((emptyStep_cases N s).resolve_right fun hs => Nat.not_lt.mpr hs.1 h).2

end

/-- Settles O35: a reserved kind has no other step. -/
theorem reservedKindsRaiseDecodeReservedHeader : Obligations.ReservedKindsRaiseDecodeReservedHeader :=
  fun _ _ => ⟨rfl, rfl, rfl, rfl⟩

/-- Settles O36: the length is tested first, the predecessor second. -/
theorem recordTestsComeBeforeTheRecordStep : Obligations.RecordTestsComeBeforeTheRecordStep :=
  ⟨fun r s h => ⟨congrArg (recordOutcome s) (absoluteStep_of_short h false r),
      congrArg (recordOutcome s) (absoluteStep_of_short h true r)⟩,
    fun r s h => congrArg (recordOutcome s) (compactStep_of_short h r),
    fun _ s h => congrArg (recordOutcome s) (emptyStep_of_short h),
    fun r s h hv => congrArg (recordOutcome s) (compactStep_of_noPredecessor h hv r)⟩

/-! ### The kind by its number -/

theorem kindCode_injective : Function.Injective kindCode :=
  Function.LeftInverse.injective (g := fun code => kindOf (BitVec.ofNat 8 (32 * code))) fun k => by cases k <;> rfl

theorem kindOf_of_code {h : Byte} {k : Kind} (hk : h.toNat / 32 = kindCode k) : kindOf h = k :=
  kindCode_injective ((kindCode_kindOf h).trans hk)

/-- Settles O34: no bit of the two bytes but the kind is asked for. -/
theorem emptyRecordOnlyMovesTheCursor : Obligations.EmptyRecordOnlyMovesTheCursor := by
  intro h b1 s hk hfit
  refine ⟨⟨h.extractLsb' 0 5, b1⟩, ?_, congrArg (recordOutcome s) (emptyStep_of_fits hfit)⟩
  rw [decodeRecord_cons, kindOf_of_code (k := .empty) hk]
  rfl

/-! ### The absolute records -/

/-- `me32` as a signed number (R98). -/
theorem me32_toInt (s0 s1 s2 s3 : Byte) :
    (me32 s0 s1 s2 s3).toInt = s32 (s2.toNat * 2 ^ 24 + s3.toNat * 2 ^ 16 + s0.toNat * 2 ^ 8 + s1.toNat) := by
  rw [BitVec.toInt_eq_toNat_bmod, me32_toNat]
  push_cast
  rfl

/-- The fix holds the fields the 18 bytes of an absolute record name (R95 to R99). -/
def ReadsAbsolute (poi : Bool) (b : List Byte) (f : Fix) : Prop :=
  f.isPointOfInterest = poi ∧
  f.velocity.toNat = nb b 0 % 4 * 256 + nb b 1 ∧
  f.gpsWeek.toNat = nb b 2 % 4 * 256 + nb b 3 ∧
  f.gpsTimeOfWeek.toNat = nb b 4 * 4096 + nb b 5 * 16 + nb b 2 / 16 ∧
  f.x.toInt = me32At b 6 ∧ f.y.toInt = me32At b 10 ∧ f.z.toInt = me32At b 14

/-- 18 bytes are the fields of one absolute record, and its fix holds them. -/
theorem decodeAbsolute_reads {b : List Byte} (hb : b.length = 18) :
    ∃ r, decodeAbsolute b = some (r, []) ∧ ∀ poi, ReadsAbsolute poi b (absoluteFix poi r) := by
  match b, hb with
  | [b0, b1, b2, b3, b4, b5, b6, b7, b8, b9, b10, b11, b12, b13, b14, b15, b16, b17], _ =>
    refine ⟨_, rfl, fun poi => ⟨rfl, velocityField_toNat b0 b1, weekField_toNat b2 b3, ?_, me32_toInt b6 b7 b8 b9,
      me32_toInt b10 b11 b12 b13, me32_toInt b14 b15 b16 b17⟩⟩
    exact (BitVec.toNat_setWidth_of_le (by omega)).trans (towField_toNat b2 b4 b5)

/-- The kind decides which absolute record they are (R93). -/
theorem decodeRecord_of_absolute {b : List Byte} {r : AbsoluteRecord} (hd : decodeAbsolute b = some (r, [])) :
    (nb b 0 / 32 = 2 → decodeRecord b = .ok (.full r, [])) ∧
    (nb b 0 / 32 = 3 → decodeRecord b = .ok (.pointOfInterest r, [])) := by
  cases b with
  | nil => cases hd
  | cons h rest =>
    rw [decodeRecord_cons]
    constructor <;> intro hk
    · rw [kindOf_of_code (h := h) (k := .full) hk]
      exact congrArg (fits .full) hd
    · rw [kindOf_of_code (h := h) (k := .pointOfInterest) hk]
      exact congrArg (fits .pointOfInterest) hd

/-- Settles O31: the bytes are read as a record, whose step emits its fix. -/
theorem fullRecordGivesItsFieldsAsAFix : Obligations.FullRecordGivesItsFieldsAsAFix := by
  intro b s hb hk hfit
  obtain ⟨r, hd, hreads⟩ := decodeAbsolute_reads hb
  exact ⟨r, _, (decodeRecord_of_absolute hd).1 hk, congrArg (recordOutcome s) (absoluteStep_of_fits hfit false r),
    hreads false⟩

/-- Settles O32: the same reader and the same step as FULL, with the flag 1. -/
theorem pointOfInterestIsAFullRecordWithTheFlag : Obligations.PointOfInterestIsAFullRecordWithTheFlag := by
  intro b s hb hk hfit
  obtain ⟨r, hd, hreads⟩ := decodeAbsolute_reads hb
  exact ⟨r, _, (decodeRecord_of_absolute hd).2 hk, congrArg (recordOutcome s) (absoluteStep_of_fits hfit true r),
    hreads true⟩

/-! ### The compact record -/

/-- 8 bytes are the fields of one COMPACT record (R96, R101, R102). -/
theorem decodeCompact_reads {b : List Byte} (hb : b.length = 8) :
    ∃ r, decodeCompact b = some (r, []) ∧
      r.velocity.toNat = nb b 0 % 4 * 256 + nb b 1 ∧
      r.dt.toNat = nb b 2 * 256 + nb b 3 ∧
      r.rdx.toNat = nb b 4 * 4 + nb b 5 / 64 ∧
      r.rdy.toNat = nb b 5 % 64 * 16 + nb b 6 / 16 ∧
      r.rdz.toNat = nb b 6 % 4 * 256 + nb b 7 := by
  match b, hb with
  | [b0, b1, b2, b3, b4, b5, b6, b7], _ =>
    exact ⟨_, rfl, velocityField_toNat b0 b1, dtField_toNat b2 b3, rdxField_toNat b4 b5, rdyField_toNat b5 b6,
      rdzField_toNat b6 b7⟩

/-- The extended delta as the claims spell it (R103, conflict C2). -/
theorem sext10_toInt_eq_sext (v : BitVec 10) : (sext10 v).toInt = sext v.toNat := sext10_toInt v

theorem toInt_add_sext10 (a : Word32) (v : BitVec 10) : (a + sext10 v).toInt = s32 (a.toInt + sext v.toNat) := by
  rw [BitVec.toInt_add, sext10_toInt_eq_sext, s32]

theorem toNat_add_dt (tow : Word32) (dt : BitVec 16) :
    (tow + dt.setWidth 32).toNat = (tow.toNat + dt.toNat) % 2 ^ 32 := by
  rw [BitVec.toNat_add, BitVec.toNat_setWidth_of_le (by omega)]

/-- Settles O33: the emission writes `prev_week` and `prev_valid` with the values they have. -/
theorem compactRecordAddsItsDeltas : Obligations.CompactRecordAddsItsDeltas := by
  intro b s hb hk hfit hv
  obtain ⟨r, hd, hvelocity, hdt, hx, hy, hz⟩ := decodeCompact_reads hb
  obtain ⟨h, rest, rfl⟩ := List.exists_cons_of_length_eq_add_one hb
  refine ⟨r, compactFix r s, ?_, ?_, rfl, hvelocity, rfl, hdt ▸ toNat_add_dt s.prevTow r.dt,
    hx ▸ toInt_add_sext10 s.prevX r.rdx, hy ▸ toInt_add_sext10 s.prevY r.rdy, hz ▸ toInt_add_sext10 s.prevZ r.rdz⟩
  · rw [decodeRecord_cons, kindOf_of_code (h := h) (k := .compact) hk]
    exact congrArg (fits .compact) hd
  · refine (congrArg (recordOutcome s) (compactStep_of_predecessor hfit hv r)).trans (congrArg Host.Outcome.next ?_)
    cases s
    cases hv
    rfl

end Sys2Proof.Proofs
end

section
/-! PARSE of a sequence of records (42_record_decoder.md R171 to R184): the pass over records that have a meaning emits
their fixes, whatever bytes follow, and an offending record behind them ends it. -/

namespace Sys2Proof.Proofs

open Sys2Proof.Machine Sys2Proof.Claims

/-! ### The fixes of a record sequence -/

theorem absoluteFix_eq_absolute (poi : Bool) (r : AbsoluteRecord) : absoluteFix poi r = absolute poi r := by
  simp only [absoluteFix, absolute, BitVec.ofNat_toNat]

theorem ofInt_add_sext (a : Word32) (v : BitVec 10) : BitVec.ofInt 32 (a.toInt + sext v.toNat) = a + sext10 v := by
  rw [← sext10_toInt_eq_sext, BitVec.ofInt_add, BitVec.ofInt_toInt, BitVec.ofInt_toInt]

theorem ofNat_add_dt (tow : Word32) (dt : BitVec 16) : BitVec.ofNat 32 (tow.toNat + dt.toNat) = tow + dt.setWidth 32 := by
  rw [BitVec.ofNat_add, BitVec.ofNat_toNat, BitVec.ofNat_toNat, BitVec.setWidth_eq]

theorem predecessorHeld_of_last {s : State} {p : Fix} (h : s.predecessorHeld = true) (hp : s.out.getLast? = some p) :
    s.prevValid = true ∧ s.prevWeek = p.gpsWeek ∧ s.prevTow = p.gpsTimeOfWeek ∧ s.prevX = p.x ∧ s.prevY = p.y ∧
      s.prevZ = p.z := by
  simpa [State.predecessorHeld, hp, and_assoc] using h

theorem prevValid_of_out_nil {s : State} (h : s.predecessorHeld = true) (ho : s.out = []) : s.prevValid = false := by
  simpa [State.predecessorHeld, ho] using h

/-- Against the record emitted last, a COMPACT record's fix is the one it stands for (R176). -/
theorem compactFix_eq_delta {s : State} {p : Fix} (h : s.predecessorHeld = true) (hp : s.out.getLast? = some p)
    (r : CompactRecord) : compactFix r s = delta p r := by
  obtain ⟨-, hweek, htow, hx, hy, hz⟩ := predecessorHeld_of_last h hp
  simp only [compactFix, delta, hweek, htow, hx, hy, hz, ofNat_add_dt, ofInt_add_sext]

/-- The first record's fixes, then those of the rest after them. -/
theorem fixes_cons (p : Option Fix) (r : LogRecord) (rs : List LogRecord) :
    fixes p (r :: rs) = (fixes p [r]).bind fun gs => (fixes (gs.getLast?.or p) rs).map (gs ++ ·) := by
  cases r with
  | compact r => cases p <;> simp [fixes]
  | _ => simp [fixes]

/-- A record that has a meaning and whose bytes are there takes its step and emits what it stands for. -/
theorem recordStep_of_fixes {N : Nat} {r : LogRecord} {s : State} {gs : List Fix} (hfit : s.cursor.toNat + r.size ≤ N)
    (hheld : s.predecessorHeld = true) (hgs : fixes s.out.getLast? [r] = some gs) :
    ∃ t, recordStep N r s = .ok t ∧ t.out = s.out ++ gs := by
  cases r with
  | full r =>
    obtain rfl : [absolute false r] = gs := by simpa [fixes] using hgs
    exact ⟨_, absoluteStep_of_fits hfit false r, by rw [absoluteFix_eq_absolute]; rfl⟩
  | pointOfInterest r =>
    obtain rfl : [absolute true r] = gs := by simpa [fixes] using hgs
    exact ⟨_, absoluteStep_of_fits hfit true r, by rw [absoluteFix_eq_absolute]; rfl⟩
  | compact r =>
    cases hp : s.out.getLast? with
    | none => simp [hp, fixes] at hgs
    | some p =>
      obtain rfl : [delta p r] = gs := by simpa [hp, fixes] using hgs
      have hv := (predecessorHeld_of_last hheld hp).1
      exact ⟨_, compactStep_of_predecessor hfit hv r, by rw [compactFix_eq_delta hheld hp]; rfl⟩
  | empty r =>
    obtain rfl : [] = gs := by simpa [fixes] using hgs
    exact ⟨_, emptyStep_of_fits hfit, (List.append_nil _).symm⟩
  | reserved0 | reserved1 | reserved5 | reserved6 => simp [fixes] at hgs

/-- The pass over records that have a meaning: their fixes join OUT, and the pass stands before what follows. -/
theorem pass_blockOf {N : Nat} (hN : N < 2 ^ 32) (rs : List LogRecord) {rest : List Byte} {s : State} {fs : List Fix}
    (h : Reading N (blockOf rs ++ rest) s) (hfs : fixes s.out.getLast? rs = some fs) :
    ∃ u, pass N (blockOf rs ++ rest) s = pass N rest u ∧ u.out = s.out ++ fs ∧ Reading N rest u := by
  induction rs generalizing s fs with
  | nil =>
    obtain rfl : [] = fs := by simpa [fixes] using hfs
    exact ⟨s, rfl, (List.append_nil _).symm, h⟩
  | cons r rs ih =>
    rw [fixes_cons] at hfs
    obtain ⟨gs, hgs, hmap⟩ := Option.bind_eq_some_iff.mp hfs
    obtain ⟨fs', hfs', rfl⟩ := Option.map_eq_some_iff.mp hmap
    rw [show blockOf (r :: rs) ++ rest = encodeRecord r ++ (blockOf rs ++ rest) from List.append_assoc ..] at h ⊢
    have hd := decodeRecord_encodeRecord r (blockOf rs ++ rest)
    have hfit : s.cursor.toNat + r.size ≤ N := by
      have := h.left
      have := (decodeRecord_ok hd).1
      omega
    obtain ⟨t, ht, hout⟩ := recordStep_of_fixes hfit h.held hgs
    rw [← List.getLast?_append, ← hout] at hfs'
    obtain ⟨u, hu, huout, hread⟩ := ih (h.recordStep hN hd ht) hfs'
    exact ⟨u, (pass_of_taken hd ht).trans hu, by rw [huout, hout, List.append_assoc], hread⟩

/-- PARSE up to the end of records that have a meaning. -/
theorem exec_parse_blockOf {rs : List LogRecord} {fs : List Fix} {rest : List Byte} (hfs : fixes none rs = some fs)
    (hN : (blockOf rs ++ rest).length < 2 ^ 32) (s : State) :
    ∃ u, exec (.parse (blockOf rs ++ rest)) s = .next (pass (blockOf rs ++ rest).length rest u) ∧ u.out = fs ∧
      Reading (blockOf rs ++ rest).length rest u ∧ u.cursor = BitVec.ofNat 32 (blockOf rs).length := by
  obtain ⟨u, hu, hout, hread⟩ := pass_blockOf hN rs (reading_startPass (blockOf rs ++ rest) s) hfs
  have hcur : u.cursor.toNat = (blockOf rs).length := by
    have := hread.left
    rw [List.length_append] at this
    omega
  exact ⟨u, (exec_parse_of_lt hN s).trans (congrArg _ hu), hout, hread,
    by rw [← hcur, BitVec.ofNat_toNat, BitVec.setWidth_eq]⟩

/-- Settles O39: nothing follows the records, so the pass finishes with their fixes. -/
theorem parseGivesTheFixesOfTheRecords : Obligations.ParseGivesTheFixesOfTheRecords := by
  intro rs fs s hfs hN
  rw [← List.append_nil (blockOf rs)] at hN ⊢
  obtain ⟨u, hu, rfl, hread, -⟩ := exec_parse_blockOf hfs hN s
  exact ⟨_, hu, rfl, rfl, hread.left⟩

/-! ### The first offending record -/

theorem recordStep_of_reserved {r : LogRecord} (h : (recordKind r).size = none) (N : Nat) (s : State) :
    recordStep N r s = .error (.decodeReservedHeader s.cursor) := by
  cases r with
  | full | pointOfInterest | compact | empty => cases h
  | reserved0 | reserved1 | reserved5 | reserved6 => rfl

theorem pass_of_reserved {N : Nat} {h : Byte} {rest : List Byte} {s : State} (hn : sizeOfHeader h = none) :
    pass N (h :: rest) s = s.raise (.decodeReservedHeader s.cursor) := by
  rw [sizeOfHeader_eq] at hn
  obtain ⟨r, hd⟩ := decodeRecord_of_size_none rest hn
  exact pass_of_failed hd (recordStep_of_reserved (recordKind_of_decodeRecord hd ▸ hn) N s)

theorem pass_of_short {N n : Nat} {h : Byte} {rest : List Byte} {s : State} (hn : sizeOfHeader h = some n)
    (hshort : rest.length + 1 < n) : pass N (h :: rest) s = s.raise (.decodeTruncated s.cursor) :=
  pass_of_unread ((decodeRecord_of_size ((sizeOfHeader_eq h).symm.trans hn)).1 hshort)

/-- Only a COMPACT header names the length 8. -/
theorem compact_of_size {r : LogRecord} (h : (recordKind r).size = some 8) : ∃ c, r = .compact c := by
  cases r with
  | compact c => exact ⟨c, rfl⟩
  | _ => cases h

theorem pass_of_noPredecessor {N : Nat} {h : Byte} {rest : List Byte} {s : State} (hread : Reading N (h :: rest) s)
    (hn : sizeOfHeader h = some 8) (hfit : 8 ≤ rest.length + 1) (ho : s.out = []) :
    pass N (h :: rest) s = s.raise (.decodeNoPredecessor s.cursor) := by
  rw [sizeOfHeader_eq] at hn
  obtain ⟨r, hd⟩ := (decodeRecord_of_size hn).2 hfit
  obtain ⟨c, rfl⟩ := compact_of_size (recordKind_of_decodeRecord hd ▸ hn)
  have hcur : s.cursor.toNat + 8 ≤ N := by
    have := hread.left
    rw [List.length_cons] at this
    omega
  exact pass_of_failed hd (compactStep_of_noPredecessor hcur (prevValid_of_out_nil hread.held ho) c)

/-- Settles O40: the pass comes to the offending header with the registers of the records before it. -/
theorem parseReportsTheFirstOffendingRecord : Obligations.ParseReportsTheFirstOffendingRecord := by
  intro rs fs h rest s hfs hN
  obtain ⟨u, hu, hout, hread, hcur⟩ := exec_parse_blockOf hfs hN s
  rw [← hcur]
  refine ⟨fun hn => ⟨_, hu, ?_⟩, fun n hn hshort => ⟨_, hu, ?_⟩, fun hn hfit hnil => ⟨_, hu, ?_⟩⟩
  · rw [pass_of_reserved hn, State.raise_resp]
  · rw [pass_of_short hn hshort, State.raise_resp]
  · rw [pass_of_noPredecessor hread hn hfit (hout.trans hnil), State.raise_resp]

/-! ### Chains of COMPACT records -/

/-- The fixes of a chain: each delta added to the fix before it. -/
theorem fixes_compacts (p : Fix) (cs : List CompactRecord) :
    (fixes (some p) (cs.map .compact)).map (p :: ·) = some (cs.scanl delta p) := by
  induction cs generalizing p with
  | nil => rfl
  | cons c cs ih => rw [List.map_cons, fixes, ih, List.scanl_cons, Option.map_some]

theorem encodeRecord_length (r : LogRecord) : (encodeRecord r).length = r.size := by
  simpa using (decodeRecord_ok (decodeRecord_encodeRecord r [])).1

theorem blockOf_chain_length (a : AbsoluteRecord) (cs : List CompactRecord) :
    (blockOf (.full a :: cs.map .compact)).length = 18 + 8 * cs.length := by
  simp [blockOf, List.length_flatMap, encodeRecord_length, LogRecord.size, Function.comp_def, mul_comm]

theorem foldl_delta_week (p : Fix) (cs : List CompactRecord) : (cs.foldl delta p).gpsWeek = p.gpsWeek := by
  induction cs generalizing p with
  | nil => rfl
  | cons c cs ih => exact ih (delta p c)

theorem foldl_delta_tow (p : Fix) (cs : List CompactRecord) :
    (cs.foldl delta p).gpsTimeOfWeek = p.gpsTimeOfWeek + BitVec.ofNat 32 (cs.map (·.dt.toNat)).sum := by
  induction cs generalizing p with
  | nil => simp
  | cons c cs ih =>
    rw [List.foldl_cons, ih, List.map_cons, List.sum_cons, BitVec.ofNat_add, ← BitVec.add_assoc]
    simp only [delta, BitVec.ofNat_add, BitVec.ofNat_toNat, BitVec.setWidth_eq]

/-- A coordinate to which every record adds its extended delta: the deltas add up (R184). -/
theorem foldl_delta_coordinate {coordinate : Fix → Word32} {raw : CompactRecord → BitVec 10}
    (hdelta : ∀ p c, coordinate (delta p c) = BitVec.ofInt 32 ((coordinate p).toInt + sext (raw c).toNat)) (p : Fix)
    (cs : List CompactRecord) :
    coordinate (cs.foldl delta p) = coordinate p + BitVec.ofInt 32 (cs.map fun c => sext (raw c).toNat).sum := by
  induction cs generalizing p with
  | nil => simp
  | cons c cs ih =>
    rw [List.foldl_cons, ih, hdelta, List.map_cons, List.sum_cons, BitVec.ofInt_add, BitVec.ofInt_add,
      BitVec.ofInt_toInt, BitVec.add_assoc]

theorem toInt_add_ofInt (a : Word32) (v : Int) : (a + BitVec.ofInt 32 v).toInt = s32 (a.toInt + v) := by
  rw [← BitVec.ofInt_toInt (x := a), ← BitVec.ofInt_add, BitVec.toInt_ofInt, BitVec.ofInt_toInt, s32]

/-- Settles O43: the k-th fix is the FULL record's with the first k deltas added one after the other. -/
theorem chainsOfCompactRecordsAddUp : Obligations.ChainsOfCompactRecordsAddUp := by
  intro a cs s hlen
  have hfs : fixes none (.full a :: cs.map .compact) = some (cs.scanl delta (absolute false a)) := fixes_compacts _ cs
  obtain ⟨t, ht, hresp, -⟩ := parseGivesTheFixesOfTheRecords _ _ s hfs (blockOf_chain_length a cs ▸ hlen)
  refine ⟨t, _, ht, hresp, by rw [List.length_scanl, Nat.add_comm], fun k f hk => ?_⟩
  obtain rfl : (cs.take k).foldl delta (absolute false a) = f := by
    rw [List.getElem?_scanl] at hk
    split_ifs at hk
    exact Option.some.inj hk
  have coordinate : ∀ {coord : Fix → Word32} {raw : CompactRecord → BitVec 10},
      (∀ p c, coord (delta p c) = BitVec.ofInt 32 ((coord p).toInt + sext (raw c).toNat)) →
      (coord ((cs.take k).foldl delta (absolute false a))).toInt =
        s32 ((coord (absolute false a)).toInt + ((cs.take k).map fun c => sext (raw c).toNat).sum) := fun hdelta => by
    rw [foldl_delta_coordinate hdelta, toInt_add_ofInt]
  refine ⟨foldl_delta_week _ _, ?_, coordinate fun _ _ => rfl, coordinate fun _ _ => rfl, coordinate fun _ _ => rfl⟩
  rw [foldl_delta_tow, absolute, ← BitVec.ofNat_add, BitVec.toNat_ofNat]

end Sys2Proof.Proofs
end

section
/-! The errors of the Session on the response port (43_session_environment.md R208), and the Session's procedures as a
driver: the progress of a procedure, QUERY (R203, R204) and GET_DATA (R206). -/

namespace Sys2Proof.Proofs

open Sys2Proof.Machine Sys2Proof.Machine.Session

/-! ### No operation of the block raises an error of the Session -/

theorem raise_noSessionError {e : Err} (he : e.ofSession = false) (s : State) : (s.raise e).noSessionError = true := by
  simp [State.noSessionError, he]

theorem ErrorAt.ofSession {cursor : Word32} {e : Err} (h : ErrorAt cursor e) : e.ofSession = false := by
  rcases h with rfl | rfl | rfl <;> rfl

theorem waitOrFail_noSessionError (p : Pend) (s : State) : (s.waitOrFail p).noSessionError = true := by
  rcases waitOrFail_cases p s with ⟨-, h⟩ | ⟨-, -, h⟩ | ⟨-, -, h⟩ <;> rw [h] <;> rfl

theorem framePass_noSessionError (s : State) : s.framePass.noSessionError = true := by
  rcases framePass_cases s with ⟨f, rest, -, h⟩ | ⟨rest, -, h⟩ <;> rw [h]
  · rfl
  · exact waitOrFail_noSessionError _ _

theorem bytesPass_noSessionError (count : BitVec Config.countWidth) (s : State) :
    (s.bytesPass count).noSessionError = true := by
  rcases bytesPass_cases count s with ⟨-, h⟩ | ⟨-, h⟩ <;> rw [h]
  · rfl
  · exact waitOrFail_noSessionError _ _

/-- A completion step that is held leaves the port as it is; one that is taken answers (R143). -/
theorem complete_noSessionError {s : State} (h : s.noSessionError = true) : s.complete.noSessionError = true := by
  rcases complete_cases s with ⟨-, hc⟩ | ⟨-, -, hc⟩ | ⟨count, -, -, hc⟩ <;> rw [hc]
  · exact h
  · exact framePass_noSessionError s
  · exact bytesPass_noSessionError count s

theorem exec_encode_noSessionError {id : Byte} {body : List Byte} {s t : State}
    (h : exec (.encode id body) s = .next t) : t.noSessionError = true := by
  rcases execEncode_cases id body s with ⟨-, he⟩ | ⟨-, he⟩ <;> cases he.symm.trans h <;> rfl

theorem exec_decode_noSessionError {F : List Byte} {s t : State} (h : exec (.decode F) s = .next t) :
    t.noSessionError = true := by
  rcases execDecode_cases F s with ⟨e, -, he⟩ | ⟨f, -, he⟩ <;> cases he.symm.trans h <;> rfl

theorem exec_parse_noSessionError {B : List Byte} {s t : State} (h : exec (.parse B) s = .next t) :
    t.noSessionError = true := by
  by_cases hB : B.length < 2 ^ 32
  · cases (exec_parse_of_lt hB s).symm.trans h
    rcases pass_ends hB (reading_startPass B s) with ⟨u, -, hend⟩ | ⟨-, -, u, e, -, he, hend⟩ <;> rw [hend]
    · rfl
    · exact raise_noSessionError he.ofSession u
  · cases (execParse_far hB s).symm.trans h

theorem exec_bufferOperation_noSessionError {i : Instr} {s t : State}
    (hi : (∃ chunk, i = .append chunk) ∨ i = .extractFrame ∨ (∃ count, i = .extractBytes count) ∨ i = .cancel ∨
      i = .clear ∨ ∃ low, i = .reservedOp low)
    (h : exec i s = .next t) : t.noSessionError = true := by
  rcases hi with ⟨chunk, rfl⟩ | rfl | ⟨count, rfl⟩ | rfl | rfl | ⟨low, rfl⟩
  · rcases execAppend_cases chunk s with ⟨-, he⟩ | ⟨-, he⟩ <;> cases he.symm.trans h <;> rfl
  · rcases execExtractFrame_cases s with ⟨-, he⟩ | ⟨-, he⟩ <;> cases he.symm.trans h
    · rfl
    · exact framePass_noSessionError s
  · rcases execExtractBytes_cases count s with ⟨-, he⟩ | ⟨-, he⟩ <;> cases he.symm.trans h
    · rfl
    · exact bytesPass_noSessionError count s
  · cases h
    rfl
  · rcases execClear_cases s with ⟨-, he⟩ | ⟨-, he⟩ <;> cases he.symm.trans h <;> rfl
  · cases h
    rfl

/-- Whatever the port showed before, the answer to a request is no error of the Session. -/
theorem exec_request_noSessionError {q : Request} {i : Instr} {s t : State} (hd : decodeRequest q = .ok i)
    (h : exec i s = .next t) : t.noSessionError = true := by
  rcases decodeRequest_cases hd with ⟨id, body, rfl⟩ | ⟨F, rfl⟩ | ⟨B, rfl⟩ | hi
  · exact exec_encode_noSessionError h
  · exact exec_decode_noSessionError h
  · exact exec_parse_noSessionError h
  · exact exec_bufferOperation_noSessionError hi h

/-- Settles O56: only a held completion step leaves the port as it was. -/
theorem noStepRaisesASessionError : Obligations.NoStepRaisesASessionError := by
  intro s t hs h
  rcases step_cases h with ⟨-, rfl⟩ | ⟨agent, q, rest, i, -, hd, he⟩ | ⟨rest, -, rfl⟩ | ⟨rest, -, rfl⟩
  · exact complete_noSessionError hs
  · exact exec_request_noSessionError hd he
  · exact complete_noSessionError (s := s.setTurns rest) hs
  · rfl

/-! ### The progress of a procedure -/

/-- How far a procedure has come: the phases in the order of R203 to R206, the ends last. -/
def rank : Phase → Nat
  | .sending => 0
  | .writing _ => 1
  | .awaitingFirst => 2
  | .decodingFirst _ => 3
  | .awaitingSecond => 4
  | .decodingSecond _ => 5
  | .awaitingReply => 6
  | .decodingReply _ => 7
  | .awaitingBulk _ => 8
  | .block _ => 9
  | .records _ | .done | .version _ | .status _ | .failed _ | .refused => 10

theorem rank_lt_of_live {ph : Phase} (h : ph.over = false) : rank ph < 10 := by
  cases ph <;> simp_all [rank, Phase.over]

theorem rank_of_over {ph : Phase} (h : ph.over = true) : rank ph = 10 := by
  cases ph <;> simp_all [rank, Phase.over]

theorem rank_errorPhase (e : Err) : rank (errorPhase e) = 10 := by cases e <;> rfl

/-- An acknowledgement that is no preliminary one leads past both of QUERY's frames (R204). -/
theorem rank_judge (p : Procedure) (id : Byte) (body : List Byte) : 5 < rank (p.judge id body) := by
  rcases judge_cases p id body with h | h <;> rw [h]
  · cases p <;> simp [Procedure.afterAck, rank]
  · simp [rank]

/-- No response leaves a procedure under way where it is or takes it back: it ends with an error, goes on to the next
phase, or ends with ProtocolViolation. -/
theorem rank_lt_onResponse {ph : Phase} (h : ph.over = false) (p : Procedure) (r : Response) :
    rank ph < rank (ph.onResponse p r) := by
  have hlive := rank_lt_of_live h
  unfold Phase.onResponse
  -- The branches in the definition's order: the six ends, an error, the expected responses, any other response.
  split
  iterate 6 cases h
  · rw [rank_errorPhase]
    exact hlive
  · simp [rank]
  · simp [rank]
  · split
    · simp [rank]
    · exact (by simp [rank] : rank (.decodingFirst _) < 5).trans (rank_judge p _ _)
  · simp [rank]
  · exact rank_judge p _ _
  · simp [rank]
  · rw [rank_of_over (replied_over p _ _)]
    exact hlive
  · simp [rank]
  · simp [rank]
  · exact hlive

/-- A report of the transport that its bytes are flushed does not either. -/
theorem rank_lt_onFlushed {ph : Phase} (h : ph.over = false) : rank ph < rank ph.onFlushed := by
  cases ph with
  | records | done | version | status | failed | refused => cases h
  | _ => simp [rank, Phase.onFlushed]

theorem onResponse_ne {ph : Phase} (h : ph.over = false) (p : Procedure) (r : Response) : ph.onResponse p r ≠ ph :=
  fun heq => (rank_lt_onResponse h p r).ne' (congrArg rank heq)

theorem onFlushed_ne {ph : Phase} (h : ph.over = false) : ph.onFlushed ≠ ph :=
  fun heq => (rank_lt_onFlushed h).ne' (congrArg rank heq)

theorem receive_of_over {c : Call} (h : c.phase.over = true) (r : Response) : c.receive r = c := by
  rw [Call.receive, onResponse_over h]

theorem transportFailed_phase_of_live {c : Call} (h : c.phase.over = false) :
    c.transportFailed.phase = .failed .transportFailure := by
  simp [h]

/-- A procedure that asks for something has not ended. -/
theorem live_of_asks {c : Call} (h : c.request.isSome = true ∨ c.write.isSome = true) : c.phase.over = false := by
  by_contra hover
  obtain ⟨hrequest, hwrite⟩ := (over_iff c).mp (by simpa using hover)
  simp [hrequest, hwrite] at h

/-! ### QUERY -/

theorem preliminary_iff (id : Byte) (body : List Byte) :
    preliminary id body = true ↔ (id = 0x83 ∨ id = 0x84) ∧ body[0]? = some 0x00 := by
  simp [preliminary, idAck, idNack, List.head?_eq_getElem?]

theorem matchingAck_iff (requestId id : Byte) (body : List Byte) :
    matchingAck requestId id body = true ↔ id = 0x83 ∧ body[0]? = some requestId := by
  simp [matchingAck, idAck, List.head?_eq_getElem?]

/-- The test that ends QUERY, or leads to the rest of the procedure built on it (R203). -/
theorem judge_eq (p : Procedure) (id : Byte) (body : List Byte) :
    p.judge id body = if id = 0x83 ∧ body[0]? = some p.id then p.afterAck else .failed .protocolViolation := by
  simp only [Procedure.judge, matchingAck_iff]

theorem start_of_ne {p : Procedure} (h : p.id ≠ 0x00) : Call.start p = { procedure := p, phase := .sending } := by
  rw [Call.start, if_neg h]

/-- A procedure up to its first frame, decoded (R203): after a preliminary acknowledgement a second frame is awaited,
else the first is the one that counts. -/
theorem firstFrame_eq {p : Procedure} (hp : p.id ≠ 0x00) (f0 f1 : List Byte) (id : Byte) (body : List Byte) (v : Bool) :
    (((Call.start p).receive (.encoded f0)).flushed.receive (.frame f1)).receive (.decoded id body v) =
      { procedure := p
        phase := if (id = 0x83 ∨ id = 0x84) ∧ body[0]? = some 0x00 then .awaitingSecond else p.judge id body } := by
  simp [start_of_ne hp, Call.receive, Call.flushed, preliminary_iff]

/-- Settles O59: the first frame is the one that counts unless it is a preliminary acknowledgement, and every event before
the end raises the rank. -/
theorem queryEndsWithTheMatchingAcknowledgement : Obligations.QueryEndsWithTheMatchingAcknowledgement := by
  refine ⟨fun id i1 i2 body f0 f1 f2 b1 b2 v1 v2 hid => ?_, fun body => ⟨rfl, rfl⟩, fun c hrequest hwrite => ?_,
    fun c hasks => ?_⟩
  · intro start written sent first second
    have hstart : start = { procedure := .query id body, phase := .sending } := start_of_ne hid
    have hwritten : written = { procedure := .query id body, phase := .writing f0 } :=
      congrArg (Call.receive · (.encoded f0)) hstart
    have hsent : sent = { procedure := .query id body, phase := .awaitingFirst } := congrArg Call.flushed hwritten
    have hfirst : first = _ := firstFrame_eq (p := .query id body) hid f0 f1 i1 b1 v1
    rw [hstart, hwritten, hsent]
    refine ⟨rfl, rfl, rfl, rfl, rfl, ?_⟩
    simp only [second, hfirst]
    by_cases hprelim : (i1 = 0x83 ∨ i1 = 0x84) ∧ b1[0]? = some 0x00
    · simp only [if_pos hprelim]
      exact ⟨rfl, judge_eq _ i2 b2⟩
    · simp only [if_neg hprelim]
      exact judge_eq _ i1 b1
  · exact receive_of_over ((over_iff c).mpr ⟨hrequest, hwrite⟩)
  · have hlive := live_of_asks hasks
    exact ⟨onFlushed_ne hlive, transportFailed_phase_of_live hlive, onResponse_ne hlive c.procedure⟩

/-! ### GET_DATA -/

theorem hi8_eq (v : BitVec 16) : hi8 v = BitVec.ofNat 8 (v.toNat / 256) := by
  simpa using hi8_ofNat v.toNat

theorem lo8_eq (v : BitVec 16) : lo8 v = BitVec.ofNat 8 (v.toNat % 256) := by
  simpa using lo8_ofNat v.toNat

/-- 32 bits hold the count of every transfer (R206). -/
theorem dataCount_toNat (sectorCount : BitVec 16) : (dataCount sectorCount).toNat = sectorCount.toNat * 4096 + 19 := by
  have := sectorCount.isLt
  simp only [dataCount, dataLength, Config.sectorSize, Config.trailerLen, BitVec.toNat_ofNat]
  omega

/-- Settles O60: the matching acknowledgement is no preliminary one, and leads to the bulk transfer. -/
theorem getDataAsksForSectorsAndDropsTheTrailer : Obligations.GetDataAsksForSectorsAndDropsTheTrailer := by
  intro start count f0 f1 d b v fs hb call bulk returned
  have hid : (Procedure.getData start count).id ≠ 0x00 := (by decide : idGetData ≠ 0x00)
  have hcall : call = { procedure := .getData start count, phase := .sending } := start_of_ne hid
  have hbulk : bulk = { procedure := .getData start count, phase := .awaitingBulk count } := by
    refine (firstFrame_eq hid f0 f1 0x83 b v).trans ?_
    simp [hb, judge_eq, Procedure.id, idGetData, Procedure.afterAck]
  have hreturned : returned = { procedure := .getData start count, phase := .block (d.take (count.toNat * 4096)) } := by
    simp only [returned, hbulk]
    rfl
  rw [hcall, hbulk, hreturned, ← hi8_eq, ← lo8_eq, ← hi8_eq, ← lo8_eq]
  exact ⟨rfl, ⟨dataCount count, rfl, dataCount_toNat count⟩, rfl, rfl, rfl⟩

end Sys2Proof.Proofs
end

section
/-! The error table (60_exceptions.md): who writes the sticky flags (R233), and the state each error leaves (R232). -/

namespace Sys2Proof.Proofs

open Sys2Proof.Machine Sys2Proof.Claims

/-! ### The writers of the flags -/

/-- What an instruction can do to the flags: nothing, or the one write of CLEAR, CANCEL or APPEND (R28, R233). -/
theorem exec_flags {i : Instr} {s t : State} (h : exec i s = .next t) :
    t.bufCap = s.bufCap ∧
      (t.closed = s.closed ∧ t.overflow = s.overflow ∨
        i = .clear ∧ t.closed = false ∧ t.overflow = false ∨
        i = .cancel ∧ t.closed = true ∧ t.overflow = s.overflow ∨
        (∃ chunk, i = .append chunk) ∧ t.closed = s.closed ∧ t.overflow = true) := by
  rcases exec_bufferOperation_or_sameBuffer h with
    (⟨chunk, rfl⟩ | rfl | ⟨count, rfl⟩ | rfl | rfl) | ⟨-, -, hclosed, hoverflow, hcap⟩
  · rcases execAppend_cases chunk s with ⟨-, he⟩ | ⟨-, he⟩ <;> cases he.symm.trans h
    · exact ⟨rfl, .inl ⟨rfl, rfl⟩⟩
    · exact ⟨rfl, .inr (.inr (.inr ⟨⟨chunk, rfl⟩, rfl, rfl⟩))⟩
  · rcases execExtractFrame_cases s with ⟨-, he⟩ | ⟨-, he⟩ <;> cases he.symm.trans h
    · exact ⟨rfl, .inl ⟨rfl, rfl⟩⟩
    · obtain ⟨-, rest, q, r, -, hf⟩ := framePass_frame s
      rw [hf]
      exact ⟨rfl, .inl ⟨rfl, rfl⟩⟩
  · rcases execExtractBytes_cases count s with ⟨-, he⟩ | ⟨-, he⟩ <;> cases he.symm.trans h
    · exact ⟨rfl, .inl ⟨rfl, rfl⟩⟩
    · obtain ⟨-, rest, q, r, -, hb⟩ := bytesPass_frame count s
      rw [hb]
      exact ⟨rfl, .inl ⟨rfl, rfl⟩⟩
  · cases h
    exact ⟨rfl, .inr (.inr (.inl ⟨rfl, rfl, rfl⟩))⟩
  · rcases execClear_cases s with ⟨-, he⟩ | ⟨-, he⟩ <;> cases he.symm.trans h
    · exact ⟨rfl, .inl ⟨rfl, rfl⟩⟩
    · exact ⟨rfl, .inr (.inl ⟨rfl, rfl, rfl⟩)⟩
  · exact ⟨hcap, .inl ⟨hclosed, hoverflow⟩⟩

/-- A completion step writes neither flag (R143). -/
theorem complete_flags (s : State) :
    s.complete.bufCap = s.bufCap ∧ s.complete.closed = s.closed ∧ s.complete.overflow = s.overflow := by
  obtain ⟨-, rest, q, r, -, h⟩ := complete_frame s
  rw [h]
  exact ⟨rfl, rfl, rfl⟩

theorem op_of_decodeRequest_cancel {q : Request} (h : decodeRequest q = .ok .cancel) : q.op = 5 := by
  rw [decodeRequest_eq] at h
  split_ifs at h <;> cases h
  assumption

theorem op_of_decodeRequest_append {q : Request} {chunk : List Byte} (h : decodeRequest q = .ok (.append chunk)) :
    q.op = 2 := by
  rw [decodeRequest_eq] at h
  split_ifs at h <;> cases h
  assumption

/-- The next turn is a request with this select code. -/
def Requests (op : BitVec 4) (s : State) : Prop := ∃ a q rest, s.turns = .request a q :: rest ∧ q.op = op

/-- What a step can do to the flags: nothing, or the one write of a reset, CLEAR, CANCEL or APPEND (R28, R233). -/
theorem step_flags {s t : State} (h : step s = .next t) :
    t.bufCap = s.bufCap ∧
      (t.closed = s.closed ∧ t.overflow = s.overflow ∨
        ((∃ rest, s.turns = .reset :: rest) ∨ Requests 6 s) ∧ t.closed = false ∧ t.overflow = false ∨
        Requests 5 s ∧ t.closed = true ∧ t.overflow = s.overflow ∨
        Requests 2 s ∧ t.closed = s.closed ∧ t.overflow = true) := by
  rcases step_cases h with ⟨-, rfl⟩ | ⟨a, q, rest, i, ht, hd, he⟩ | ⟨rest, -, rfl⟩ | ⟨rest, ht, rfl⟩
  · obtain ⟨hcap, hflags⟩ := complete_flags s
    exact ⟨hcap, .inl hflags⟩
  · obtain ⟨f, b, hdel⟩ := deliver_eq i (s.setTurns rest)
    rw [hdel] at he
    obtain ⟨hcap, hsame | ⟨rfl, hflags⟩ | ⟨rfl, hflags⟩ | ⟨⟨chunk, rfl⟩, hflags⟩⟩ := exec_flags he
    · exact ⟨hcap, .inl hsame⟩
    · exact ⟨hcap, .inr (.inl ⟨.inr ⟨a, q, rest, ht, op_of_decodeRequest_clear hd⟩, hflags⟩)⟩
    · exact ⟨hcap, .inr (.inr (.inl ⟨⟨a, q, rest, ht, op_of_decodeRequest_cancel hd⟩, hflags⟩))⟩
    · exact ⟨hcap, .inr (.inr (.inr ⟨⟨a, q, rest, ht, op_of_decodeRequest_append hd⟩, hflags⟩))⟩
  · obtain ⟨hcap, hflags⟩ := complete_flags (s.setTurns rest)
    exact ⟨hcap, .inl hflags⟩
  · exact ⟨rfl, .inr (.inl ⟨.inl ⟨rest, ht⟩, rfl, rfl⟩)⟩

/-- Settles O55: each write of a flag is the one its clause names. -/
theorem flagsAreStickyAndHaveOneWriter : Obligations.FlagsAreStickyAndHaveOneWriter := by
  intro s t h
  obtain ⟨hcap, hflags⟩ := step_flags h
  refine ⟨hcap, fun hreset hclear => ?_, fun hc htc => ?_, fun ho hto => ?_⟩
  · have hkept : ¬ ((∃ rest, s.turns = .reset :: rest) ∨ Requests 6 s) := by
      rintro (⟨rest, ht⟩ | ⟨a, q, rest, ht, hop⟩)
      · exact hreset rest ht
      · exact hclear a q rest ht hop
    rcases hflags with ⟨hc, ho⟩ | ⟨hw, -⟩ | ⟨-, hc, ho⟩ | ⟨-, hc, ho⟩
    · exact ⟨hc.trans, ho.trans⟩
    · exact absurd hw hkept
    · exact ⟨fun _ => hc, ho.trans⟩
    · exact ⟨hc.trans, fun _ => ho⟩
  · rcases hflags with ⟨hs, -⟩ | ⟨-, hs, -⟩ | ⟨hw, -⟩ | ⟨-, hs, -⟩
    · simp [hs, hc] at htc
    · simp [hs] at htc
    · exact hw
    · simp [hs, hc] at htc
  · rcases hflags with ⟨-, hs⟩ | ⟨-, -, hs⟩ | ⟨-, -, hs⟩ | ⟨hw, -⟩
    · simp [hs, ho] at hto
    · simp [hs] at hto
    · simp [hs, ho] at hto
    · exact hw

/-! ### The errors of an extraction -/

/-- The error the flags give a pass without data (R146, R150). -/
def FlagError (s : State) (e : Err) : Prop :=
  (e = .bufferOverflow ∧ s.overflow = true) ∨ (e = .closed ∧ s.overflow = false ∧ s.closed = true)

theorem waitOrFail_error {p : Pend} {s : State} {e : Err} (h : (s.waitOrFail p).resp = some (.error e)) :
    FlagError s e ∧ s.waitOrFail p = { s with pend := .idle, resp := some (.error e) } := by
  rcases waitOrFail_cases p s with ⟨ho, hw⟩ | ⟨ho, hc, hw⟩ | ⟨-, -, hw⟩ <;> rw [hw] at h <;> cases h
  · exact ⟨.inl ⟨rfl, ho⟩, hw⟩
  · exact ⟨.inr ⟨rfl, ho, hc⟩, hw⟩

/-- Where SCAN finds no frame, what it removed are discarded candidates (R145, R146). -/
theorem scan_none_spec {s rest : List Byte} (h : scan s = (none, rest)) :
    ∃ gs, Garbage gs ∧ NoEnd rest ∧ s = gs.flatten ++ rest := by
  obtain ⟨gs, hgs, hs⟩ := scan_garbage s
  have hno : findEnd (scan s).2 = none := scan_none_rest (by rw [h])
  rw [h] at hs hno
  exact ⟨gs, hgs, (findEnd_eq_none_iff_noEnd rest).mp hno, hs⟩

/-- A pass of EXTRACT_FRAME that ends in an error (R232). -/
theorem framePass_error {s : State} {e : Err} (h : s.framePass.resp = some (.error e)) :
    FlagError s e ∧ LeavesFrames s s.framePass e := by
  rcases framePass_cases s with ⟨f, rest, -, hp⟩ | ⟨rest, hscan, hp⟩ <;> rw [hp] at h ⊢
  · cases h
  · obtain ⟨hflag, hleft⟩ := waitOrFail_error h
    obtain ⟨gs, hgs, hno, hbuf⟩ := scan_none_spec hscan
    exact ⟨hflag, gs, rest, hgs, hno, hbuf, hleft⟩

/-- A pass of EXTRACT_BYTES that ends in an error (R232). -/
theorem bytesPass_error {count : BitVec Config.countWidth} {s : State} {e : Err}
    (h : (s.bytesPass count).resp = some (.error e)) : FlagError s e ∧ LeavesBytes count s (s.bytesPass count) e := by
  rcases bytesPass_cases count s with ⟨-, hp⟩ | ⟨hlt, hp⟩ <;> rw [hp] at h ⊢
  · cases h
  · obtain ⟨hflag, hleft⟩ := waitOrFail_error h
    exact ⟨hflag, hlt, hleft⟩

/-! ### The rows of the error table -/

/-- An instruction that takes the state `s` to `t` answers the error: the rows of the table (R220, R232). -/
inductive ErrorRow (i : Instr) (s : State) : State → Err → Prop
  | lengthOverflow (n : Nat) : ErrorRow i s (s.raise (.lengthOverflow n)) (.lengthOverflow n)
  | malformedFrame (check : FrameCheck) : ErrorRow i s (s.raise (.malformedFrame check)) (.malformedFrame check)
  | busy : ErrorRow i s (s.raise .busy) .busy
  | illegalOperation (op : BitVec 4) : ErrorRow i s (s.raise (.illegalOperation op)) (.illegalOperation op)
  | decoder {t : State} {e : Err} (cursor : Word32) (he : ErrorAt cursor e) (hbuf : SameBuffer s t) : ErrorRow i s t e
  | extraction {t : State} {e : Err} (hpend : s.pend = .idle) (hflag : FlagError s e)
      (hleft : (i = .extractFrame ∧ LeavesFrames s t e) ∨ ∃ count, i = .extractBytes count ∧ LeavesBytes count s t e) :
      ErrorRow i s t e

/-- A record that fails raises one of the decoder's errors; one that succeeds leaves the port as it was (log 7). -/
theorem exec_toInstr_errorRow {r : LogRecord} {s t : State} {e : Err}
    (hs : ∀ u, recordStep s.blk.length r s = .ok u → ∀ e', s.resp ≠ some (.error e'))
    (h : exec r.toInstr s = .next t) (he : t.resp = some (.error e)) : ErrorRow r.toInstr s t e := by
  have hbuf := sameBuffer_of_sameOutsideDecoder (exec_toInstr_outside h)
  rw [exec_toInstr] at h
  rcases recordOutcome_next h with ⟨e', hr, rfl⟩ | hr
  · cases he
    exact .decoder s.cursor (recordStep_errorAt hr) hbuf
  · have hresp : t.resp = s.resp := by
      rcases recordStep_cases s.blk.length r s with ⟨e', hx, -⟩ | ⟨f, hx, -⟩ | ⟨hx, -⟩ <;> cases hx.symm.trans hr <;> rfl
    exact absurd (hresp.symm.trans he) (hs t hr e)

/-- A PARSE that fails answers with one of the decoder's errors (R172). -/
theorem exec_parse_errorAt {B : List Byte} {s t : State} {e : Err} (h : exec (.parse B) s = .next t)
    (he : t.resp = some (.error e)) : ∃ cursor, ErrorAt cursor e := by
  by_cases hB : B.length < 2 ^ 32
  · cases (exec_parse_of_lt hB s).symm.trans h
    rcases pass_ends hB (reading_startPass B s) with ⟨u, -, hend⟩ | ⟨-, -, u, e', -, hat, hend⟩ <;> rw [hend] at he <;>
      cases he
    exact ⟨u.cursor, hat⟩
  · cases (execParse_far hB s).symm.trans h

/-- Every error an instruction answers has its row. -/
theorem exec_errorRow {i : Instr} {s t : State} {e : Err}
    (hs : (∃ r, i = .full r) ∨ (∃ r, i = .pointOfInterest r) ∨ (∃ r, i = .compact r) ∨ (∃ r, i = .empty r) →
      ∀ e', s.resp ≠ some (.error e'))
    (h : exec i s = .next t) (he : t.resp = some (.error e)) : ErrorRow i s t e := by
  cases i with
  | encode id body =>
    rcases execEncode_cases id body s with ⟨-, hx⟩ | ⟨-, hx⟩ <;> cases hx.symm.trans h <;> cases he
    exact .lengthOverflow body.length
  | decode F =>
    rcases execDecode_cases F s with ⟨check, -, hx⟩ | ⟨f, -, hx⟩ <;> cases hx.symm.trans h <;> cases he
    exact .malformedFrame check
  | frame f =>
    rcases execFrame_cases f s with ⟨-, hx⟩ | ⟨-, hx⟩ <;> cases hx.symm.trans h
    cases he
  | append chunk =>
    rcases execAppend_cases chunk s with ⟨-, hx⟩ | ⟨-, hx⟩ <;> cases hx.symm.trans h <;> cases he
  | extractFrame =>
    rcases execExtractFrame_cases s with ⟨-, hx⟩ | ⟨hp, hx⟩ <;> cases hx.symm.trans h
    · cases he
      exact .busy
    · obtain ⟨hflag, hleft⟩ := framePass_error he
      exact .extraction hp hflag (.inl ⟨rfl, hleft⟩)
  | extractBytes count =>
    rcases execExtractBytes_cases count s with ⟨-, hx⟩ | ⟨hp, hx⟩ <;> cases hx.symm.trans h
    · cases he
      exact .busy
    · obtain ⟨hflag, hleft⟩ := bytesPass_error he
      exact .extraction hp hflag (.inr ⟨count, rfl, hleft⟩)
  | cancel => cases h; cases he
  | clear =>
    rcases execClear_cases s with ⟨-, hx⟩ | ⟨-, hx⟩ <;> cases hx.symm.trans h <;> cases he
    exact .busy
  | reservedOp low => cases h; cases he; exact .illegalOperation _
  | parse B =>
    obtain ⟨cursor, hat⟩ := exec_parse_errorAt h he
    exact .decoder cursor hat (exec_parse_sameBuffer h)
  | full r => exact exec_toInstr_errorRow (r := .full r) (fun _ _ => hs (.inl ⟨r, rfl⟩)) h he
  | pointOfInterest r =>
    exact exec_toInstr_errorRow (r := .pointOfInterest r) (fun _ _ => hs (.inr (.inl ⟨r, rfl⟩))) h he
  | compact r => exact exec_toInstr_errorRow (r := .compact r) (fun _ _ => hs (.inr (.inr (.inl ⟨r, rfl⟩)))) h he
  | empty r => exact exec_toInstr_errorRow (r := .empty r) (fun _ _ => hs (.inr (.inr (.inr ⟨r, rfl⟩)))) h he
  | reservedKind0 low => exact exec_toInstr_errorRow (r := .reserved0 low) (fun _ hok => nomatch hok) h he
  | reservedKind1 low => exact exec_toInstr_errorRow (r := .reserved1 low) (fun _ hok => nomatch hok) h he
  | reservedKind5 low => exact exec_toInstr_errorRow (r := .reserved5 low) (fun _ hok => nomatch hok) h he
  | reservedKind6 low => exact exec_toInstr_errorRow (r := .reserved6 low) (fun _ hok => nomatch hok) h he

/-- Settles O57: the table's rows one by one, and the completion step as a pass of the pending extraction. -/
theorem anErrorLeavesExactlyTheStateOfItsRow : Obligations.AnErrorLeavesExactlyTheStateOfItsRow := by
  refine ⟨fun i s t e hs h he => ?_, fun s e hc he => ?_⟩
  · cases exec_errorRow hs h he with
    | lengthOverflow n => rfl
    | malformedFrame check => rfl
    | busy => rfl
    | illegalOperation op => rfl
    | decoder cursor hat hbuf => rcases hat with rfl | rfl | rfl <;> exact hbuf
    | extraction hpend hflag hleft =>
      rcases hflag with ⟨rfl, ho⟩ | ⟨rfl, ho, hclosed⟩
      · exact ⟨ho, hpend, hleft⟩
      · exact ⟨ho, hclosed, hpend, hleft⟩
  · rcases complete_cases s with ⟨hheld, -⟩ | ⟨-, hp, hx⟩ | ⟨count, -, hp, hx⟩
    · cases hheld.symm.trans hc
    · rw [hx] at he ⊢
      obtain ⟨hflag, hleft⟩ := framePass_error he
      exact ⟨hflag, .inl ⟨hp, hleft⟩⟩
    · rw [hx] at he ⊢
      obtain ⟨hflag, hleft⟩ := bytesPass_error he
      exact ⟨hflag, .inr ⟨count, hp, hleft⟩⟩

end Sys2Proof.Proofs
end

section
/-! Reset and hazards (70_reset_and_hazards.md): a frame with an inner end marker (R266), and the state after reset
(R260). -/

namespace Sys2Proof.Proofs

open Sys2Proof.Machine Sys2Proof.Claims

/-! ### An inner end marker -/

/-- SCAN cuts at the string's first end marker, and what is behind the cut stays before the bytes that follow (R145). -/
theorem scan_append_of_findEnd {w : List Byte} {k : Nat} (h : findEnd w = some k) (hs : Starts (w.take (k + 2)))
    (rest : List Byte) : scan (w ++ rest) = (some (w.take (k + 2)), w.drop (k + 2) ++ rest) := by
  have hcut := scan_candidate_append (candidate_of_findEnd h) hs (w.drop (k + 2) ++ rest)
  rwa [← List.append_assoc, List.take_append_drop] at hcut

/-- A cut takes at least the two bytes of an end marker, so the head of a frame has the whole start marker. -/
theorem starts_take_wire (id : Byte) (body : List Byte) (rx : Byte) (k : Nat) :
    Starts ((wire id body rx).take (k + 2)) := ⟨rfl, rfl⟩

theorem nb_take {s : List Byte} {j m : Nat} (h : j < m) : nb (s.take m) j = nb s j := by
  simp only [nb, List.getD_eq_getElem?_getD, List.getElem?_take_of_lt h]

/-- DECODE refuses every proper head of a frame: its length field counts the whole frame (R266). -/
theorem decodeFrame_take_wire {body : List Byte} (hlen : body.length ≤ 65534) (id rx : Byte) {m : Nat}
    (hm : m < body.length + 8) : ∃ c, decodeFrame ((wire id body rx).take m) = .error c := by
  cases hd : decodeFrame ((wire id body rx).take m) with
  | error c => exact ⟨c, rfl⟩
  | ok f =>
    obtain ⟨-, hlength, -⟩ := checks_of_decodeFrame_ok hd
    rw [List.length_take, wire_length] at hlength
    rw [nb_take (by omega), nb_take (by omega), wire_lengthField hlen] at hlength
    omega

/-- Settles O19: the first end marker ends SCAN's frame, a proper head of the one that was sent. -/
theorem anInnerEndMarkerCutsTheFrame : Obligations.AnInnerEndMarkerCutsTheFrame := by
  intro s s' id rx body rest k hp hlen hk hat hfirst hbuf
  have hend : findEnd (wire id body rx) = some k := (findEnd_eq_some_iff _ k).mpr ⟨hat, hfirst⟩
  have hscan := scan_append_of_findEnd hend (starts_take_wire id body rx k) rest
  obtain ⟨c, hc⟩ := decodeFrame_take_wire hlen id rx (m := k + 2) (by omega)
  exact ⟨exec_extractFrame_of_found hp (hbuf ▸ hscan), c, _, exec_decode_of_error hc s', rfl⟩

/-! ### The state after reset -/

/-- Of the instructions a request stands for, PARSE alone asks for something: a block that BLK can hold (R53). -/
theorem exec_request_next {q : Request} {i : Instr} (hd : decodeRequest q = .ok i) (s : State) :
    ∃ u, exec i s = .next u := by
  rcases decodeRequest_cases hd with ⟨id, body, rfl⟩ | ⟨F, rfl⟩ | ⟨B, rfl⟩ | ⟨chunk, rfl⟩ | rfl | ⟨count, rfl⟩ |
    rfl | rfl | ⟨low, rfl⟩
  · rcases execEncode_cases id body s with ⟨-, he⟩ | ⟨-, he⟩ <;> exact ⟨_, he⟩
  · rcases execDecode_cases F s with ⟨_, -, he⟩ | ⟨_, -, he⟩ <;> exact ⟨_, he⟩
  · exact ⟨_, exec_parse_of_lt (of_decide_eq_true (decodeRequest_wellFormed hd)) s⟩
  · rcases execAppend_cases chunk s with ⟨-, he⟩ | ⟨-, he⟩ <;> exact ⟨_, he⟩
  · rcases execExtractFrame_cases s with ⟨-, he⟩ | ⟨-, he⟩ <;> exact ⟨_, he⟩
  · rcases execExtractBytes_cases count s with ⟨-, he⟩ | ⟨-, he⟩ <;> exact ⟨_, he⟩
  · exact ⟨_, rfl⟩
  · rcases execClear_cases s with ⟨-, he⟩ | ⟨-, he⟩ <;> exact ⟨_, he⟩
  · exact ⟨_, rfl⟩

/-- A request whose byte string BLK can hold is taken, in every state (R53, R80). -/
theorem request_accepted {q : Request} (hlen : q.data.length < 2 ^ 32) (s : State) :
    ∃ i u, decodeRequest q = .ok i ∧ exec i s = .next u := by
  cases hd : decodeRequest q with
  | error r => exact absurd (decodeRequest_error hd).2 (Nat.not_le.mpr hlen)
  | ok i =>
    obtain ⟨u, hu⟩ := exec_request_next hd s
    exact ⟨i, u, rfl, hu⟩

/-- Both resets leave what a reset of the block leaves: the first is that of the block just built (R260). -/
theorem eq_resetBlock_of_reset {t : State}
    (h : t = State.reset ∨ ∃ s rest, s.turns = .reset :: rest ∧ step s = .next t) : ∃ s : State, t = s.resetBlock := by
  rcases h with rfl | ⟨s, rest, hturns, hstep⟩
  · exact ⟨State.reset, rfl⟩
  · cases (step_of_turns_reset hturns).symm.trans hstep
    exact ⟨_, rfl⟩

theorem status_resetBlock (s : State) : s.resetBlock.status = 0 :=
  BitVec.eq_of_toNat_eq (status_toNat s.resetBlock)

/-- Settles O51: the table's values are those of `State.resetBlock`; no state refuses an operation. -/
theorem resetLeavesTheValuesOfTheTable : Obligations.ResetLeavesTheValuesOfTheTable := by
  intro t ht
  obtain ⟨s, rfl⟩ := eq_resetBlock_of_reset ht
  exact ⟨rfl, rfl, rfl, rfl, rfl, rfl, rfl, status_resetBlock s, rfl, fun _ _ hlen => request_accepted hlen _⟩

end Sys2Proof.Proofs
end

section
/-! Encoders behind decoders (30_encoding.md): the bytes that are read are the bytes the encoders write; the words of the
test vectors; the row FRAME; the block's invariant at reset. -/

namespace Sys2Proof.Proofs

open Sys2Proof.Machine Sys2Proof.Claims
open BitVec (extractLsb'_append_eq_left extractLsb'_append_eq_right extractLsb'_append_eq_of_le
  extractLsb'_append_extractLsb'_eq_extractLsb' extractLsb'_eq_self)

/-! ### A byte from its fields -/

/-- The fields of a header that has three of them (R91, R95, R100). -/
theorem join_header (b : Byte) : b.extractLsb' 5 3 ++ b.extractLsb' 2 3 ++ b.extractLsb' 0 2 = b := by
  rw [extractLsb'_append_extractLsb'_eq_extractLsb' (show 5 = 2 + 3 from rfl)]
  exact (extractLsb'_append_extractLsb'_eq_extractLsb' rfl).trans extractLsb'_eq_self

/-- The fields of a byte that ends one field and begins another, two ignored bits between them (R97, R102). -/
theorem join_middle (b : Byte) : b.extractLsb' 4 4 ++ b.extractLsb' 2 2 ++ b.extractLsb' 0 2 = b := by
  rw [extractLsb'_append_extractLsb'_eq_extractLsb' (show 4 = 2 + 2 from rfl)]
  exact (extractLsb'_append_extractLsb'_eq_extractLsb' rfl).trans extractLsb'_eq_self

/-- A header whose kind is known is that kind above its low five bits (R91, R94, R104). -/
theorem join_kind {h : Byte} {k : BitVec 3} (hk : h.extractLsb' 5 3 = k) : k ++ h.extractLsb' 0 5 = h :=
  hk ▸ (extractLsb'_append_extractLsb'_eq_extractLsb' rfl).trans extractLsb'_eq_self

theorem join_rdx_rdy (b : Byte) : b.extractLsb' 6 2 ++ b.extractLsb' 0 6 = b :=
  (extractLsb'_append_extractLsb'_eq_extractLsb' rfl).trans extractLsb'_eq_self

/-! ### The parts of the fields that cross bytes -/

theorem velocityField_high (b0 b1 : Byte) : (velocityField b0 b1).extractLsb' 8 2 = b0.extractLsb' 0 2 :=
  extractLsb'_append_eq_left

theorem velocityField_low (b0 b1 : Byte) : (velocityField b0 b1).extractLsb' 0 8 = b1 := extractLsb'_append_eq_right

theorem weekField_high (b2 b3 : Byte) : (weekField b2 b3).extractLsb' 8 2 = b2.extractLsb' 0 2 :=
  velocityField_high b2 b3

theorem weekField_low (b2 b3 : Byte) : (weekField b2 b3).extractLsb' 0 8 = b3 := velocityField_low b2 b3

theorem towField_high (b2 b4 b5 : Byte) : (towField b2 b4 b5).extractLsb' 12 8 = b4 :=
  (extractLsb'_append_eq_of_le (by decide)).trans extractLsb'_append_eq_left

theorem towField_middle (b2 b4 b5 : Byte) : (towField b2 b4 b5).extractLsb' 4 8 = b5 :=
  (extractLsb'_append_eq_of_le (by decide)).trans extractLsb'_append_eq_right

theorem towField_low (b2 b4 b5 : Byte) : (towField b2 b4 b5).extractLsb' 0 4 = b2.extractLsb' 4 4 :=
  extractLsb'_append_eq_right

theorem rdxField_high (b4 b5 : Byte) : (rdxField b4 b5).extractLsb' 2 8 = b4 := extractLsb'_append_eq_left

theorem rdxField_low (b4 b5 : Byte) : (rdxField b4 b5).extractLsb' 0 2 = b5.extractLsb' 6 2 :=
  extractLsb'_append_eq_right

theorem rdyField_high (b5 b6 : Byte) : (rdyField b5 b6).extractLsb' 4 6 = b5.extractLsb' 0 6 :=
  extractLsb'_append_eq_left

theorem rdyField_low (b5 b6 : Byte) : (rdyField b5 b6).extractLsb' 0 4 = b6.extractLsb' 4 4 :=
  extractLsb'_append_eq_right

theorem rdzField_high (b6 b7 : Byte) : (rdzField b6 b7).extractLsb' 8 2 = b6.extractLsb' 0 2 :=
  velocityField_high b6 b7

theorem rdzField_low (b6 b7 : Byte) : (rdzField b6 b7).extractLsb' 0 8 = b7 := velocityField_low b6 b7

theorem hi8_be16 (hi lo : Byte) : hi8 (be16 hi lo) = hi := extractLsb'_append_eq_left

theorem lo8_be16 (hi lo : Byte) : lo8 (be16 hi lo) = lo := extractLsb'_append_eq_right

/-- A coordinate's four bytes are written in the order they were read (R98). -/
theorem encodeMe32_me32 (s0 s1 s2 s3 : Byte) : encodeMe32 (me32 s0 s1 s2 s3) = [s0, s1, s2, s3] := by
  have h0 : (me32 s0 s1 s2 s3).extractLsb' 8 8 = s0 :=
    (extractLsb'_append_eq_of_le (by decide)).trans extractLsb'_append_eq_right
  have h1 : (me32 s0 s1 s2 s3).extractLsb' 0 8 = s1 := extractLsb'_append_eq_right
  have h2 : (me32 s0 s1 s2 s3).extractLsb' 24 8 = s2 :=
    (extractLsb'_append_eq_of_le (by decide)).trans
      ((extractLsb'_append_eq_of_le (by decide)).trans extractLsb'_append_eq_left)
  have h3 : (me32 s0 s1 s2 s3).extractLsb' 16 8 = s3 :=
    (extractLsb'_append_eq_of_le (by decide)).trans
      ((extractLsb'_append_eq_of_le (by decide)).trans extractLsb'_append_eq_right)
  rw [encodeMe32, h0, h1, h2, h3]

/-! ### The bytes a record was read from -/

theorem encodeAbsolute_of_decodeAbsolute {h : Byte} {k : BitVec 3} {bs rest : List Byte} {r : AbsoluteRecord}
    (hk : h.extractLsb' 5 3 = k) (hd : decodeAbsolute (h :: bs) = some (r, rest)) :
    encodeAbsolute k r ++ rest = h :: bs := by
  unfold decodeAbsolute at hd
  split at hd
  case h_1 heq =>
    cases heq
    cases hd
    simp only [encodeAbsolute, ← hk, velocityField_high, velocityField_low, weekField_high, weekField_low, towField_high,
      towField_middle, towField_low, encodeMe32_me32, join_header, join_middle, List.cons_append, List.nil_append]
  case h_2 => cases hd

theorem encodeCompact_of_decodeCompact {h : Byte} {bs rest : List Byte} {r : CompactRecord}
    (hk : h.extractLsb' 5 3 = 4#3) (hd : decodeCompact (h :: bs) = some (r, rest)) :
    encodeCompact r ++ rest = h :: bs := by
  unfold decodeCompact at hd
  split at hd
  case h_1 heq =>
    cases heq
    cases hd
    simp only [encodeCompact, ← hk, velocityField_high, velocityField_low, dtField, hi8_be16, lo8_be16, rdxField_high,
      rdxField_low, rdyField_high, rdyField_low, rdzField_high, rdzField_low, join_header, join_middle, join_rdx_rdy,
      List.cons_append, List.nil_append]
  case h_2 => cases hd

theorem encodeEmpty_of_decodeEmpty {h : Byte} {bs rest : List Byte} {r : EmptyRecord}
    (hk : h.extractLsb' 5 3 = 7#3) (hd : decodeEmpty (h :: bs) = some (r, rest)) :
    encodeEmpty r ++ rest = h :: bs := by
  unfold decodeEmpty at hd
  split at hd
  case h_1 heq =>
    cases heq
    cases hd
    simp only [encodeEmpty, join_kind hk, List.cons_append, List.nil_append]
  case h_2 => cases hd

/-- The header's top three bits are the number of the kind it names (R91, R93). -/
theorem kindBits_eq (h : Byte) : h.extractLsb' 5 3 = BitVec.ofNat 3 (kindCode (kindOf h)) := by
  rw [kindCode_kindOf, ← kind_toNat, BitVec.ofNat_toNat, BitVec.setWidth_eq]

/-- A record read from bytes, written again, gives those bytes (30_encoding.md section 3). -/
theorem encodeRecord_of_decodeRecord {bs rest : List Byte} {r : LogRecord} (hd : decodeRecord bs = .ok (r, rest)) :
    encodeRecord r ++ rest = bs := by
  cases bs with
  | nil => cases hd
  | cons h bs =>
    have hbits := kindBits_eq h
    rw [decodeRecord_cons] at hd
    cases hk : kindOf h <;> rw [hk] at hd hbits
    case full | pointOfInterest =>
      obtain ⟨a, rfl, ha⟩ := fits_ok hd
      exact encodeAbsolute_of_decodeAbsolute hbits ha
    case compact =>
      obtain ⟨a, rfl, ha⟩ := fits_ok hd
      exact encodeCompact_of_decodeCompact hbits ha
    case empty =>
      obtain ⟨a, rfl, ha⟩ := fits_ok hd
      exact encodeEmpty_of_decodeEmpty hbits ha
    case reserved0 | reserved1 | reserved5 | reserved6 =>
      cases hd
      exact congrArg (· :: rest) (join_kind hbits)

/-! ### The bytes a frame was read from -/

/-- Eight bytes or more are five of a head, a body and three of a tail (R56). -/
theorem exists_map_of_length {F : List Byte} (h : 8 ≤ F.length) :
    ∃ a0 a1 l0 l1 id body rx e0 e1, F = a0 :: a1 :: l0 :: l1 :: id :: (body ++ [rx, e0, e1]) := by
  match F, h with
  | a0 :: a1 :: l0 :: l1 :: id :: tail, h =>
    simp only [List.length_cons] at h
    obtain ⟨rx, e0, e1, hend⟩ : ∃ rx e0 e1, tail.drop (tail.length - 3) = [rx, e0, e1] :=
      List.length_eq_three.mp (by rw [List.length_drop]; omega)
    exact ⟨a0, a1, l0, l1, id, _, rx, e0, e1, by rw [← hend, List.take_append_drop]⟩

/-- What DECODE answers with a message is a frame of the encoder's: the checks fix the markers, and the length field by
the body (R56, R124). -/
theorem exists_encodeFrame_of_decodeFrame_ok {F : List Byte} {f : WireFrame} (h : decodeFrame F = .ok f) :
    ∃ g : WireFrame, g.body.length ≤ 65534 ∧ encodeFrame g = F := by
  have h8 : 8 ≤ F.length := by
    rw [decodeFrame_eq] at h
    split_ifs at h with h8
    exact Nat.not_lt.mp h8
  obtain ⟨⟨hs0, hs1⟩, hlen, he0, he1⟩ := checks_of_decodeFrame_ok h
  obtain ⟨a0, a1, l0, l1, id, body, rx, e0, e1, rfl⟩ := exists_map_of_length h8
  obtain rfl : a0 = 0xA0 := Option.some.inj hs0
  obtain rfl : a1 = 0xA1 := Option.some.inj hs1
  obtain rfl : e0 = 0x0D := by simpa using he0
  obtain rfl : e1 = 0x0A := by simpa using he1
  have hfield : body.length + 1 = (be16 l0 l1).toNat := by
    rw [be16_toNat]
    simpa [nb] using hlen
  have hbody : body.length ≤ 65534 := by
    have := (be16 l0 l1).isLt
    omega
  refine ⟨⟨id, body, rx⟩, hbody, ?_⟩
  rw [encodeFrame_eq, Nat.add_comm 1, hfield, BitVec.ofNat_toNat, BitVec.setWidth_eq, hi8_be16, lo8_be16]

/-- Settles O47: the decoders undo the encoders, and what a decoder has read an encoder has written. -/
theorem recordsAndFramesHaveOneSpelling : Obligations.RecordsAndFramesHaveOneSpelling := by
  refine ⟨decodeRecord_encodeRecord, fun _ _ _ => encodeRecord_of_decodeRecord, fun _ => decodeFrame_encodeFrame, ?_⟩
  intro F f hd
  obtain ⟨g, hg, rfl⟩ := exists_encodeFrame_of_decodeFrame_ok hd
  obtain rfl : g = f := Except.ok.inj ((decodeFrame_encodeFrame hg).symm.trans hd)
  exact ⟨rfl, hg⟩

/-- Settles O48: the readers take the fields from the vectors' bytes. -/
theorem someWordsDecodeRight : Obligations.SomeWordsDecodeRight := by
  exact ⟨by decide, by decide, by decide⟩

/-! ### The row FRAME -/

/-- Settles O8: both deliver the frame's message. -/
theorem frameRowGivesWhatDecodeGives : Obligations.FrameRowGivesWhatDecodeGives := by
  intro f s h
  have hrow : exec (.frame f) s = .next (s.deliverMessage f) := by
    rcases execFrame_cases f s with ⟨hlong, -⟩ | ⟨-, he⟩
    · omega
    · exact he
  rw [hrow]
  constructor
  · rw [deliverMessage_eq_fold, chkOf_eq_fold]
  · exact exec_decode_of_ok (decodeFrame_wire h f.identifier f.checksum) s

/-! ### The invariant at reset -/

/-- Settles O53: the state after reset is what a reset of the block leaves of it. -/
theorem resetSatisfiesTheInvariantOfTheBlock : Obligations.ResetSatisfiesTheInvariantOfTheBlock :=
  inv_resetBlock State.reset

end Sys2Proof.Proofs
end
